-- ==== Sys2Proof/Word.lean ====
section
/-! DEFINITION. The words of the block: a slot's byte, the operation word and the response word. -/

namespace Sys2Proof

/-- One slot, 8 bits wide (`00_scope.md` R4, `DATA_W`). -/
abbrev Byte := BitVec 8

/-- The operation word `OPW[11:0]` (`30_encoding.md` R50). -/
abbrev Opw := BitVec 12

/-- The response word `RSP[9:0]` (`30_encoding.md` R55). -/
abbrev Rsp := BitVec 10

end Sys2Proof
end

