-- ==== Sys2Proof/Config.lean ====
section
/-! DEFINITION. What an implementation fixes (the parameters of `00_scope.md` R4), the names of rings, ports and modes,
and the free values: constants without a body, of which no proof can know anything. -/

namespace Sys2Proof

/-- The two rings (`10_state.md` R10). -/
inductive RingSel where
  /-- TxRing, host to target. -/
  | tx
  /-- RxRing, target to host. -/
  | rx
  deriving DecidableEq, Repr, Inhabited

/-- The two ports (`60_exceptions.md` R170). -/
inductive Port where
  /-- Port U, the USB dispatcher's. -/
  | u
  /-- Port S, the serial pump's. -/
  | s
  deriving DecidableEq, Repr, Inhabited

/-- The two profiles (`00_scope.md` R4, R8). -/
inductive SyncMode where
  | cooperative
  | grayCdc
  deriving DecidableEq, Repr, Inhabited

/-- The dispatcher's mode, core scope (`41_client_sequences.md` R100). -/
inductive Mode where
  | idle
  | readSerial
  | writeSerial
  deriving DecidableEq, Repr, Inhabited

/-- The parameters of `00_scope.md` R4. They are carried in `State.params`, and no step changes them (R6), so that what
is stated for every state is stated for every choice of them (DESIGN CHOICE, log entry 1). -/
structure Params where
  /-- `CAP[TX]`. -/
  capTx : Nat
  /-- `CAP[RX]`. -/
  capRx : Nat
  /-- `SYNC_MODE`. -/
  syncMode : SyncMode
  /-- `SYNC_STAGES`: timing only, no rule of the model depends on it (`42_gray_cdc_option.md` R141). -/
  syncStages : Nat
  /-- `PKT`, the full USB packet size in bytes. -/
  pkt : Nat
  deriving DecidableEq, Repr

/-- The `n`-th unspecified byte the machine draws: `respond(status, ?)` and the packet bytes beyond a count
(`93_implementation_defined.md` U1, U9; log entry 3). -/
opaque Config.freeByte : Nat → Byte

/-- What the byte counter holds after `len` bytes are taken from fewer than `len`: the spec names saturating, wrapping
and stopping and settles none (U10; log entry 6). Arguments: the counter before, `len`. -/
opaque Config.counterOnUnderrun : Nat → Nat → Nat

/-- By how much a read-callback lowers the byte counter (`41_client_sequences.md` R107 leaves it open; U10; log
entry 6). Arguments: the packet's size `len`, its count `pkt[0]`. -/
opaque Config.readDecrement : Nat → Nat → Nat

/-- What the byte counter holds after a serial request is accepted as the continuation of a transfer in its own
direction (R100 accepts it and states no count; log entry 22). Arguments: the counter before, the requested count. -/
opaque Config.counterOnContinuation : Nat → Nat → Nat

/-- The "distinguished failure code" of a protocol violation (R108, U14; log entry 7). -/
opaque Config.failureCode : Nat

/-- The dispatcher's mode after its `n`-th free value, drawn at a protocol violation (R108, U14; log entry 7). -/
opaque Config.modeAfterViolation : Nat → Mode

/-- The byte counter after a protocol violation, likewise (R108, U14; log entry 7). -/
opaque Config.counterAfterViolation : Nat → Nat

end Sys2Proof
end

