-- ==== Sys2Proof/Syntax.lean ====
section
/-! DEFINITION. The operations of the block, one constructor per row of the opcode table. -/

namespace Sys2Proof

/-- The eight operations (`30_encoding.md` R51). An operand the block ignores is no part of an operation: any value of
it decodes to the same operation (R52, R53). -/
inductive Instr where
  /-- NOP (`40_ring_ops.md` R71). -/
  | nop
  /-- INIT `r` (R72). -/
  | init (r : RingSel)
  /-- ENQ `r, b` (R73, R74). -/
  | enq (r : RingSel) (b : Byte)
  /-- DEQ `r` (R75, R76). -/
  | deq (r : RingSel)
  /-- ISEMPTY `r` (R77). -/
  | isempty (r : RingSel)
  /-- ISFULL `r` (R78). -/
  | isfull (r : RingSel)
  /-- INITALL (R80). -/
  | initall
  /-- RSVD7, the reserved code (R58, R81). -/
  | rsvd7
  deriving DecidableEq, Repr

end Sys2Proof
end

