-- ==== Sys2Proof/WellFormed.lean ====
section
/-! DEFINITION. What a well-formed operation, parameter choice, packet and read length is. -/

namespace Sys2Proof

/-- Every operation is well formed: both values of the ring bit are legal and the byte is used as it stands, so no
operand can be out of range (`30_encoding.md` R52, R53). -/
def Instr.wellFormed : Instr → Bool
  | .nop => true
  | .init _ => true
  | .enq _ _ => true
  | .deq _ => true
  | .isempty _ => true
  | .isfull _ => true
  | .initall => true
  | .rsvd7 => true

/-- A legal capacity: a power of two, at least 2 (`00_scope.md` R5). -/
def legalCap (cap : Nat) : Bool := decide (2 ≤ cap) && decide (2 ^ cap.log2 = cap)

/-- A legal choice of the parameters (`00_scope.md` R4, R5; U12). -/
def Params.legal (p : Params) : Bool := legalCap p.capTx && legalCap p.capRx && decide (2 ≤ p.syncStages)

/-- A framed packet of raw length 1 to `PKT` whose length prefix counts bytes the packet holds
(`30_encoding.md` R62, `41_client_sequences.md` R104). The literal 7 of R104, R113 and U8 is read as `PKT - 1`, its value
for `PKT = 8`: for another `PKT` that is the model's choice (DESIGN CHOICE, log entry 33). -/
def packetOk (pktSize : Nat) : List Byte → Bool
  | [] => false
  | n :: rest => decide (rest.length + 1 ≤ pktSize) && decide (n.toNat ≤ rest.length)

/-- A legal size of an outgoing packet (`41_client_sequences.md` R106). -/
def readLengthOk (pktSize len : Nat) : Bool := decide (1 ≤ len) && decide (len ≤ pktSize)

end Sys2Proof
end

