-- ==== Sys2Proof/Decode.lean ====
section
/-! DEFINITION. Decoding the 12-bit operation word, the encoder after it, and the assembler's notation. -/

namespace Sys2Proof

/-- The ring bit `OPW[8]`: 0 is TxRing, 1 is RxRing (`30_encoding.md` R52). -/
def RingSel.ofBit : Bool → RingSel
  | false => .tx
  | true => .rx

/-- `OPW[11:9]`, the operation (`30_encoding.md` R50). -/
def opField (w : Opw) : BitVec 3 := w.extractLsb' 9 3

/-- `OPW[8]`, the ring (R50). -/
def ringField (w : Opw) : RingSel := RingSel.ofBit (w.getLsbD 8)

/-- `OPW[7:0]`, the byte (R50, R53). -/
def dataField (w : Opw) : Byte := w.extractLsb' 0 8

/-- Decoding, by `OP` alone and total: no word is illegal (R51, R54, R64). -/
def decode (w : Opw) : Instr :=
  match (opField w).toNat with
  | 0 => .nop
  | 1 => .init (ringField w)
  | 2 => .enq (ringField w) (dataField w)
  | 3 => .deq (ringField w)
  | 4 => .isempty (ringField w)
  | 5 => .isfull (ringField w)
  | 6 => .initall
  | _ => .rsvd7

/-- Why a number is no operation word. -/
inductive DecodeError where
  /-- It has more than the 12 bits of an operation word (R50, R59: there is no other length). Safe. -/
  | notTwelveBits
  deriving DecidableEq, Repr

/-- Decoding of a number: the operation word it is, or the reason it is none (log entry 26). -/
def decodeNat (n : Nat) : Except DecodeError Instr :=
  if n < 4096 then .ok (decode (BitVec.ofNat 12 n)) else .error .notTwelveBits

/-- The operation the decoder reads from a row's bits as the opcode table numbers them. A port carries the word whole,
so there is no byte order to choose, and no bit above the twelve (R50, log entry 26). -/
def decodeTableWord (_nbits w : Nat) : Option Instr :=
  match decodeNat w with
  | .ok i => some i
  | .error _ => none

/-- The ring bit of a ring (R52). -/
def RingSel.toBit : RingSel → Bool
  | .tx => false
  | .rx => true

/-- The operation code of an operation (R51). -/
def Instr.op : Instr → BitVec 3
  | .nop => 0b000#3
  | .init _ => 0b001#3
  | .enq _ _ => 0b010#3
  | .deq _ => 0b011#3
  | .isempty _ => 0b100#3
  | .isfull _ => 0b101#3
  | .initall => 0b110#3
  | .rsvd7 => 0b111#3

/-- The ring bit an operation uses; 0 where it is ignored (R64). -/
def Instr.ringBit : Instr → Bool
  | .nop => false
  | .init r => r.toBit
  | .enq r _ => r.toBit
  | .deq r => r.toBit
  | .isempty r => r.toBit
  | .isfull r => r.toBit
  | .initall => false
  | .rsvd7 => false

/-- The byte an operation carries; 0 where it is ignored (R53, R64). -/
def Instr.dataByte : Instr → Byte
  | .nop => 0
  | .init _ => 0
  | .enq _ b => b
  | .deq _ => 0
  | .isempty _ => 0
  | .isfull _ => 0
  | .initall => 0
  | .rsvd7 => 0

/-- The canonical word of an operation, every ignored bit 0 (R50, R64). -/
def encode (i : Instr) : Opw := i.op ++ BitVec.ofBool i.ringBit ++ i.dataByte

/-- The bits of a word its operation reads: `OP` always, `RING` and `DATA` as the table of R51 says. -/
def Instr.usedBits : Instr → Opw
  | .nop => 0xE00#12
  | .init _ => 0xF00#12
  | .enq _ _ => 0xFFF#12
  | .deq _ => 0xF00#12
  | .isempty _ => 0xF00#12
  | .isfull _ => 0xF00#12
  | .initall => 0xE00#12
  | .rsvd7 => 0xE00#12

/-! The assembler's notation (R60): one operation is `MNEMONIC [ring][, byte]`, and the assembler emits the canonical
word. A line is given here as its tokens: the mnemonic, the ring and the byte, the last two where they stand. -/

/-- The mnemonic of an operation (R51, R60). -/
def Instr.mnemonic : Instr → String
  | .nop => "NOP"
  | .init _ => "INIT"
  | .enq _ _ => "ENQ"
  | .deq _ => "DEQ"
  | .isempty _ => "ISEMPTY"
  | .isfull _ => "ISFULL"
  | .initall => "INITALL"
  | .rsvd7 => "RSVD7"

/-- The ring names `tx` and `rx`, in any capitals (R60). -/
def RingSel.ofToken (t : String) : Option RingSel :=
  match t.toList.map Char.toLower with
  | ['t', 'x'] => some .tx
  | ['r', 'x'] => some .rx
  | _ => none

/-- One line of assembler, its tokens to the operation: the forms of R60, each under its mnemonic and, where the source
has one, under the source's name. -/
def assemble (mnemonic : String) (ring : Option String) (byte : Option Nat) : Option Instr :=
  match ring, byte with
  | none, none =>
    if mnemonic == "NOP" then some .nop else if mnemonic == "INITALL" then some .initall else none
  | some t, none =>
    (RingSel.ofToken t).bind fun r =>
      if mnemonic == "INIT" || mnemonic == "init" then some (.init r)
      else if mnemonic == "DEQ" || mnemonic == "dequeue" then some (.deq r)
      else if mnemonic == "ISEMPTY" || mnemonic == "isEmpty" then some (.isempty r)
      else if mnemonic == "ISFULL" || mnemonic == "isFull" then some (.isfull r)
      else none
  | some t, some n =>
    (RingSel.ofToken t).bind fun r =>
      if (mnemonic == "ENQ" || mnemonic == "enqueue") && decide (n < 256) then some (.enq r (BitVec.ofNat 8 n))
      else none
  | none, some _ => none

/-- The word the assembler emits for a line (R60). -/
def assembleWord (mnemonic : String) (ring : Option String) (byte : Option Nat) : Option Opw :=
  (assemble mnemonic ring byte).map encode

/-- The tokens of a line: its words, and each comma by itself. The second argument is the word begun, reversed. -/
def tokens : List Char → List Char → List (List Char)
  | [], w => if w.isEmpty then [] else [w.reverse]
  | c :: cs, w =>
    if c = ' ' then (if w.isEmpty then [] else [w.reverse]) ++ tokens cs []
    else if c = ',' then (if w.isEmpty then [] else [w.reverse]) ++ [','] :: tokens cs []
    else tokens cs (c :: w)

/-- The value of a digit, at most 15. -/
def digitValue (c : Char) : Option Nat :=
  if '0' ≤ c ∧ c ≤ '9' then some (c.toNat - '0'.toNat)
  else if 'a' ≤ c.toLower ∧ c.toLower ≤ 'f' then some (c.toLower.toNat - 'a'.toNat + 10)
  else none

/-- A numeral in a base, after the value of the digits before. -/
def numeral (base : Nat) : Nat → List Char → Option Nat
  | n, [] => some n
  | n, c :: cs => (digitValue c).bind fun d => if d < base then numeral base (n * base + d) cs else none

/-- A byte operand, decimal or `0x` hex (R60). -/
def byteOfToken : List Char → Option Nat
  | [] => none
  | ['0', 'x'] => none
  | '0' :: 'x' :: ds => numeral 16 0 ds
  | ds => numeral 10 0 ds

/-- The word of an operation's tokens, `MNEMONIC [ring][, byte]` (R60). -/
def assembleTokens : List (List Char) → Option Opw
  | [m] => assembleWord (String.ofList m) none none
  | [m, r] => assembleWord (String.ofList m) (some (String.ofList r)) none
  | [m, r, [','], b] => (byteOfToken b).bind fun n => assembleWord (String.ofList m) (some (String.ofList r)) (some n)
  | _ => none

/-- One line of source: the port where `U:` or `S:` stands before the operation, and the canonical word (R60). -/
def assembleLine (line : String) : Option (Option Port × Opw) :=
  match tokens line.toList [] with
  | ['U', ':'] :: ts => (assembleTokens ts).map fun w => (some .u, w)
  | ['S', ':'] :: ts => (assembleTokens ts).map fun w => (some .s, w)
  | ts => (assembleTokens ts).map fun w => (none, w)

end Sys2Proof
end

