-- ==== Sys2Proof/Machine/State.lean ====
section
/-! DEFINITION. The machine's state as plain data, the reasons it can stop, and the state after reset. -/

namespace Sys2Proof.Machine

/-- The slot array of one ring: the slots written since reset, by rising index (`10_state.md` R16, `20_memory.md` R30).
A slot that is not listed holds the unspecified byte of reset (R23, log entry 4). -/
abbrev Memory := List Host.Cell

/-- One ring (`10_state.md` R10, `42_gray_cdc_option.md` R131). The pointers hold the masked index (R17). -/
structure Ring where
  /-- `inited[r]` (R13). -/
  inited : Bool
  /-- `head[r]`, next read index (R11). -/
  head : Nat
  /-- `tail[r]`, next write index (R12). -/
  tail : Nat
  /-- `head_seen[r]`, in the producer's domain; `GRAY_CDC` only (R131, log entry 9). -/
  headSeen : Nat
  /-- `tail_seen[r]`, in the consumer's domain; `GRAY_CDC` only (R131, log entry 9). -/
  tailSeen : Nat
  /-- `data[r]` (R16). -/
  data : Memory
  deriving DecidableEq, Repr

/-- The three serial inputs a pump step polls (`41_client_sequences.md` R111). -/
structure PumpIn where
  /-- `hw_tx_ready`. -/
  txReady : Bool
  /-- `hw_rx_ready`. -/
  rxReady : Bool
  /-- what `hw_rx_read()` returns if it is read. -/
  rxData : Byte
  deriving DecidableEq, Repr

/-- What USB servicing may bring to the dispatcher (`41_client_sequences.md` R100, `30_encoding.md` R63). -/
inductive UsbReq where
  /-- A configure-line request with its selectors (R101); what they select is out of scope (`00_scope.md` R9). -/
  | configure (baud bits parity : Byte)
  /-- A read-serial request for `count` bytes (R102). -/
  | read (count : Nat)
  /-- A write-serial request for `count` bytes (R103). -/
  | write (count : Nat)
  /-- The write-callback, with the packet received (R104). -/
  | writeCallback (packet : List Byte)
  /-- The read-callback, with the size of the packet to produce (R106). -/
  | readCallback (len : Nat)
  /-- A request whose code is none of the known ones (R109). -/
  | unknown
  deriving DecidableEq, Repr

/-- The dispatcher's sequence in progress; never other than `idle` in `COOPERATIVE`, where a sequence is one step
(`20_memory.md` R40, `42_gray_cdc_option.md` R147). -/
inductive UTask where
  | idle
  /-- WRCB: the payload bytes still to enqueue, and the packet's raw length (R104, R105). -/
  | wrcb (todo : List Byte) (len : Nat)
  /-- RDCB of size `len`: how many slots are still to fill, and the bytes stored so far, in packet order (R148). -/
  | rdcb (len left : Nat) (got : List Byte)
  deriving DecidableEq, Repr

/-- The pump's sequence in progress: after the transmit half the receive half is due (R110, R147). -/
inductive STask where
  | idle
  | rxHalf (hw : PumpIn)
  deriving DecidableEq, Repr

/-- What the outside world can do to the machine (`41_client_sequences.md` R113, log entries 2 and 16). -/
inductive Input where
  /-- Words presented on port U, port S or both at once (`30_encoding.md` R50, `20_memory.md` R44). -/
  | present (u s : Option Opw)
  /-- One tick: the requests of its USB-servicing sub-step, then a pump step (R112). -/
  | tick (requests : List UsbReq) (hw : PumpIn)
  /-- `GRAY_CDC`: the agent of one port takes its next operation (`42_gray_cdc_option.md` R147). -/
  | advance (p : Port)
  /-- `GRAY_CDC`: SYNC_H of a ring, with the schedule's choice (R140). -/
  | syncH (r : RingSel) (k : Nat)
  /-- `GRAY_CDC`: SYNC_T of a ring, with the schedule's choice (R142). -/
  | syncT (r : RingSel) (k : Nat)
  /-- The reset event (`70_reset_and_hazards.md` R190). -/
  | reset
  deriving DecidableEq, Repr

/-- What the clients give to the environment (log entry 12). -/
inductive OutEvent where
  /-- `hw_tx_write(v)`: a byte handed to hardware transmit (R110, R111). -/
  | hwTx (v : Byte)
  /-- `hw_rx_read()`: the receive register was read, which consumes its byte (R110, R111). -/
  | hwRxRead (v : Byte)
  /-- A packet returned by the read-callback (R106). -/
  | packet (bytes : List Byte)
  /-- The transport is told that the response comes by the read-callback path (R102). -/
  | readPath
  /-- Completion of a write transfer, signalled to the transport (R105). -/
  | complete
  /-- The failure code of a protocol violation (R108). -/
  | failure (code : Nat)
  deriving DecidableEq, Repr

/-- The whole state; INVENTORY.md lists each field with its rule. -/
structure State where
  /-- The parameters of R4, changed by no step (R6). -/
  params : Params
  /-- TxRing. -/
  tx : Ring
  /-- RxRing. -/
  rx : Ring
  /-- The word presented on port U, not yet executed. -/
  lineU : Option Opw
  /-- The word presented on port S, not yet executed. -/
  lineS : Option Opw
  /-- The response last given on port U (R55). -/
  rspU : Option Rsp
  /-- The response last given on port S (R55). -/
  rspS : Option Rsp
  /-- The port whose operation is executing (R136); the model's own. -/
  port : Port
  /-- The dispatcher's mode (R100). -/
  mode : Mode
  /-- The dispatcher's `remainingBytes` (R25). -/
  remaining : Nat
  /-- The USB requests still to serve, in order (R112). -/
  usb : List UsbReq
  /-- The pump steps due, in order (R112). -/
  pumps : List PumpIn
  /-- The dispatcher's sequence in progress (R147). -/
  uTask : UTask
  /-- The pump's sequence in progress (R147). -/
  sTask : STask
  /-- What the outside world does next (R113). -/
  inputs : List Input
  /-- The outputs so far, newest first. -/
  out : List OutEvent
  /-- How many free values have been drawn; the model's own (log entry 3). -/
  draws : Nat
  deriving DecidableEq, Repr

/-- Why the machine stops with a fault. The spec has none (R160). -/
inductive Fault where
  /-- An access to a slot index that is not below `CAP[r]`. Raised by the slot access of ENQ and DEQ, in states whose
  pointer holds more than its `W[r]` bits only (R17, R34; log entry 8). Safe. -/
  | slotOutOfRange (r : RingSel)
  deriving DecidableEq, Repr

/-- Why the machine gives no meaning. -/
inductive Refusal where
  /-- An operation that has no meaning yet. Raised by `exec`. Safe. -/
  | notModelled (mnemonic : String)
  /-- `GRAY_CDC`: ENQ, DEQ, INIT or INITALL on a port that may not issue it (R135, U5). Raised by those meanings. Safe. -/
  | wrongPort
  /-- The parameters are no legal choice (R5, U12). Raised by `step`. Safe. -/
  | illegalParams
  /-- A write packet that breaks the framing invariant (R104, U8). Raised by the write-callback. Safe. -/
  | malformedPacket
  /-- A read-callback size outside 1 to `PKT` (R106). Raised by the read-callback. Safe. -/
  | badReadLength
  /-- A callback while the dispatcher is idle: it is invoked in its own mode only (R104, R106; log entry 15). Safe. -/
  | callbackWhileIdle
  /-- `COOPERATIVE`: a part of a sequence scheduled by itself, that is, agents overlapping (R200, U3). Raised by an
  `advance` input. Safe. -/
  | overlap
  /-- `COOPERATIVE`: a synchroniser step, where there is no synchroniser (R10; log entry 16). Raised by a `syncH` or
  `syncT` input. Safe. -/
  | noSynchroniser
  deriving DecidableEq, Repr

/-- A ring after reset (`10_state.md` R23). -/
def Ring.reset : Ring :=
  { inited := false, head := 0, tail := 0, headSeen := 0, tailSeen := 0, data := [] }

/-- The parameters of the machine after reset: the default profile, and the capacity of the spec's test vectors
(`00_scope.md` R4; log entry 1). -/
def Params.standard : Params :=
  { capTx := 8, capRx := 8, syncMode := .cooperative, syncStages := 2, pkt := 8 }

/-- The machine right after reset (`10_state.md` R23, `70_reset_and_hazards.md` R190; the values the spec does not give
are those of log entries 1, 2, 3, 5, 10 and 12). -/
def State.reset : State :=
  { params := Params.standard
    tx := Ring.reset
    rx := Ring.reset
    lineU := none
    lineS := none
    rspU := none
    rspS := none
    port := .u
    mode := .idle
    remaining := 0
    usb := []
    pumps := []
    uTask := .idle
    sTask := .idle
    inputs := []
    out := []
    draws := 0 }

end Sys2Proof.Machine
end

