-- ==== Sys2Proof/Machine/Ops.lean ====
section
/-! DEFINITION. The shared operations: pointers, slots, rings, responses, free values. Taking an exception has no
operation here, because the block takes none (`60_exceptions.md` R160); what stands in its place is `respondDraw` with a
status other than OK, which changes no state of the block and transfers control nowhere (R165), and there is nothing to
return from (R166). -/

namespace Sys2Proof.Machine

/-- Go on with the next state, or stop where the first part stopped. -/
def andThen (o : Host.Outcome State Fault Refusal) (k : State → Host.Outcome State Fault Refusal) :
    Host.Outcome State Fault Refusal :=
  match o with
  | .next s => k s
  | .fault f => .fault f
  | .refused r => .refused r

/-! Parameters of a ring (`00_scope.md` R4). -/

/-- `CAP[r]`. -/
def capOf (p : Params) : RingSel → Nat
  | .tx => p.capTx
  | .rx => p.capRx

/-- `W[r] = log2(CAP[r])`. -/
def widthOf (p : Params) (r : RingSel) : Nat := (capOf p r).log2

/-! Pointer arithmetic (`40_ring_ops.md` R85); `MASK = CAP - 1`. -/

/-- `next(x) = (x + 1) & MASK` (R85). -/
def ptrNext (cap x : Nat) : Nat := (x + 1) &&& (cap - 1)

/-- `(x + k) & MASK` (`42_gray_cdc_option.md` R140, R142). -/
def ptrAdvance (cap x k : Nat) : Nat := (x + k) &&& (cap - 1)

/-- `(hi - lo) & MASK`, how far `hi` is ahead of `lo` (`10_state.md` R20, R140, R142). Adding `CAP` first keeps the
difference of two pointers below `CAP` a natural number and changes no masked bit. -/
def ptrDist (cap lo hi : Nat) : Nat := (hi + cap - lo) &&& (cap - 1)

/-! The slot array: a list by rising index (log entry 4). -/

/-- The byte in a slot, or `none` where nothing has been written since reset: the unspecified byte of R23. -/
def Memory.read : Memory → Nat → Option Byte
  | [], _ => none
  | (a, b) :: m, i => if a = i then some b else Memory.read m i

/-- Writing a slot, keeping the indices rising. -/
def Memory.write : Memory → Nat → Byte → Memory
  | [], i, v => [(i, v)]
  | (a, b) :: m, i, v =>
    if i < a then (i, v) :: (a, b) :: m
    else if i = a then (i, v) :: m
    else (a, b) :: Memory.write m i v

/-- The listed indices rise strictly from `lo` on and stay below `cap`. -/
def Memory.wfFrom (cap : Nat) : Nat → Memory → Bool
  | _, [] => true
  | lo, (a, _) :: m => decide (lo ≤ a) && decide (a < cap) && Memory.wfFrom cap (a + 1) m

/-- The canonical form of a slot array of `cap` slots. No byte is what an unlisted slot reads as, so every listed entry
may stand. -/
def Memory.wf (cap : Nat) (m : Memory) : Bool := Memory.wfFrom cap 0 m

/-! Rings in the state. -/

/-- The ring a ring index selects (`10_state.md` R10). -/
def State.ring (s : State) : RingSel → Ring
  | .tx => s.tx
  | .rx => s.rx

/-- The state with one ring replaced. -/
def State.setRing (s : State) (r : RingSel) (q : Ring) : State :=
  match r with
  | .tx => { s with tx := q }
  | .rx => { s with rx := q }

/-- `CAP[r]` of the machine. -/
def State.cap (s : State) (r : RingSel) : Nat := capOf s.params r

/-- The response last given on a port. -/
def State.rsp (s : State) : Port → Option Rsp
  | .u => s.rspU
  | .s => s.rspS

/-- The state with the response lines of a port driven. -/
def State.setRsp (s : State) (p : Port) (w : Rsp) : State :=
  match p with
  | .u => { s with rspU := some w }
  | .s => { s with rspS := some w }

/-- Give an output to the environment. -/
def State.emit (s : State) (e : OutEvent) : State := { s with out := e :: s.out }

/-! Slot access (`00_scope.md` R28, `20_memory.md` R32): one slot, 8 bits. -/

/-- `MemRead(r, i)`: go on with what slot `i` holds. -/
def memRead (r : RingSel) (i : Nat) (s : State) (k : Option Byte → Host.Outcome State Fault Refusal) :
    Host.Outcome State Fault Refusal :=
  if i < s.cap r then k (Memory.read (s.ring r).data i) else .fault (.slotOutOfRange r)

/-- `MemWrite(r, i, v)`: `data[r][i] <- v`. -/
def memWrite (r : RingSel) (i : Nat) (v : Byte) (s : State) : Host.Outcome State Fault Refusal :=
  if i < s.cap r then .next (s.setRing r { s.ring r with data := Memory.write (s.ring r).data i v })
  else .fault (.slotOutOfRange r)

/-! Responses (`30_encoding.md` R55 to R57). -/

/-- The four outcomes of an operation (R56). -/
inductive Status where
  | ok
  | full
  | empty
  | uninit
  deriving DecidableEq, Repr

/-- The status field's code (R56). -/
def statusCode : Status → BitVec 2
  | .ok => 0b00#2
  | .full => 0b01#2
  | .empty => 0b10#2
  | .uninit => 0b11#2

/-- The response word `{STATUS, DATA}` (R55). -/
def rspWord (st : Status) (d : Byte) : Rsp := statusCode st ++ d

/-- `RSP[9:8]` (R55, R56). -/
def rspStatus (w : Rsp) : Status :=
  match (w.extractLsb' 8 2).toNat with
  | 0 => .ok
  | 1 => .full
  | 2 => .empty
  | _ => .uninit

/-- `RSP[7:0]` (R55). -/
def rspData (w : Rsp) : Byte := w.extractLsb' 0 8

/-- The state after `respond(status, d)` on the issuing port. -/
def State.answer (s : State) (st : Status) (d : Byte) : State := s.setRsp s.port (rspWord st d)

/-- The state after `respond(status, ?)`: the data field is a free value (R57, U1; log entry 3). -/
def State.answerDraw (s : State) (st : Status) : State :=
  { s.answer st (Config.freeByte s.draws) with draws := s.draws + 1 }

/-- `respond(status, d)` (`00_scope.md` R28). -/
def respond (st : Status) (d : Byte) (s : State) : Host.Outcome State Fault Refusal := .next (s.answer st d)

/-- `respond(status, ?)`. -/
def respondDraw (st : Status) (s : State) : Host.Outcome State Fault Refusal := .next (s.answerDraw st)

/-- `n` unspecified bytes, from the state's next free value on. -/
def State.drawBytes (s : State) (n : Nat) : List Byte := (List.range n).map fun i => Config.freeByte (s.draws + i)

end Sys2Proof.Machine
end

