-- ==== Sys2Proof/Machine/Operands.lean ====
section
/-! DEFINITION. What an operation's operands and its port select: the ring's producer and consumer, the port's view of a
ring, and the effective slot. -/

namespace Sys2Proof.Machine

/-- The one port that may enqueue into a ring (`60_exceptions.md` R171, `42_gray_cdc_option.md` R135). -/
def producer : RingSel → Port
  | .tx => .u
  | .rx => .s

/-- The one port that may dequeue from a ring (R171, R135). -/
def consumer : RingSel → Port
  | .tx => .s
  | .rx => .u

/-- Whether the issuing port may issue an operation bound to port `p`: not policed in `COOPERATIVE`
(`60_exceptions.md` R172, U11), structural in `GRAY_CDC` (`42_gray_cdc_option.md` R135). -/
def State.mayIssue (s : State) (p : Port) : Bool :=
  match s.params.syncMode with
  | .cooperative => true
  | .grayCdc => decide (s.port = p)

/-- Run an operation bound to port `p`, or refuse it (R135, U5). -/
def boundTo (p : Port) (k : State → Host.Outcome State Fault Refusal) (s : State) :
    Host.Outcome State Fault Refusal :=
  if s.mayIssue p then k s else .refused .wrongPort

/-- The view `(hv, tv)` of ring `r` from the issuing port: in `COOPERATIVE` the pointers themselves, in `GRAY_CDC` the
port's own pointer and the other side's seen one (R136). -/
def State.view (s : State) (r : RingSel) : Nat × Nat :=
  match s.params.syncMode with
  | .cooperative => ((s.ring r).head, (s.ring r).tail)
  | .grayCdc =>
    if s.port = producer r then ((s.ring r).headSeen, (s.ring r).tail)
    else ((s.ring r).head, (s.ring r).tailSeen)

/-- The slot an ENQ on `r` writes (`40_ring_ops.md` R88, `20_memory.md` R31). -/
def State.storeSlot (s : State) (r : RingSel) : Nat := (s.ring r).tail

/-- The slot a DEQ on `r` reads (R88, R31). -/
def State.loadSlot (s : State) (r : RingSel) : Nat := (s.ring r).head

/-- The pointer of an ENQ, post-incremented (R74, R88). -/
def State.bumpTail (s : State) (r : RingSel) : State :=
  s.setRing r { s.ring r with tail := ptrNext (s.cap r) (s.ring r).tail }

/-- The pointer of a DEQ, post-incremented (R76, R88). -/
def State.bumpHead (s : State) (r : RingSel) : State :=
  s.setRing r { s.ring r with head := ptrNext (s.cap r) (s.ring r).head }

/-- What INIT does to a ring: in `GRAY_CDC` the seen pointers are cleared with the others
(`40_ring_ops.md` R72, `42_gray_cdc_option.md` R144). -/
def initRing (m : SyncMode) (q : Ring) : Ring :=
  match m with
  | .cooperative => { q with head := 0, tail := 0, inited := true }
  | .grayCdc => { q with head := 0, tail := 0, headSeen := 0, tailSeen := 0, inited := true }

/-- The state with ring `r` initialised. -/
def State.initAt (s : State) (r : RingSel) : State := s.setRing r (initRing s.params.syncMode (s.ring r))

end Sys2Proof.Machine
end

