-- ==== Sys2Proof/Machine/Flags.lean ====
section
/-! DEFINITION. The predicates over the pointers. The block stores no flag (`10_state.md` R14, R15, R19): each is
evaluated when an operation needs it. -/

namespace Sys2Proof.Machine

/-- `hv == tv` (`10_state.md` R14, `42_gray_cdc_option.md` R136). -/
def viewEmpty (v : Nat × Nat) : Bool := decide (v.1 = v.2)

/-- `((tv + 1) & MASK) == hv` (R15, R136). -/
def viewFull (cap : Nat) (v : Nat × Nat) : Bool := decide (ptrNext cap v.2 = v.1)

/-- `Empty_p(r)`, the Empty test of the issuing port. -/
def State.seesEmpty (s : State) (r : RingSel) : Bool := viewEmpty (s.view r)

/-- `Full_p(r)`, the Full test of the issuing port. -/
def State.seesFull (s : State) (r : RingSel) : Bool := viewFull (s.cap r) (s.view r)

/-- `Empty(r)` of the pointers themselves (R14). -/
def Ring.isEmpty (q : Ring) : Bool := viewEmpty (q.head, q.tail)

/-- `Full(r)` of the pointers themselves (R15). -/
def Ring.isFull (cap : Nat) (q : Ring) : Bool := viewFull cap (q.head, q.tail)

/-- `occ(r) = (tail - head) & MASK` (`10_state.md` R20). -/
def Ring.occ (cap : Nat) (q : Ring) : Nat := ptrDist cap q.head q.tail

/-- `contents(r)`, oldest first (R20); a resident slot that nothing has written shows as `none`. -/
def Ring.contents (cap : Nat) (q : Ring) : List (Option Byte) :=
  (List.range (q.occ cap)).map fun i => Memory.read q.data (ptrAdvance cap q.head i)

/-- The predicate's value as a response's data field, `zext_8` (`40_ring_ops.md` R77, R78). -/
def predicateByte (b : Bool) : Byte := (BitVec.ofBool b).setWidth 8

/-- The status of a predicate: OK, or UNINIT on an uninitialised ring (R77, R78). -/
def predicateStatus (inited : Bool) : Status := if inited then .ok else .uninit

end Sys2Proof.Machine
end

