-- ==== Sys2Proof/Machine/Idle.lean ====
section
/-! DEFINITION. The operations without an effect: NOP and the reserved code. -/

namespace Sys2Proof.Machine

/-- NOP (`40_ring_ops.md` R71): no state is read or written. -/
def execNop (s : State) : Host.Outcome State Fault Refusal := respondDraw .ok s

/-- RSVD7 (R81, `30_encoding.md` R58): exactly NOP. -/
def execRsvd7 (s : State) : Host.Outcome State Fault Refusal := respondDraw .ok s

end Sys2Proof.Machine
end

