-- ==== Sys2Proof/Machine/Init.lean ====
section
/-! DEFINITION. The state-resetting operations: INIT and INITALL (`40_ring_ops.md` R89). -/

namespace Sys2Proof.Machine

/-- INIT `r`: in `GRAY_CDC` on port U only (`40_ring_ops.md` R72, `42_gray_cdc_option.md` R135, R144). -/
def execInit (r : RingSel) (s : State) : Host.Outcome State Fault Refusal :=
  boundTo .u (fun t => respondDraw .ok (t.initAt r)) s

/-- INITALL: both rings in one atomic operation (R80, R144). -/
def execInitall (s : State) : Host.Outcome State Fault Refusal :=
  boundTo .u (fun t => respondDraw .ok ((t.initAt .tx).initAt .rx)) s

end Sys2Proof.Machine
end

