-- ==== Sys2Proof/Machine/Predicates.lean ====
section
/-! DEFINITION. The predicates: ISEMPTY and ISFULL. -/

namespace Sys2Proof.Machine

/-- ISEMPTY `r`, on either port (`40_ring_ops.md` R77, `42_gray_cdc_option.md` R139). -/
def execIsempty (r : RingSel) (s : State) : Host.Outcome State Fault Refusal :=
  respond (predicateStatus (s.ring r).inited) (predicateByte (s.seesEmpty r)) s

/-- ISFULL `r`, on either port (R78, R139). -/
def execIsfull (r : RingSel) (s : State) : Host.Outcome State Fault Refusal :=
  respond (predicateStatus (s.ring r).inited) (predicateByte (s.seesFull r)) s

end Sys2Proof.Machine
end

