-- ==== Sys2Proof/Machine/Transfer.lean ====
section
/-! DEFINITION. The block's store and load: ENQ and DEQ (`40_ring_ops.md` R88). -/

namespace Sys2Proof.Machine

/-- ENQ once its port is settled: UNINIT first (`60_exceptions.md` R164), then FULL by the port's view, then the effect
(`40_ring_ops.md` R73, R74; `42_gray_cdc_option.md` R137). -/
def enqueue (r : RingSel) (b : Byte) (s : State) : Host.Outcome State Fault Refusal :=
  if !(s.ring r).inited then respondDraw .uninit s
  else if s.seesFull r then respondDraw .full s
  else andThen (memWrite r (s.storeSlot r) b s) fun t => respondDraw .ok (t.bumpTail r)

/-- ENQ `r, b`: in `GRAY_CDC` on the producer port only (R135). -/
def execEnq (r : RingSel) (b : Byte) (s : State) : Host.Outcome State Fault Refusal :=
  boundTo (producer r) (enqueue r b) s

/-- The end of a successful DEQ: the byte read is answered; a slot nothing has written gives a free value
(`10_state.md` R23, U2; log entry 4). -/
def answerSlot (v : Option Byte) (s : State) : Host.Outcome State Fault Refusal :=
  match v with
  | some b => respond .ok b s
  | none => respondDraw .ok s

/-- DEQ once its port is settled (`40_ring_ops.md` R75, R76; `42_gray_cdc_option.md` R138). -/
def dequeue (r : RingSel) (s : State) : Host.Outcome State Fault Refusal :=
  if !(s.ring r).inited then respondDraw .uninit s
  else if s.seesEmpty r then respondDraw .empty s
  else memRead r (s.loadSlot r) s fun v => answerSlot v (s.bumpHead r)

/-- DEQ `r`: in `GRAY_CDC` on the consumer port only (R135). -/
def execDeq (r : RingSel) (s : State) : Host.Outcome State Fault Refusal :=
  boundTo (consumer r) (dequeue r) s

end Sys2Proof.Machine
end

