-- ==== Sys2Proof/Machine/Dispatch.lean ====
section
/-! DEFINITION. One arm per operation. -/

namespace Sys2Proof.Machine

/-- What an operation does, presented on the state's `port`. -/
def exec (i : Instr) (s : State) : Host.Outcome State Fault Refusal :=
  match i with
  | .nop => Sys2Proof.Machine.execNop s
  | .init r => Sys2Proof.Machine.execInit r s
  | .enq r b => Sys2Proof.Machine.execEnq r b s
  | .deq r => Sys2Proof.Machine.execDeq r s
  | .isempty r => Sys2Proof.Machine.execIsempty r s
  | .isfull r => Sys2Proof.Machine.execIsfull r s
  | .initall => Sys2Proof.Machine.execInitall s
  | .rsvd7 => Sys2Proof.Machine.execRsvd7 s

end Sys2Proof.Machine
end

