-- ==== Sys2Proof/Machine/Gray.lean ====
section
/-! DEFINITION. The gray code of the pointer crossing and the synchroniser steps (`42_gray_cdc_option.md`). -/

namespace Sys2Proof.Machine

/-- `gray_W(x) = x ^ (x >> 1)` (R132). -/
def gray {w : Nat} (x : BitVec w) : BitVec w := x ^^^ (x >>> 1)

/-- Bit `W - 1 - n` of `ungray_W(g)`: the top bit is `g`'s own, each lower one is the bit above it xor `g`'s (R133). -/
def ungrayBit {w : Nat} (g : BitVec w) : Nat → Bool
  | 0 => g.getLsbD (w - 1)
  | n + 1 => ungrayBit g n ^^ g.getLsbD (w - 1 - (n + 1))

/-- `ungray_W(g)` (R133). -/
def ungray {w : Nat} (g : BitVec w) : BitVec w := BitVec.ofFnLE fun i => ungrayBit g (w - 1 - i.val)

/-- `head_g[r] = gray(head[r])`, the register the hardware carries across (R141, R131). -/
def State.headGray (s : State) (r : RingSel) : BitVec (widthOf s.params r) :=
  gray (BitVec.ofNat (widthOf s.params r) (s.ring r).head)

/-- `tail_g[r] = gray(tail[r])` (R141, R131). -/
def State.tailGray (s : State) (r : RingSel) : BitVec (widthOf s.params r) :=
  gray (BitVec.ofNat (widthOf s.params r) (s.ring r).tail)

/-- How far `head_seen[r]` lags (R140): `a` of R145. -/
def Ring.headLag (cap : Nat) (q : Ring) : Nat := ptrDist cap q.headSeen q.head

/-- How many bytes the consumer sees (R145): `b`. -/
def Ring.seenOcc (cap : Nat) (q : Ring) : Nat := ptrDist cap q.head q.tailSeen

/-- How far `tail_seen[r]` lags (R142): `c` of R145. -/
def Ring.tailLag (cap : Nat) (q : Ring) : Nat := ptrDist cap q.tailSeen q.tail

/-- SYNC_H `r` with the schedule's choice `k`, cut to the lag so that every number is a legal choice and every legal
choice is a number (R140; log entry 16). -/
def syncHead (r : RingSel) (k : Nat) (s : State) : State :=
  s.setRing r { s.ring r with
    headSeen := ptrAdvance (s.cap r) (s.ring r).headSeen (min k ((s.ring r).headLag (s.cap r))) }

/-- SYNC_T `r`, likewise (R142; log entry 16). -/
def syncTail (r : RingSel) (k : Nat) (s : State) : State :=
  s.setRing r { s.ring r with
    tailSeen := ptrAdvance (s.cap r) (s.ring r).tailSeen (min k ((s.ring r).tailLag (s.cap r))) }

end Sys2Proof.Machine
end

