-- ==== Sys2Proof/Machine/Clients.lean ====
section
/-! DEFINITION. The two clients, exactly as far as the spec settles them (`41_client_sequences.md`,
`42_gray_cdc_option.md` R147, R148). In `COOPERATIVE` a sequence runs to completion in one step (`20_memory.md` R40); in
`GRAY_CDC` it takes one operation a step. -/

namespace Sys2Proof.Machine

/-- Issue one operation on an agent's port (`00_scope.md` R28, `op(...)`). -/
def issue (p : Port) (i : Instr) (s : State) : Host.Outcome State Fault Refusal := exec i { s with port := p }

/-- Whether the last response on a port is OK. -/
def State.answeredOk (s : State) (p : Port) : Bool :=
  match s.rsp p with
  | some w => decide (rspStatus w = .ok)
  | none => false

/-- The data field of the last response on a port; every operation has answered before a client looks, so the free value
of the second case is never taken. -/
def State.answeredData (s : State) (p : Port) : Byte :=
  match s.rsp p with
  | some w => rspData w
  | none => Config.freeByte s.draws

/-! The byte counter (R105, R107; log entry 6). -/

/-- The counter lowered by `n`; what holds if it is below `n` is open (N12). -/
def lower (remaining n : Nat) : Nat := if n ≤ remaining then remaining - n else Config.counterOnUnderrun remaining n

/-- The end of WRCB: the counter goes down by the packet's raw length, and at zero the transfer is complete (R105). -/
def finishWrcb (len : Nat) (s : State) : State :=
  if lower s.remaining len = 0 then ({ s with uTask := .idle, remaining := 0, mode := .idle }).emit .complete
  else { s with uTask := .idle, remaining := lower s.remaining len }

/-- The end of RDCB: the packet goes to the host; a short packet or a zero counter ends the transfer (R106, R107). The
packet always has the `len` bytes asked for, also when the ring ran dry, so a packet is short exactly when `len < PKT`:
whether a callback may return fewer is open (N12, U10; DESIGN CHOICE, log entry 32). -/
def finishRdcb (pktSize len : Nat) (count : Nat) (got : List Byte) (s : State) : State :=
  ({ s with
      uTask := .idle
      remaining := lower s.remaining (Config.readDecrement len count)
      mode := if len < pktSize ∨ lower s.remaining (Config.readDecrement len count) = 0 then .idle else s.mode }).emit
    (.packet (BitVec.ofNat 8 count :: got))

/-! WRCB (R104). -/

/-- The loop of R104, to completion: every payload byte is enqueued in order, every response discarded. -/
def runWrcb (len : Nat) : List Byte → State → Host.Outcome State Fault Refusal
  | [], s => .next (finishWrcb len s)
  | b :: todo, s => andThen (issue .u (.enq .tx b) s) (runWrcb len todo)

/-- One operation of the loop (R147). -/
def stepWrcb (len : Nat) (todo : List Byte) (s : State) : Host.Outcome State Fault Refusal :=
  match todo with
  | [] => .next (finishWrcb len s)
  | b :: rest => andThen (issue .u (.enq .tx b) s) fun t => .next { t with uTask := .wrcb rest len }

/-! RDCB (R106, R148). -/

/-- The loop of R106, to completion: `left` slots to fill, `got` the bytes stored so far, `good` the true count once a
DEQ has failed; the loop does not stop there. -/
def runRdcb (len : Nat) : Nat → List Byte → Option Nat → State → Host.Outcome State Fault Refusal
  | 0, got, good, s => .next (finishRdcb s.params.pkt len (good.getD (len - 1)) got s)
  | left + 1, got, good, s =>
    andThen (issue .u (.deq .rx) s) fun t =>
      runRdcb len left (got ++ [t.answeredData .u])
        (if t.answeredOk .u then good else some (good.getD got.length)) t

/-- One operation of the loop of R148, which stops at the first failure and leaves the rest of the packet
unspecified. -/
def stepRdcb (len left : Nat) (got : List Byte) (s : State) : Host.Outcome State Fault Refusal :=
  match left with
  | 0 => .next (finishRdcb s.params.pkt len (len - 1) got s)
  | n + 1 =>
    andThen (issue .u (.deq .rx) s) fun t =>
      if t.answeredOk .u then .next { t with uTask := .rdcb len n (got ++ [t.answeredData .u]) }
      else .next (finishRdcb t.params.pkt len got.length (got ++ t.drawBytes (n + 1)) { t with draws := t.draws + (n + 1) })

/-! The dispatcher (R100 to R109). -/

/-- CONFIGURE (R101): INITALL, whatever the selectors (U7); the mode stays or becomes Idle. -/
def configure (s : State) : Host.Outcome State Fault Refusal :=
  andThen (issue .u .initall s) fun t => .next { t with mode := .idle }

/-- A command that does not fit the active direction (R108): a failure code and no ring operation; the mode and the
counter afterwards are open (U14, N13; log entry 7). -/
def violation (s : State) : State :=
  ({ s with
      mode := Config.modeAfterViolation s.draws
      remaining := Config.counterAfterViolation s.draws
      draws := s.draws + 1 }).emit (.failure Config.failureCode)

/-- A serial request accepted as the continuation of its own direction's transfer (R100; log entry 22). -/
def continueTransfer (count : Nat) (s : State) : State :=
  { s with remaining := Config.counterOnContinuation s.remaining count }

/-- The write-callback begins: the payload is the `n` bytes after the prefix, `n` the prefix (R104). -/
def beginWrcb (packet : List Byte) (s : State) : Host.Outcome State Fault Refusal :=
  if packetOk s.params.pkt packet then
    match packet with
    | [] => .refused .malformedPacket
    | n :: rest => .next { s with uTask := .wrcb (rest.take n.toNat) packet.length }
  else .refused .malformedPacket

/-- The read-callback begins (R106). -/
def beginRdcb (len : Nat) (s : State) : Host.Outcome State Fault Refusal :=
  if readLengthOk s.params.pkt len then .next { s with uTask := .rdcb len (len - 1) [] }
  else .refused .badReadLength

/-- The dispatcher takes a request: the table of R100, with R102, R103, R108 and R109. A callback begins its sequence. -/
def beginRequest (q : UsbReq) (s : State) : Host.Outcome State Fault Refusal :=
  match q, s.mode with
  | .unknown, _ => .next s
  | .configure _ _ _, .idle => configure s
  | .configure _ _ _, .readSerial => .next (violation s)
  | .configure _ _ _, .writeSerial => .next (violation s)
  | .read n, .idle => .next (({ s with remaining := n, mode := .readSerial }).emit .readPath)
  | .read n, .readSerial => .next (continueTransfer n s)
  | .read _, .writeSerial => .next (violation s)
  | .write n, .idle => .next { s with remaining := n, mode := .writeSerial }
  | .write _, .readSerial => .next (violation s)
  | .write n, .writeSerial => .next (continueTransfer n s)
  | .writeCallback _, .idle => .refused .callbackWhileIdle
  | .writeCallback _, .readSerial => .next (violation s)
  | .writeCallback p, .writeSerial => beginWrcb p s
  | .readCallback _, .idle => .refused .callbackWhileIdle
  | .readCallback len, .readSerial => beginRdcb len s
  | .readCallback _, .writeSerial => .next (violation s)

/-- The dispatcher's sequence, to completion (R40). -/
def runUTask (s : State) : Host.Outcome State Fault Refusal :=
  match s.uTask with
  | .idle => .next s
  | .wrcb todo len => runWrcb len todo s
  | .rdcb len left got => runRdcb len left got none s

/-- One operation of the dispatcher's sequence (R147). -/
def stepUTask (s : State) : Host.Outcome State Fault Refusal :=
  match s.uTask with
  | .idle => .next s
  | .wrcb todo len => stepWrcb len todo s
  | .rdcb len left got => stepRdcb len left got s

/-- `COOPERATIVE`: one request, its sequence to completion (R40). -/
def serveRequest (q : UsbReq) (s : State) : Host.Outcome State Fault Refusal :=
  andThen (beginRequest q s) runUTask

/-! PUMP (R110). -/

/-- The transmit half: a byte that DEQ gives is handed to hardware transmit, any other status is a no-op. -/
def pumpTx (hw : PumpIn) (s : State) : Host.Outcome State Fault Refusal :=
  if hw.txReady then
    andThen (issue .s (.deq .tx) s) fun t =>
      .next (if t.answeredOk .s then t.emit (.hwTx (t.answeredData .s)) else t)
  else .next s

/-- The receive half: the receive register is read and its byte enqueued, the response discarded. -/
def pumpRx (hw : PumpIn) (s : State) : Host.Outcome State Fault Refusal :=
  if hw.rxReady then issue .s (.enq .rx hw.rxData) (s.emit (.hwRxRead hw.rxData)) else .next s

/-- PUMP, to completion (R110, R40). -/
def runPump (hw : PumpIn) (s : State) : Host.Outcome State Fault Refusal := andThen (pumpTx hw s) (pumpRx hw)

/-- `GRAY_CDC`: the dispatcher's next move, an operation of its sequence or its next request (R147). -/
def advanceU (s : State) : Host.Outcome State Fault Refusal :=
  match s.uTask with
  | .idle =>
    match s.usb with
    | [] => .next s
    | q :: rest => beginRequest q { s with usb := rest }
  | .wrcb _ _ => stepUTask s
  | .rdcb _ _ _ => stepUTask s

/-- `GRAY_CDC`: the pump's next move, one half of a pump step (R147). -/
def advanceS (s : State) : Host.Outcome State Fault Refusal :=
  match s.sTask with
  | .rxHalf hw => pumpRx hw { s with sTask := .idle }
  | .idle =>
    match s.pumps with
    | [] => .next s
    | hw :: rest => pumpTx hw { s with pumps := rest, sTask := .rxHalf hw }

end Sys2Proof.Machine
end

