-- ==== Sys2Proof/Machine/Schedule.lean ====
section
/-! DEFINITION. What happens next: a presented word, the rest of a tick, or the outside world's next move. -/

namespace Sys2Proof.Machine

/-- Execute a word presented on a port. The port is free again (`30_encoding.md` R50). -/
def executeWord (p : Port) (w : Opw) (s : State) : Host.Outcome State Fault Refusal :=
  match p with
  | .u => issue .u (decode w) { s with lineU := none }
  | .s => issue .s (decode w) { s with lineS := none }

/-- The reset event: the block and its environment as `State.reset` has them; the parameters, what the outside world does
next, the outputs given and the count of free values stay (`70_reset_and_hazards.md` R190; log entry 19). -/
def resetEvent (s : State) : State :=
  { State.reset with params := s.params, inputs := s.inputs, out := s.out, draws := s.draws }

/-- Something only `GRAY_CDC` has, or its refusal in `COOPERATIVE`. -/
def onlyGray (why : Refusal) (k : State → Host.Outcome State Fault Refusal) (s : State) :
    Host.Outcome State Fault Refusal :=
  match s.params.syncMode with
  | .cooperative => .refused why
  | .grayCdc => k s

/-- An agent of `GRAY_CDC` moves (`42_gray_cdc_option.md` R147). -/
def advanceAgent : Port → State → Host.Outcome State Fault Refusal
  | .u => advanceU
  | .s => advanceS

/-- What one input does. -/
def applyInput (e : Input) (s : State) : Host.Outcome State Fault Refusal :=
  match e with
  | .present u v => .next { s with lineU := u, lineS := v }
  | .tick requests hw => .next { s with usb := s.usb ++ requests, pumps := s.pumps ++ [hw] }
  | .advance p => onlyGray .overlap (advanceAgent p) s
  | .syncH r k => onlyGray .noSynchroniser (fun t => .next (syncHead r k t)) s
  | .syncT r k => onlyGray .noSynchroniser (fun t => .next (syncTail r k t)) s
  | .reset => .next (resetEvent s)

/-- The outside world's next move; with none left the machine rests (`70_reset_and_hazards.md` R209; log entry 2). -/
def takeInput (s : State) : Host.Outcome State Fault Refusal :=
  match s.inputs with
  | [] => .next s
  | e :: rest => applyInput e { s with inputs := rest }

/-- `COOPERATIVE`: the rest of the tick, USB servicing first and the pump after it, one whole sequence a step
(`20_memory.md` R40, R41; `41_client_sequences.md` R112); then the outside world. -/
def cooperativeStep (s : State) : Host.Outcome State Fault Refusal :=
  match s.usb with
  | q :: rest => serveRequest q { s with usb := rest }
  | [] =>
    match s.pumps with
    | hw :: rest => runPump hw { s with pumps := rest }
    | [] => takeInput s

/-- With no word presented: in `COOPERATIVE` the tick goes on, in `GRAY_CDC` the schedule decides (R147). -/
def agentStep (s : State) : Host.Outcome State Fault Refusal :=
  match s.params.syncMode with
  | .cooperative => cooperativeStep s
  | .grayCdc => takeInput s

/-- One step of a machine with legal parameters: port U's word first, then port S's (`20_memory.md` R44), then the
agents. -/
def legalStep (s : State) : Host.Outcome State Fault Refusal :=
  match s.lineU, s.lineS with
  | some w, _ => executeWord .u w s
  | none, some w => executeWord .s w s
  | none, none => agentStep s

/-- One step; illegal parameters are refused (`00_scope.md` R5, U12). -/
def machineStep (s : State) : Host.Outcome State Fault Refusal :=
  if s.params.legal then legalStep s else .refused .illegalParams

/-- The state with a row's bits presented on port U, the port the next step looks at first (log entries 2, 26). -/
def presentWord (w : Nat) (s : State) : State := { s with lineU := some (BitVec.ofNat 12 w) }

end Sys2Proof.Machine
end

