-- ==== Sys2Proof/Machine/Step.lean ====
section
/-! DEFINITION. The step of the machine, and the placing of a word where the next step takes it. -/

namespace Sys2Proof.Machine

/-- One step. -/
def step (s : State) : Host.Outcome State Fault Refusal := machineStep s

/-- The state whose very next step executes the word `w`: it is presented on port U (log entry 2). -/
def State.withFetchWord (s : State) (_nbits w : Nat) : State := presentWord w s

end Sys2Proof.Machine
end

