-- ==== Sys2Proof/Machine/Notation.lean ====
section
/-! DEFINITION. How a response is written, and when its data field is defined (`30_encoding.md` R57, R60). -/

namespace Sys2Proof.Machine

/-- Whether `RSP.DATA` is defined: after DEQ with OK, and after ISEMPTY and ISFULL with either status (R57). -/
def dataDefined (i : Instr) (st : Status) : Bool :=
  match i with
  | .nop => false
  | .init _ => false
  | .enq _ _ => false
  | .deq _ => decide (st = .ok)
  | .isempty _ => true
  | .isfull _ => true
  | .initall => false
  | .rsvd7 => false

/-- A status as it is written (R56, R60). -/
def Status.name : Status → List Char
  | .ok => ['O', 'K']
  | .full => ['F', 'U', 'L', 'L']
  | .empty => ['E', 'M', 'P', 'T', 'Y']
  | .uninit => ['U', 'N', 'I', 'N', 'I', 'T']

/-- A hex digit, in the capitals of the spec's examples. -/
def hexDigit (n : Nat) : Char := Char.ofNat (if n < 10 then '0'.toNat + n else 'A'.toNat + (n - 10))

/-- A byte as it is written, `0x` and two digits (R60). -/
def byteText (d : Byte) : List Char := ['(', '0', 'x', hexDigit (d.toNat / 16), hexDigit (d.toNat % 16), ')']

/-- A data field as it is written: a bit for the predicates, a byte else (R60). -/
def dataText (i : Instr) (d : Byte) : List Char :=
  match i with
  | .isempty _ => ['(', hexDigit d.toNat, ')']
  | .isfull _ => ['(', hexDigit d.toNat, ')']
  | .nop => byteText d
  | .init _ => byteText d
  | .enq _ _ => byteText d
  | .deq _ => byteText d
  | .initall => byteText d
  | .rsvd7 => byteText d

/-- The response to an operation as it is written: `STATUS`, or `STATUS(byte)` where the data field is defined (R60). -/
def responseText (i : Instr) (w : Rsp) : String :=
  String.ofList ((rspStatus w).name ++ if dataDefined i (rspStatus w) then dataText i (rspData w) else [])

end Sys2Proof.Machine
end

