-- ==== Sys2Proof/Safety.lean ====
section
/-! DEFINITION. What counts as a safe state and a safe run, in the terms the statements use. -/

namespace Sys2Proof.Machine

/-- A ring in a state the block can be in: pointers within their widths (`10_state.md` R17), the slot array canonical, an
uninitialised ring as reset left it (R13, R23), the seen pointers only where they exist, the count invariant of
`GRAY_CDC` (`42_gray_cdc_option.md` R145), and every resident slot written (`10_state.md` R24). -/
structure RingInv (p : Params) (r : RingSel) (q : Ring) : Prop where
  head_lt : q.head < capOf p r
  tail_lt : q.tail < capOf p r
  headSeen_lt : q.headSeen < capOf p r
  tailSeen_lt : q.tailSeen < capOf p r
  canonical : Memory.wf (capOf p r) q.data = true
  uninit : q.inited = false → q.head = 0 ∧ q.tail = 0 ∧ q.headSeen = 0 ∧ q.tailSeen = 0
  unseen : p.syncMode = .cooperative → q.headSeen = 0 ∧ q.tailSeen = 0
  counts : p.syncMode = .grayCdc →
    q.headLag (capOf p r) + q.seenOcc (capOf p r) + q.tailLag (capOf p r) ≤ capOf p r - 1
  resident : ∀ i < q.occ (capOf p r), (Memory.read q.data (ptrAdvance (capOf p r) q.head i)).isSome

/-- The clients' sequences: none in progress between the steps of `COOPERATIVE` (`20_memory.md` R40); a read-callback in
progress has its slots filled and to fill adding up to the packet (`42_gray_cdc_option.md` R148). -/
def TaskInv (s : State) : Prop :=
  match s.params.syncMode with
  | .cooperative => s.uTask = .idle ∧ s.sTask = .idle
  | .grayCdc =>
    match s.uTask with
    | .idle => True
    | .wrcb _ _ => True
    | .rdcb len left got => got.length + left + 1 = len

/-- The invariant of the machine. -/
structure Inv (s : State) : Prop where
  legal : s.params.legal = true
  tx : RingInv s.params .tx s.tx
  rx : RingInv s.params .rx s.rx
  tasks : TaskInv s

/-- The other port. -/
def otherPort : Port → Port
  | .u => .s
  | .s => .u

/-- The other ring. -/
def otherRing : RingSel → RingSel
  | .tx => .rx
  | .rx => .tx

/-- Everything but the two rings, the response of the issuing port and the count of free values is as it was: the frame
of every operation. -/
def SameAround (s t : State) : Prop :=
  t.params = s.params ∧ t.lineU = s.lineU ∧ t.lineS = s.lineS ∧ t.port = s.port ∧
  t.rsp (otherPort s.port) = s.rsp (otherPort s.port) ∧ t.mode = s.mode ∧ t.remaining = s.remaining ∧
  t.usb = s.usb ∧ t.pumps = s.pumps ∧ t.uTask = s.uTask ∧ t.sTask = s.sTask ∧ t.inputs = s.inputs ∧ t.out = s.out

/-- Both rings, every slot included, are as they were. -/
def SameRings (s t : State) : Prop := t.tx = s.tx ∧ t.rx = s.rx

/-- The issuing port was answered with a status, whatever the data field. -/
def Answered (s t : State) (st : Status) : Prop := ∃ d, t.rsp s.port = some (rspWord st d)

/-- The issuing port was answered with a status and a data field. -/
def AnsweredWith (s t : State) (st : Status) (d : Byte) : Prop := t.rsp s.port = some (rspWord st d)

/-- The resting state of `70_reset_and_hazards.md` R209. -/
def Quiescent (s : State) : Prop := s.mode = .idle ∧ s.tx.isEmpty = true ∧ s.rx.isEmpty = true

/-- The machine looks to the outside world next: no word is presented and, in `COOPERATIVE`, no tick is under way. -/
def AwaitsInput (s : State) : Prop :=
  s.lineU = none ∧ s.lineS = none ∧ (s.params.syncMode = .cooperative → s.usb = [] ∧ s.pumps = [])

/-! A ring's history: what its one producer offers, what its one consumer asks, and, in `GRAY_CDC`, how the
synchronisers move, each in its turn (`40_ring_ops.md` R86, `42_gray_cdc_option.md` R145). -/

/-- One event of a ring's history. -/
inductive RingEvent where
  | enq (b : Byte)
  | deq
  | syncHead (k : Nat)
  | syncTail (k : Nat)
  deriving DecidableEq, Repr

/-- A state, the bytes the ring has accepted since its INIT and the bytes it has delivered, oldest first. -/
structure History where
  state : State
  accepted : List Byte
  delivered : List Byte
  deriving DecidableEq, Repr

/-- The history after an operation that was answered OK or was not. -/
def History.note (h : History) (o : Host.Outcome State Fault Refusal) (p : Port) (acc : List Byte)
    (del : State → List Byte) : History :=
  match o with
  | .next t =>
    if t.answeredOk p then { state := t, accepted := h.accepted ++ acc, delivered := h.delivered ++ del t }
    else { h with state := t }
  | .fault _ => h
  | .refused _ => h

/-- One event on ring `r`: ENQ by its producer, DEQ by its consumer, a synchroniser step in `GRAY_CDC`. -/
def History.extend (r : RingSel) (h : History) : RingEvent → History
  | .enq b => h.note (issue (producer r) (.enq r b) h.state) (producer r) [b] fun _ => []
  | .deq => h.note (issue (consumer r) (.deq r) h.state) (consumer r) [] fun t => [t.answeredData (consumer r)]
  | .syncHead k =>
    match h.state.params.syncMode with
    | .cooperative => h
    | .grayCdc => { h with state := syncHead r k h.state }
  | .syncTail k =>
    match h.state.params.syncMode with
    | .cooperative => h
    | .grayCdc => { h with state := syncTail r k h.state }

/-- A whole history, from a state just after INIT. -/
def historyFrom (r : RingSel) (s : State) (es : List RingEvent) : History :=
  es.foldl (History.extend r) { state := s, accepted := [], delivered := [] }

/-! Whole runs and the fairness the model assumes of the synchronisers (`42_gray_cdc_option.md` R143,
`92_eei_decisions.md` D15). A step does not impose it, because it speaks of a whole run: it is a premise of every claim
that something eventually happens (log entry 17). -/

/-- The outside world adds inputs at the end of its list. -/
def State.feed (s : State) (es : List Input) : State := { s with inputs := s.inputs ++ es }

/-- An infinite run: before its `n`-th step the outside world adds `env n` (`41_client_sequences.md` R113). -/
def IsRun (env : Nat → List Input) (σ : Nat → State) : Prop := ∀ n, step ((σ n).feed (env n)) = .next (σ (n + 1))

/-- A register keeps the value `v` from the `n`-th state on. -/
def KeepsFrom (f : Nat → Nat) (n v : Nat) : Prop := ∀ m, n ≤ m → f m = v

/-- SYNC_H of ring `r` is weakly fair: if `head` keeps one value from some point on, `head_seen` eventually equals it
(R143). -/
def FairHead (r : RingSel) (σ : Nat → State) : Prop :=
  ∀ n v, KeepsFrom (fun m => ((σ m).ring r).head) n v → ∃ m, n ≤ m ∧ ((σ m).ring r).headSeen = v

/-- SYNC_T of ring `r` is weakly fair: likewise `tail` and `tail_seen` (R143). -/
def FairTail (r : RingSel) (σ : Nat → State) : Prop :=
  ∀ n v, KeepsFrom (fun m => ((σ m).ring r).tail) n v → ∃ m, n ≤ m ∧ ((σ m).ring r).tailSeen = v

/-- The fairness of R143, of a run of a `GRAY_CDC` machine: each of the four synchroniser agents is weakly fair. -/
def WeaklyFair (σ : Nat → State) : Prop := ∀ r, FairHead r σ ∧ FairTail r σ

/-- The next step takes the input `e`. -/
def Takes (s : State) (e : Input) : Prop := AwaitsInput s ∧ ∃ rest, s.inputs = e :: rest

/-- A schedule on which all four synchronisers go on moving: each is scheduled again and again with a choice that is no
stutter (R140, R142). -/
def KeepsMoving (env : Nat → List Input) (σ : Nat → State) : Prop :=
  ∀ r n, (∃ m k, n ≤ m ∧ Takes ((σ m).feed (env m)) (.syncH r (k + 1))) ∧
    ∃ m k, n ≤ m ∧ Takes ((σ m).feed (env m)) (.syncT r (k + 1))

/-! Words the statements share. -/

/-- The port an operation has a meaning on in `GRAY_CDC` (`42_gray_cdc_option.md` R135). -/
def PortFits (p : Port) : Instr → Bool
  | .nop => true
  | .init _ => decide (p = .u)
  | .enq r _ => decide (p = producer r)
  | .deq r => decide (p = consumer r)
  | .isempty _ => true
  | .isfull _ => true
  | .initall => decide (p = .u)
  | .rsvd7 => true

/-- The ring an operation names. -/
def namedRing : Instr → Option RingSel
  | .nop => none
  | .init r => some r
  | .enq r _ => some r
  | .deq r => some r
  | .isempty r => some r
  | .isfull r => some r
  | .initall => none
  | .rsvd7 => none

/-- A command that arrives in a transfer and does not match the active direction (`41_client_sequences.md` R108). -/
def MismatchedRequest : Mode → UsbReq → Bool
  | .idle, _ => false
  | _, .unknown => false
  | _, .configure _ _ _ => true
  | .readSerial, .read _ => false
  | .readSerial, .readCallback _ => false
  | .readSerial, .write _ => true
  | .readSerial, .writeCallback _ => true
  | .writeSerial, .write _ => false
  | .writeSerial, .writeCallback _ => false
  | .writeSerial, .read _ => true
  | .writeSerial, .readCallback _ => true

/-- What an operation does to a ring seen as a queue (`10_state.md` R20). -/
structure QueueEffect (r : RingSel) (i : Instr) (s t : State) : Prop where
  emptied : i = .init r ∨ i = .initall → (t.ring r).contents (t.cap r) = []
  appended : ∀ b, i = .enq r b → Answered s t .ok →
    (t.ring r).contents (t.cap r) = (s.ring r).contents (s.cap r) ++ [some b]
  refusedEnq : ∀ b, i = .enq r b → ¬ Answered s t .ok →
    (t.ring r).contents (t.cap r) = (s.ring r).contents (s.cap r)
  removed : i = .deq r → Answered s t .ok →
    ∃ v, AnsweredWith s t .ok v ∧ (s.ring r).contents (s.cap r) = some v :: (t.ring r).contents (t.cap r)
  refusedDeq : i = .deq r → ¬ Answered s t .ok →
    (t.ring r).contents (t.cap r) = (s.ring r).contents (s.cap r)
  untouched : i ≠ .init r → i ≠ .initall → (∀ b, i ≠ .enq r b) → i ≠ .deq r →
    (t.ring r).contents (t.cap r) = (s.ring r).contents (s.cap r)

end Sys2Proof.Machine
end

