-- ==== Sys2Proof/Certificates/Slice0/Obligations.lean ====
section
/-! DEFINITION. What is claimed of the model. Statements about a `GRAY_CDC` machine rest on the spec's own optional
profile (`42_gray_cdc_option.md`); all the others on rules of both. No statement rests on a free value. -/

open Sys2Proof Sys2Proof.Machine

/-! ## Encoding -/

/-- Words written out from `30_encoding.md` R64 decode to the operations it names. -/
def Obligations.CanonicalWordsDecode : Prop :=
  decode 0x000#12 = .nop ∧ decode 0x1FF#12 = .nop ∧ decode 0x200#12 = .init .tx ∧ decode 0x3A5#12 = .init .rx ∧
  decode 0x441#12 = .enq .tx 0x41#8 ∧ decode 0x5FF#12 = .enq .rx 0xFF#8 ∧ decode 0x6FF#12 = .deq .tx ∧
  decode 0x700#12 = .deq .rx ∧ decode 0x800#12 = .isempty .tx ∧ decode 0x900#12 = .isempty .rx ∧
  decode 0xA00#12 = .isfull .tx ∧ decode 0xB00#12 = .isfull .rx ∧ decode 0xDFF#12 = .initall ∧
  decode 0xE5A#12 = .rsvd7

/-- Every well-formed operation, encoded, decodes to itself, every operand kept. -/
def Obligations.EncodedInstrDecodesToItself : Prop :=
  ∀ i : Instr, i.wellFormed = true →
    decode (encode i) = i ∧ decodeTableWord 16 (encode i).toNat = some i

/-- A word is its operation's canonical word but for the bits that operation ignores (R52, R53). -/
def Obligations.IgnoredBitsCarryNothing : Prop :=
  ∀ w : Opw, encode (decode w) = w &&& (decode w).usedBits

/-- `30_encoding.md` R54: every word decodes, by its `OP` field alone. -/
def Obligations.DecodeIsTotalByOp : Prop :=
  ∀ w : Opw, decodeNat w.toNat = .ok (decode w) ∧ (decode w).op = opField w ∧
    ∀ v : Opw, v &&& 0xE00#12 = w &&& 0xE00#12 → (decode v).op = (decode w).op

/-- The response word's fields (`30_encoding.md` R55) and the codes of the statuses (R56). -/
def Obligations.ResponseWordHasItsFields : Prop :=
  (∀ (st : Status) (d : Byte), rspStatus (rspWord st d) = st ∧ rspData (rspWord st d) = d) ∧
  (∀ d : Byte, (rspWord .ok d).toNat = d.toNat ∧ (rspWord .full d).toNat = 0x100 + d.toNat ∧
    (rspWord .empty d).toNat = 0x200 + d.toNat ∧ (rspWord .uninit d).toNat = 0x300 + d.toNat)

/-! ## The step -/

/-- A step of a machine with legal parameters executes the word presented, on its port; that port U goes first in
`GRAY_CDC` too, and that `withFetchWord` presents on port U, are the model's choice (log entries 2, 18). -/
def Obligations.StepExecutesPresentedWord : Prop :=
  ∀ (s : State) (w : Opw) (i : Instr), s.params.legal = true → decode w = i →
    (s.lineU = some w → step s = exec i { s with lineU := none, port := .u }) ∧
    (s.lineU = none → s.lineS = some w → step s = exec i { s with lineS := none, port := .s }) ∧
    (∀ nbits, step (s.withFetchWord nbits w.toNat) = exec i { s with lineU := none, port := .u })

/-- `20_memory.md` R44: of two words presented at once port U's is executed first and port S's second. In `GRAY_CDC`,
where R45 replaces the one order, this is the model's choice (log entry 18). -/
def Obligations.PortUExecutesBeforePortS : Prop :=
  ∀ (s t : State) (w v : Opw), s.params.legal = true → s.lineU = some w → s.lineS = some v → step s = .next t →
    exec (decode w) { s with lineU := none, port := .u } = .next t ∧
    step t = exec (decode v) { t with lineS := none, port := .s }

/-- `00_scope.md` R5: a step refuses capacities that are no power of two or below 2, and takes all others. -/
def Obligations.CapacityIsPowerOfTwo : Prop :=
  (∀ (s : State) (r : RingSel), (∀ k, s.cap r ≠ 2 ^ (k + 1)) → step s = .refused .illegalParams) ∧
  (∀ (p : Params) (j k : Nat), p.capTx = 2 ^ (j + 1) → p.capRx = 2 ^ (k + 1) → 2 ≤ p.syncStages → p.legal = true)

/-- `00_scope.md` R6: no step changes a capacity, or any other parameter. -/
def Obligations.StepKeepsParameters : Prop := ∀ s t : State, step s = .next t → t.params = s.params

/-! ## Reset -/

/-- `10_state.md` R23: the state after reset, for what the rule gives a value; `70_reset_and_hazards.md` R190: from any
state the reset event puts every ring into that state and the dispatcher in Idle. -/
def Obligations.ResetLeavesTheStatedState : Prop :=
  (∀ r : RingSel, (State.reset.ring r).inited = false ∧ (State.reset.ring r).head = 0 ∧ (State.reset.ring r).tail = 0 ∧
    (State.reset.ring r).headSeen = 0 ∧ (State.reset.ring r).tailSeen = 0) ∧
  State.reset.mode = .idle ∧
  ∀ (s : State) (rest : List Input), s.params.legal = true → AwaitsInput s → s.inputs = .reset :: rest →
    ∃ t, step s = .next t ∧ t.mode = .idle ∧ t.params = s.params ∧
      ∀ r : RingSel, (t.ring r).inited = false ∧ (t.ring r).head = 0 ∧ (t.ring r).tail = 0 ∧
        (t.ring r).headSeen = 0 ∧ (t.ring r).tailSeen = 0

/-- `70_reset_and_hazards.md` R191: only reset clears `inited`, and an initialised ring never answers UNINIT. -/
def Obligations.OnlyResetUninitialises : Prop :=
  (∀ (s t : State) (r : RingSel), step s = .next t → (s.ring r).inited = true →
    (t.ring r).inited = true ∨ (AwaitsInput s ∧ ∃ rest, s.inputs = .reset :: rest)) ∧
  (∀ (s t : State) (r : RingSel) (b : Byte), (s.ring r).inited = true →
    (exec (.enq r b) s = .next t → ¬ Answered s t .uninit) ∧ (exec (.deq r) s = .next t → ¬ Answered s t .uninit))

/-! ## The invariant -/

/-- The invariant holds after reset, whatever the legal parameters. -/
def Obligations.ResetMeetsInvariant : Prop :=
  Inv State.reset ∧ ∀ p : Params, p.legal = true → Inv { State.reset with params := p }

/-- Every step keeps the invariant: pointers in range, the slot arrays canonical, resident slots written, the counts of
`GRAY_CDC`, no sequence left half done in `COOPERATIVE`. -/
def Obligations.StepKeepsInvariant : Prop := ∀ s t : State, Inv s → step s = .next t → Inv t

/-- From a state of the invariant no step faults: every slot access is in range (`20_memory.md` R34). -/
def Obligations.InvariantStepsNeverFault : Prop := ∀ (s : State) (f : Fault), Inv s → step s ≠ .fault f

/-- `10_state.md` R22: a ring is never both empty and full; `42_gray_cdc_option.md` R139: nor does any port see it so. -/
def Obligations.EmptyAndFullNeverBoth : Prop :=
  ∀ (s : State) (r : RingSel), s.params.legal = true →
    ¬ ((s.ring r).isEmpty = true ∧ (s.ring r).isFull (s.cap r) = true) ∧
    ¬ (s.seesEmpty r = true ∧ s.seesFull r = true)

/-! ## Operations, `COOPERATIVE` unless said otherwise -/

/-- `40_ring_ops.md` R71, R81: NOP and the reserved code answer OK and change nothing, in either profile. -/
def Obligations.NopAndReservedAnswerOk : Prop :=
  ∀ (s : State) (i : Instr), i = .nop ∨ i = .rsvd7 →
    ∃ t, exec i s = .next t ∧ Answered s t .ok ∧ SameRings s t ∧ SameAround s t

/-- `40_ring_ops.md` R72: INIT clears both pointers and sets `inited`; slots and the other ring stay. -/
def Obligations.InitEmptiesRing : Prop :=
  ∀ (s : State) (r : RingSel), s.params.legal = true → s.params.syncMode = .cooperative →
    ∃ t, exec (.init r) s = .next t ∧ Answered s t .ok ∧ SameAround s t ∧
      t.ring r = { s.ring r with head := 0, tail := 0, inited := true } ∧
      t.ring (otherRing r) = s.ring (otherRing r) ∧
      (t.ring r).contents (t.cap r) = [] ∧ (t.ring r).isEmpty = true ∧ (t.ring r).isFull (t.cap r) = false

/-- `40_ring_ops.md` R80: INITALL is INIT of both rings at once. -/
def Obligations.InitallEmptiesBothRings : Prop :=
  ∀ s : State, s.params.syncMode = .cooperative →
    ∃ t, exec .initall s = .next t ∧ Answered s t .ok ∧ SameAround s t ∧
      t.tx = { s.tx with head := 0, tail := 0, inited := true } ∧
      t.rx = { s.rx with head := 0, tail := 0, inited := true } ∧
      ∃ u v, exec (.init .tx) s = .next u ∧ exec (.init .rx) u = .next v ∧ SameRings t v

/-- `42_gray_cdc_option.md` R144: in `GRAY_CDC`, on port U, INIT and INITALL clear the seen pointers too. -/
def Obligations.InitInGrayClearsSeenPointers : Prop :=
  ∀ s : State, s.params.syncMode = .grayCdc → s.port = .u →
    (∀ r : RingSel, ∃ t, exec (.init r) s = .next t ∧ Answered s t .ok ∧ SameAround s t ∧
      t.ring r = { inited := true, head := 0, tail := 0, headSeen := 0, tailSeen := 0, data := (s.ring r).data } ∧
      t.ring (otherRing r) = s.ring (otherRing r)) ∧
    (∃ t, exec .initall s = .next t ∧ Answered s t .ok ∧ SameAround s t ∧
      ∀ r : RingSel, t.ring r =
        { inited := true, head := 0, tail := 0, headSeen := 0, tailSeen := 0, data := (s.ring r).data })

/-- `40_ring_ops.md` R73 with `60_exceptions.md` R164: when ENQ is refused, with which status, and that nothing
changes. -/
def Obligations.EnqRefusals : Prop :=
  ∀ (s : State) (r : RingSel) (b : Byte), s.params.syncMode = .cooperative →
    ((s.ring r).inited = false →
      ∃ t, exec (.enq r b) s = .next t ∧ Answered s t .uninit ∧ SameRings s t ∧ SameAround s t) ∧
    ((s.ring r).inited = true → ((s.ring r).tail + 1) &&& (s.cap r - 1) = (s.ring r).head →
      ∃ t, exec (.enq r b) s = .next t ∧ Answered s t .full ∧ SameRings s t ∧ SameAround s t)

/-- `40_ring_ops.md` R74: a successful ENQ stores its byte at `tail`, advances `tail`, and changes nothing else. -/
def Obligations.EnqStoresAtTail : Prop :=
  ∀ (s : State) (r : RingSel) (b : Byte), s.params.legal = true → s.params.syncMode = .cooperative →
    (s.ring r).head < s.cap r → (s.ring r).tail < s.cap r → (s.ring r).inited = true →
    ((s.ring r).tail + 1) &&& (s.cap r - 1) ≠ (s.ring r).head →
    ∃ t, exec (.enq r b) s = .next t ∧ Answered s t .ok ∧ SameAround s t ∧
      t.ring (otherRing r) = s.ring (otherRing r) ∧
      (t.ring r).head = (s.ring r).head ∧ (t.ring r).inited = true ∧
      (t.ring r).headSeen = (s.ring r).headSeen ∧ (t.ring r).tailSeen = (s.ring r).tailSeen ∧
      (t.ring r).tail = ((s.ring r).tail + 1) &&& (s.cap r - 1) ∧
      (∀ j, Memory.read (t.ring r).data j =
        if j = s.storeSlot r then some b else Memory.read (s.ring r).data j) ∧
      s.storeSlot r = (s.ring r).tail ∧
      (t.ring r).contents (t.cap r) = (s.ring r).contents (s.cap r) ++ [some b] ∧
      (t.ring r).occ (t.cap r) = (s.ring r).occ (s.cap r) + 1

/-- `40_ring_ops.md` R75 with `60_exceptions.md` R164: when DEQ is refused, with which status, and that nothing
changes. -/
def Obligations.DeqRefusals : Prop :=
  ∀ (s : State) (r : RingSel), s.params.syncMode = .cooperative →
    ((s.ring r).inited = false →
      ∃ t, exec (.deq r) s = .next t ∧ Answered s t .uninit ∧ SameRings s t ∧ SameAround s t) ∧
    ((s.ring r).inited = true → (s.ring r).head = (s.ring r).tail →
      ∃ t, exec (.deq r) s = .next t ∧ Answered s t .empty ∧ SameRings s t ∧ SameAround s t)

/-- `40_ring_ops.md` R76: a successful DEQ answers the byte at `head`, advances `head`, and changes nothing else. -/
def Obligations.DeqReturnsByteAtHead : Prop :=
  ∀ (s : State) (r : RingSel), s.params.legal = true → s.params.syncMode = .cooperative →
    (s.ring r).head < s.cap r → (s.ring r).tail < s.cap r → (s.ring r).inited = true →
    (s.ring r).head ≠ (s.ring r).tail →
    ∃ t, exec (.deq r) s = .next t ∧ Answered s t .ok ∧
      (∀ v, Memory.read (s.ring r).data (s.ring r).head = some v → AnsweredWith s t .ok v) ∧ SameAround s t ∧
      t.ring (otherRing r) = s.ring (otherRing r) ∧
      t.ring r = { s.ring r with head := ((s.ring r).head + 1) &&& (s.cap r - 1) } ∧
      (s.ring r).contents (s.cap r) =
        Memory.read (s.ring r).data (s.ring r).head :: (t.ring r).contents (t.cap r)

/-- `40_ring_ops.md` R77: ISEMPTY answers whether the pointers are equal, with the ring's status, and changes nothing; an
uninitialised ring answers UNINIT(1); the answer is 1 exactly where DEQ would be refused; after OK(0) the next DEQ
succeeds. -/
def Obligations.IsemptyAnswersPredicate : Prop :=
  ∀ (s : State) (r : RingSel), s.params.syncMode = .cooperative →
    ∃ t, exec (.isempty r) s = .next t ∧ SameRings s t ∧ SameAround s t ∧
      AnsweredWith s t (if (s.ring r).inited then .ok else .uninit)
        (if (s.ring r).head = (s.ring r).tail then 1#8 else 0#8) ∧
      (RingInv s.params r (s.ring r) → (s.ring r).inited = false → AnsweredWith s t .uninit 1#8) ∧
      (RingInv s.params r (s.ring r) → ∀ u, exec (.deq r) s = .next u →
        ((∃ st, AnsweredWith s t st 1#8) ↔ Answered s u .empty ∨ Answered s u .uninit)) ∧
      ((s.ring r).head < s.cap r → AnsweredWith s t .ok 0#8 → ∃ u, exec (.deq r) t = .next u ∧ Answered t u .ok)

/-- `40_ring_ops.md` R78: ISFULL answers whether one more byte would close the ring, with the ring's status, and changes
nothing; an uninitialised ring answers UNINIT(0); the answer is 1 exactly when `CAP - 1` bytes are resident, and never
together with ISEMPTY's; after OK(0) the next ENQ succeeds. -/
def Obligations.IsfullAnswersPredicate : Prop :=
  ∀ (s : State) (r : RingSel), s.params.legal = true → s.params.syncMode = .cooperative →
    ∃ t, exec (.isfull r) s = .next t ∧ SameRings s t ∧ SameAround s t ∧
      AnsweredWith s t (if (s.ring r).inited then .ok else .uninit)
        (if ((s.ring r).tail + 1) &&& (s.cap r - 1) = (s.ring r).head then 1#8 else 0#8) ∧
      (RingInv s.params r (s.ring r) → (s.ring r).inited = false → AnsweredWith s t .uninit 0#8) ∧
      (RingInv s.params r (s.ring r) →
        ((∃ st, AnsweredWith s t st 1#8) ↔ (s.ring r).occ (s.cap r) = s.cap r - 1)) ∧
      (∀ u st st', exec (.isempty r) s = .next u → AnsweredWith s t st 1#8 → ¬ AnsweredWith s u st' 1#8) ∧
      ((s.ring r).tail < s.cap r → AnsweredWith s t .ok 0#8 →
        ∀ b, ∃ u, exec (.enq r b) t = .next u ∧ Answered t u .ok)

/-! ## Operations in `GRAY_CDC` -/

/-- `42_gray_cdc_option.md` R137: ENQ on the producer port, the Full test on `head_seen`. -/
def Obligations.EnqInGrayTestsHeadSeen : Prop :=
  ∀ (s : State) (r : RingSel) (b : Byte), s.params.syncMode = .grayCdc → s.port = producer r →
    ((s.ring r).inited = false →
      ∃ t, exec (.enq r b) s = .next t ∧ Answered s t .uninit ∧ SameRings s t ∧ SameAround s t) ∧
    ((s.ring r).inited = true → ((s.ring r).tail + 1) &&& (s.cap r - 1) = (s.ring r).headSeen →
      ∃ t, exec (.enq r b) s = .next t ∧ Answered s t .full ∧ SameRings s t ∧ SameAround s t) ∧
    ((s.ring r).inited = true → ((s.ring r).tail + 1) &&& (s.cap r - 1) ≠ (s.ring r).headSeen →
      (s.ring r).tail < s.cap r →
      ∃ t m, exec (.enq r b) s = .next t ∧ Answered s t .ok ∧ SameAround s t ∧
        t.ring (otherRing r) = s.ring (otherRing r) ∧
        t.ring r = { s.ring r with tail := ((s.ring r).tail + 1) &&& (s.cap r - 1), data := m } ∧
        ∀ j, Memory.read m j = if j = (s.ring r).tail then some b else Memory.read (s.ring r).data j)

/-- `42_gray_cdc_option.md` R138: DEQ on the consumer port, the Empty test on `tail_seen`. -/
def Obligations.DeqInGrayTestsTailSeen : Prop :=
  ∀ (s : State) (r : RingSel), s.params.syncMode = .grayCdc → s.port = consumer r →
    ((s.ring r).inited = false →
      ∃ t, exec (.deq r) s = .next t ∧ Answered s t .uninit ∧ SameRings s t ∧ SameAround s t) ∧
    ((s.ring r).inited = true → (s.ring r).head = (s.ring r).tailSeen →
      ∃ t, exec (.deq r) s = .next t ∧ Answered s t .empty ∧ SameRings s t ∧ SameAround s t) ∧
    ((s.ring r).inited = true → (s.ring r).head ≠ (s.ring r).tailSeen → (s.ring r).head < s.cap r →
      ∃ t, exec (.deq r) s = .next t ∧ Answered s t .ok ∧
        (∀ v, Memory.read (s.ring r).data (s.ring r).head = some v → AnsweredWith s t .ok v) ∧ SameAround s t ∧
        t.ring (otherRing r) = s.ring (otherRing r) ∧
        t.ring r = { s.ring r with head := ((s.ring r).head + 1) &&& (s.cap r - 1) })

/-- `42_gray_cdc_option.md` R136, R139: the predicates answer by the issuing port's view. -/
def Obligations.PredicatesInGrayAnswerByView : Prop :=
  ∀ (s : State) (r : RingSel), s.params.syncMode = .grayCdc →
    ∃ t u, exec (.isempty r) s = .next t ∧ exec (.isfull r) s = .next u ∧
      SameRings s t ∧ SameAround s t ∧ SameRings s u ∧ SameAround s u ∧
      (s.port = producer r →
        AnsweredWith s t (if (s.ring r).inited then .ok else .uninit)
          (if (s.ring r).headSeen = (s.ring r).tail then 1#8 else 0#8) ∧
        AnsweredWith s u (if (s.ring r).inited then .ok else .uninit)
          (if ((s.ring r).tail + 1) &&& (s.cap r - 1) = (s.ring r).headSeen then 1#8 else 0#8)) ∧
      (s.port = consumer r →
        AnsweredWith s t (if (s.ring r).inited then .ok else .uninit)
          (if (s.ring r).head = (s.ring r).tailSeen then 1#8 else 0#8) ∧
        AnsweredWith s u (if (s.ring r).inited then .ok else .uninit)
          (if ((s.ring r).tailSeen + 1) &&& (s.cap r - 1) = (s.ring r).head then 1#8 else 0#8))

/-- `42_gray_cdc_option.md` R135: in `GRAY_CDC` an operation on a port that may not issue it is refused, and no other
is. -/
def Obligations.WrongPortRefusedInGray : Prop :=
  ∀ (s : State) (i : Instr), s.params.syncMode = .grayCdc →
    (exec i s = .refused .wrongPort ↔ PortFits s.port i = false)

/-! ## Rules over all operations -/

/-- `60_exceptions.md` R172: in `COOPERATIVE` an operation has its ordinary meaning on either port; in `GRAY_CDC` the
binding is enforced by refusal. That the two responses agree where their data is unspecified too is the model's choice
(log entry 3). -/
def Obligations.PortsPolicedOnlyInGray : Prop :=
  (∀ (s t : State) (i : Instr) (p p' : Port), s.params.syncMode = .cooperative →
    exec i { s with port := p } = .next t →
    ∃ t', exec i { s with port := p' } = .next t' ∧ SameRings t t' ∧ t'.rsp p' = t.rsp p) ∧
  (∀ (s : State) (i : Instr), s.params.syncMode = .grayCdc → PortFits s.port i = false →
    exec i s = .refused .wrongPort)

/-- `60_exceptions.md` R165: an operation with a status other than OK changes no state of the block, in either
profile. -/
def Obligations.RefusedOperationChangesNothing : Prop :=
  ∀ (s t : State) (i : Instr) (st : Status) (d : Byte), exec i s = .next t → AnsweredWith s t st d → st ≠ .ok →
    SameRings s t ∧ SameAround s t

/-- `40_ring_ops.md` R70: in a state of the invariant every operation a port may issue is over at once, with one response
and no fault or refusal, and changes nothing around the rings. -/
def Obligations.EveryOperationCompletes : Prop :=
  ∀ (s : State) (i : Instr), Inv s → s.params.syncMode = .cooperative ∨ PortFits s.port i = true →
    ∃ t w, exec i s = .next t ∧ t.rsp s.port = some w ∧ SameAround s t ∧ Inv t

/-- `10_state.md` R21: an operation that names a ring neither changes the other ring nor depends on it. That the two
responses agree where their data is unspecified too is the model's choice (log entry 3). -/
def Obligations.OperationKeepsToItsRing : Prop :=
  ∀ (s t : State) (i : Instr) (r : RingSel), namedRing i = some r → exec i s = .next t →
    t.ring (otherRing r) = s.ring (otherRing r) ∧
    ∀ q : Ring, ∃ t', exec i (s.setRing (otherRing r) q) = .next t' ∧ t'.ring r = t.ring r ∧
      t'.rsp s.port = t.rsp s.port

/-- `10_state.md` R16, `20_memory.md` R31, R35: a slot changes only by a successful ENQ, and only the slot at `tail`. -/
def Obligations.SlotsChangeOnlyByEnqAtTail : Prop :=
  ∀ (s t : State) (i : Instr) (r : RingSel) (j : Nat), exec i s = .next t →
    Memory.read (t.ring r).data j ≠ Memory.read (s.ring r).data j →
    ∃ b, i = .enq r b ∧ Answered s t .ok ∧ j = (s.ring r).tail ∧ Memory.read (t.ring r).data j = some b

/-- `10_state.md` R11, R12: which operations change a pointer, and to what. -/
def Obligations.PointersChangeOnlyAsNamed : Prop :=
  ∀ (s t : State) (i : Instr) (r : RingSel), exec i s = .next t →
    ((t.ring r).head ≠ (s.ring r).head →
      (i = .deq r ∧ Answered s t .ok ∧ (t.ring r).head = ((s.ring r).head + 1) &&& (s.cap r - 1)) ∨
      ((i = .init r ∨ i = .initall) ∧ (t.ring r).head = 0)) ∧
    ((t.ring r).tail ≠ (s.ring r).tail →
      ((∃ b, i = .enq r b) ∧ Answered s t .ok ∧ (t.ring r).tail = ((s.ring r).tail + 1) &&& (s.cap r - 1)) ∨
      ((i = .init r ∨ i = .initall) ∧ (t.ring r).tail = 0))

/-- `20_memory.md` R43: what the slots hold never decides a status or a pointer. -/
def Obligations.PayloadDoesNotSteerControl : Prop :=
  ∀ (s t : State) (i : Instr) (m n : Memory), exec i s = .next t →
    ∃ t' st d d', exec i { s with tx := { s.tx with data := m }, rx := { s.rx with data := n } } = .next t' ∧
      AnsweredWith s t st d ∧ AnsweredWith s t' st d' ∧
      ∀ r : RingSel, (t'.ring r).inited = (t.ring r).inited ∧ (t'.ring r).head = (t.ring r).head ∧
        (t'.ring r).tail = (t.ring r).tail ∧ (t'.ring r).headSeen = (t.ring r).headSeen ∧
        (t'.ring r).tailSeen = (t.ring r).tailSeen

/-- `40_ring_ops.md` R85: the increment is addition modulo the capacity. -/
def Obligations.PointerIncrementIsModular : Prop :=
  ∀ (s : State) (r : RingSel) (x : Nat), s.params.legal = true → x < s.cap r →
    ptrNext (s.cap r) x = (x + 1) &&& (s.cap r - 1) ∧ ptrNext (s.cap r) x = (x + 1) % s.cap r ∧
    (x < s.cap r - 1 → ptrNext (s.cap r) x = x + 1) ∧ ptrNext (s.cap r) (s.cap r - 1) = 0

/-- `40_ring_ops.md` R87, first part: on a ring neither empty nor full ENQ and DEQ commute. -/
def Obligations.EnqAndDeqCommute : Prop :=
  ∀ (s : State) (r : RingSel) (b : Byte), s.params.legal = true → s.params.syncMode = .cooperative →
    (s.ring r).head < s.cap r → (s.ring r).tail < s.cap r → (s.ring r).inited = true →
    (s.ring r).isEmpty = false → (s.ring r).isFull (s.cap r) = false →
    ∃ t u t' u', exec (.enq r b) s = .next t ∧ exec (.deq r) t = .next u ∧
      exec (.deq r) s = .next t' ∧ exec (.enq r b) t' = .next u' ∧ SameRings u u' ∧
      Answered s t .ok ∧ Answered t' u' .ok ∧ Answered t u .ok ∧ Answered s t' .ok ∧
      ∀ v, Memory.read (s.ring r).data (s.ring r).head = some v → AnsweredWith t u .ok v ∧ AnsweredWith s t' .ok v

/-- `10_state.md` R20: a ring is a bounded queue of `CAP - 1` bytes, in either profile. -/
def Obligations.RingRefinesBoundedQueue : Prop :=
  ∀ (s : State) (r : RingSel), Inv s →
    ((s.ring r).contents (s.cap r)).length = (s.ring r).occ (s.cap r) ∧ (s.ring r).occ (s.cap r) ≤ s.cap r - 1 ∧
    ((s.ring r).isEmpty = true ↔ (s.ring r).occ (s.cap r) = 0) ∧
    ((s.ring r).isFull (s.cap r) = true ↔ (s.ring r).occ (s.cap r) = s.cap r - 1) ∧
    ∀ (i : Instr) (t : State), exec i s = .next t → QueueEffect r i s t

/-- `40_ring_ops.md` R86, and for `GRAY_CDC` `42_gray_cdc_option.md` R145: from INIT on, whatever its producer and
consumer do and however the synchronisers move, a ring delivers the bytes it accepted, in order, and its pointers count
them. -/
def Obligations.HistoryIsFirstInFirstOut : Prop :=
  ∀ (s₀ s : State) (r : RingSel) (es : List RingEvent), Inv s₀ → exec (.init r) s₀ = .next s →
    ∃ pending, (historyFrom r s es).accepted = (historyFrom r s es).delivered ++ pending ∧
      ((historyFrom r s es).state.ring r).contents (s.cap r) = pending.map some ∧
      pending.length ≤ s.cap r - 1 ∧
      ((historyFrom r s es).state.ring r).tail = (historyFrom r s es).accepted.length % s.cap r ∧
      ((historyFrom r s es).state.ring r).head = (historyFrom r s es).delivered.length % s.cap r

/-! ## The pointer crossing of `GRAY_CDC` -/

/-- `42_gray_cdc_option.md` R133: the code's inverse, bit by bit and as a whole. -/
def Obligations.GrayCodeHasInverse : Prop :=
  ∀ (w : Nat) (x g : BitVec w), ungray (gray x) = x ∧
    (0 < w → (ungray g).getLsbD (w - 1) = g.getLsbD (w - 1)) ∧
    (∀ i, i + 1 < w → (ungray g).getLsbD i = ((ungray g).getLsbD (i + 1) ^^ g.getLsbD i))

/-- `42_gray_cdc_option.md` R134: the codes of a pointer and of its increment differ in exactly one bit, the wrap
included. -/
def Obligations.GrayStepChangesOneBit : Prop :=
  ∀ (s : State) (r : RingSel) (x : Nat), s.params.legal = true → x < s.cap r →
    ∃ i < widthOf s.params r,
      gray (BitVec.ofNat (widthOf s.params r) x) ^^^
        gray (BitVec.ofNat (widthOf s.params r) ((x + 1) &&& (s.cap r - 1))) = BitVec.twoPow (widthOf s.params r) i

/-- `42_gray_cdc_option.md` R140: SYNC_H moves `head_seen` forward by the choice, never past `head`; R142: SYNC_T moves
`tail_seen` forward by the choice, never past `tail`; in both the choice of the whole lag catches up. -/
def Obligations.SynchronisersMoveWithinLag : Prop :=
  (∀ (s : State) (r : RingSel) (k : Nat) (rest : List Input), Inv s → s.params.syncMode = .grayCdc → AwaitsInput s →
    s.inputs = .syncH r k :: rest → k ≤ ptrDist (s.cap r) (s.ring r).headSeen (s.ring r).head →
    ∃ t, step s = .next t ∧ t.ring (otherRing r) = s.ring (otherRing r) ∧
      t.ring r = { s.ring r with headSeen := ((s.ring r).headSeen + k) &&& (s.cap r - 1) } ∧
      (t.ring r).headLag (t.cap r) = (s.ring r).headLag (s.cap r) - k ∧
      (k = (s.ring r).headLag (s.cap r) → (t.ring r).headSeen = (s.ring r).head)) ∧
  (∀ (s : State) (r : RingSel) (k : Nat) (rest : List Input), Inv s → s.params.syncMode = .grayCdc → AwaitsInput s →
    s.inputs = .syncT r k :: rest → k ≤ ptrDist (s.cap r) (s.ring r).tailSeen (s.ring r).tail →
    ∃ t, step s = .next t ∧ t.ring (otherRing r) = s.ring (otherRing r) ∧
      t.ring r = { s.ring r with tailSeen := ((s.ring r).tailSeen + k) &&& (s.cap r - 1) } ∧
      (t.ring r).tailLag (t.cap r) = (s.ring r).tailLag (s.cap r) - k ∧
      (k = (s.ring r).tailLag (s.cap r) → (t.ring r).tailSeen = (s.ring r).tail))

/-- `42_gray_cdc_option.md` R143, in runs of `GRAY_CDC`: with fair synchronisers a producer does not see Full for ever
once `head` rests short of full, nor a consumer Empty once `tail` rests short of empty; and every schedule on which the
synchronisers go on moving is fair. That such a schedule is what fairness asks of the inputs is the model's rendering
(log entries 16, 17). -/
def Obligations.FairSynchronisersCatchUp : Prop :=
  ∀ (env : Nat → List Input) (σ : Nat → State), IsRun env σ → Inv (σ 0) → (σ 0).params.syncMode = .grayCdc →
    (KeepsMoving env σ → WeaklyFair σ) ∧
    (WeaklyFair σ → ∀ (r : RingSel) (n h : Nat), KeepsFrom (fun m => ((σ m).ring r).head) n h →
      ∃ m, n ≤ m ∧ ∀ m', m ≤ m' → ((σ m').ring r).headSeen = h ∧
        (((σ m').ring r).isFull ((σ m').cap r) = false →
          ({ σ m' with port := producer r } : State).seesFull r = false)) ∧
    (WeaklyFair σ → ∀ (r : RingSel) (n t : Nat), KeepsFrom (fun m => ((σ m).ring r).tail) n t →
      ∃ m, n ≤ m ∧ ∀ m', m ≤ m' → ((σ m').ring r).tailSeen = t ∧
        (((σ m').ring r).isEmpty = false → ({ σ m' with port := consumer r } : State).seesEmpty r = false))

/-- `42_gray_cdc_option.md` R145: the counts `a`, `b`, `c` of an initialised ring, and how each operation moves them. -/
def Obligations.GrayCountsMoveAsStated : Prop :=
  ∀ (s : State) (r : RingSel), Inv s → s.params.syncMode = .grayCdc → (s.ring r).inited = true →
    (s.ring r).headLag (s.cap r) + (s.ring r).seenOcc (s.cap r) + (s.ring r).tailLag (s.cap r) ≤ s.cap r - 1 ∧
    (s.ring r).occ (s.cap r) = (s.ring r).seenOcc (s.cap r) + (s.ring r).tailLag (s.cap r) ∧
    ptrDist (s.cap r) (s.ring r).headSeen (s.ring r).tail =
      (s.ring r).headLag (s.cap r) + (s.ring r).seenOcc (s.cap r) + (s.ring r).tailLag (s.cap r) ∧
    (∀ (b : Byte) (t : State), exec (.enq r b) s = .next t → Answered s t .ok →
      (s.ring r).headLag (s.cap r) + (s.ring r).seenOcc (s.cap r) + (s.ring r).tailLag (s.cap r) ≤ s.cap r - 2 ∧
      (t.ring r).headLag (t.cap r) = (s.ring r).headLag (s.cap r) ∧
      (t.ring r).seenOcc (t.cap r) = (s.ring r).seenOcc (s.cap r) ∧
      (t.ring r).tailLag (t.cap r) = (s.ring r).tailLag (s.cap r) + 1) ∧
    (∀ t : State, exec (.deq r) s = .next t → Answered s t .ok →
      (t.ring r).headLag (t.cap r) = (s.ring r).headLag (s.cap r) + 1 ∧
      (s.ring r).seenOcc (s.cap r) = (t.ring r).seenOcc (t.cap r) + 1 ∧
      (t.ring r).tailLag (t.cap r) = (s.ring r).tailLag (s.cap r)) ∧
    (∀ (i : Instr) (t : State), i = .init r ∨ i = .initall → exec i s = .next t →
      (t.ring r).headLag (t.cap r) = 0 ∧ (t.ring r).seenOcc (t.cap r) = 0 ∧ (t.ring r).tailLag (t.cap r) = 0)

/-- `42_gray_cdc_option.md` R146: the answers err on one side only, and every OK of ENQ and DEQ has the effect and the
response `COOPERATIVE` would have given; that the unspecified data of an ENQ's response agrees too is the model's choice
(log entry 3). -/
def Obligations.GrayErrsTowardRefusal : Prop :=
  ∀ (s : State) (r : RingSel), Inv s → s.params.syncMode = .grayCdc →
    (s.port = producer r → s.seesFull r = false → (s.ring r).isFull (s.cap r) = false) ∧
    (s.port = consumer r → s.seesEmpty r = false → (s.ring r).isEmpty = false) ∧
    ∀ (i : Instr) (t : State), (i = .deq r ∨ ∃ b, i = .enq r b) → exec i s = .next t → Answered s t .ok →
      ∃ t', exec i { s with params := { s.params with syncMode := .cooperative } } = .next t' ∧
        SameRings t t' ∧ t'.rsp s.port = t.rsp s.port

/-! ## The clients, `COOPERATIVE` unless said otherwise -/

/-- `41_client_sequences.md` R112, `20_memory.md` R40, R41: within a tick the requests are served one a step, each with
its whole sequence, and the pump only after the last. -/
def Obligations.TickServesRequestsThenPumps : Prop :=
  ∀ s t : State, s.params.legal = true → s.params.syncMode = .cooperative → s.lineU = none → s.lineS = none →
    step s = .next t →
    (∀ q rest, s.usb = q :: rest →
      serveRequest q { s with usb := rest } = .next t ∧ t.usb = rest ∧ t.pumps = s.pumps ∧ t.inputs = s.inputs) ∧
    (∀ hw rest, s.usb = [] → s.pumps = hw :: rest →
      runPump hw { s with pumps := rest } = .next t ∧ t.usb = [] ∧ t.pumps = rest ∧ t.inputs = s.inputs) ∧
    (∀ qs hw rest, s.usb = [] → s.pumps = [] → s.inputs = .tick qs hw :: rest →
      t = { s with usb := qs, pumps := [hw], inputs := rest })

/-- `41_client_sequences.md` R101: CONFIGURE re-initialises both rings whatever its selectors (the reading of U7). That the
echo is no output is the model's choice (log entry 20). -/
def Obligations.ConfigureReinitialisesRings : Prop :=
  ∀ (s : State) (a b c : Byte) (rest : List UsbReq), s.params.legal = true → s.params.syncMode = .cooperative →
    s.lineU = none → s.lineS = none → s.mode = .idle → s.uTask = .idle → s.usb = .configure a b c :: rest →
    ∃ t, step s = .next t ∧ t.mode = .idle ∧ t.usb = rest ∧ t.out = s.out ∧ t.remaining = s.remaining ∧
      t.tx = { s.tx with head := 0, tail := 0, inited := true } ∧
      t.rx = { s.rx with head := 0, tail := 0, inited := true } ∧
      ∀ r : RingSel, (t.ring r).contents (t.cap r) = []

/-- `41_client_sequences.md` R102, R103: a serial request in Idle captures its count, changes the mode, and issues no
ring operation. -/
def Obligations.SerialRequestStartsTransfer : Prop :=
  ∀ (s : State) (n : Nat) (rest : List UsbReq), s.params.legal = true → s.params.syncMode = .cooperative →
    s.lineU = none → s.lineS = none → s.mode = .idle → s.uTask = .idle →
    (s.usb = .read n :: rest → ∃ t, step s = .next t ∧ SameRings s t ∧ t.mode = .readSerial ∧ t.remaining = n ∧
      t.out = .readPath :: s.out) ∧
    (s.usb = .write n :: rest → ∃ t, step s = .next t ∧ SameRings s t ∧ t.mode = .writeSerial ∧ t.remaining = n ∧
      t.out = s.out)

/-- `41_client_sequences.md` R108, R109: in a transfer a command of another kind touches no ring and is answered with
the failure code; an unknown request changes nothing in any mode. What counts as a mismatch, and that an unknown code is
ignored in a transfer too, are the model's readings (log entries 22, 23). -/
def Obligations.UnfitRequestTouchesNoRing : Prop :=
  ∀ (s : State) (q : UsbReq) (rest : List UsbReq), s.params.legal = true → s.params.syncMode = .cooperative →
    s.lineU = none → s.lineS = none → s.uTask = .idle → s.usb = q :: rest →
    (MismatchedRequest s.mode q = true →
      ∃ t, step s = .next t ∧ SameRings s t ∧ t.usb = rest ∧ t.out = .failure Config.failureCode :: s.out) ∧
    (q = .unknown → step s = .next { s with usb := rest })

/-- `41_client_sequences.md` R104: a write-callback stores exactly the payload bytes that fit, in order, and nothing on
an uninitialised ring; a packet that breaks the framing is refused, a too long one by the model's choice (log entry
14). That for a `PKT` above 8 a prefix may exceed the 7 of R104 and U8, up to `PKT - 1`, is the model's choice too (log
entry 33). -/
def Obligations.WriteCallbackStoresWhatFits : Prop :=
  ∀ (s : State) (n : Byte) (bytes : List Byte) (rest : List UsbReq), Inv s → s.params.syncMode = .cooperative →
    s.lineU = none → s.lineS = none → s.mode = .writeSerial → s.usb = .writeCallback (n :: bytes) :: rest →
    (n.toNat ≤ bytes.length → bytes.length + 1 ≤ s.params.pkt →
      ∃ t, step s = .next t ∧ t.rx = s.rx ∧ t.usb = rest ∧
        (s.tx.inited = false → t.tx = s.tx) ∧
        (s.tx.inited = true → t.tx.contents (t.cap .tx) = s.tx.contents (s.cap .tx) ++
          (((bytes.take n.toNat).take (s.cap .tx - 1 - s.tx.occ (s.cap .tx))).map some))) ∧
    (bytes.length < n.toNat ∨ s.params.pkt < bytes.length + 1 → step s = .refused .malformedPacket)

/-- `41_client_sequences.md` R105: the counter goes down by the packet's raw length, prefix and padding included; at zero
the transfer is complete. That a packet shorter than `PKT` does not end it is the model's reading (log entry 21); a
prefix above 7, which only a `PKT` above 8 allows, is the model's choice (log entry 33). -/
def Obligations.WriteCallbackCountsRawBytes : Prop :=
  ∀ (s : State) (n : Byte) (bytes : List Byte) (rest : List UsbReq), Inv s → s.params.syncMode = .cooperative →
    s.lineU = none → s.lineS = none → s.mode = .writeSerial → s.usb = .writeCallback (n :: bytes) :: rest →
    n.toNat ≤ bytes.length → bytes.length + 1 ≤ s.params.pkt → bytes.length + 1 ≤ s.remaining →
    ∃ t, step s = .next t ∧ t.remaining = s.remaining - (bytes.length + 1) ∧
      (t.remaining = 0 → t.mode = .idle ∧ t.out = .complete :: s.out) ∧
      (t.remaining ≠ 0 → t.mode = .writeSerial ∧ t.out = s.out)

/-- `41_client_sequences.md` R106: a read-callback returns a packet of the size asked for, its count and as many good
bytes as the ring held or the packet takes. The count is taken modulo 256 (log entry 31: only `PKT` above 256 shows
it); that the size stands when the ring runs dry is log entry 32. -/
def Obligations.ReadCallbackReturnsWhatIsHeld : Prop :=
  ∀ (s : State) (len : Nat) (rest : List UsbReq), Inv s → s.params.syncMode = .cooperative →
    s.lineU = none → s.lineS = none → s.mode = .readSerial → s.usb = .readCallback len :: rest →
    1 ≤ len → len ≤ s.params.pkt →
    ∃ t k bytes, step s = .next t ∧ t.tx = s.tx ∧ t.usb = rest ∧
      t.out = .packet (BitVec.ofNat 8 k :: bytes) :: s.out ∧ bytes.length = len - 1 ∧
      k = (if s.rx.inited then min (len - 1) (s.rx.occ (s.cap .rx)) else 0) ∧
      (bytes.take k).map some = (s.rx.contents (s.cap .rx)).take k ∧
      t.rx.contents (t.cap .rx) = (s.rx.contents (s.cap .rx)).drop k ∧
      (s.rx.inited = false → t.rx = s.rx)

/-- `41_client_sequences.md` R107: a packet shorter than the full size, or a counter that reaches zero, ends a read
transfer; that nothing else does, a ring that runs dry included, is the model's choice (log entry 32). -/
def Obligations.ShortPacketEndsReadTransfer : Prop :=
  ∀ (s : State) (len : Nat) (rest : List UsbReq), Inv s → s.params.syncMode = .cooperative →
    s.lineU = none → s.lineS = none → s.mode = .readSerial → s.usb = .readCallback len :: rest →
    1 ≤ len → len ≤ s.params.pkt →
    ∃ t, step s = .next t ∧ (t.mode = .idle ↔ len < s.params.pkt ∨ t.remaining = 0) ∧
      (t.mode = .idle ∨ t.mode = .readSerial)

/-- `41_client_sequences.md` R110: a pump step moves at most one byte each way; the receive register is read even if its
byte is then lost. -/
def Obligations.PumpMovesOneByteEachWay : Prop :=
  ∀ (s : State) (hw : PumpIn) (rest : List PumpIn), Inv s → s.params.syncMode = .cooperative →
    s.lineU = none → s.lineS = none → s.usb = [] → s.pumps = hw :: rest →
    ∃ t sent, step s = .next t ∧
      t.out = (if hw.rxReady then [.hwRxRead hw.rxData] else []) ++ sent ++ s.out ∧
      (hw.txReady = true ∧ s.tx.inited = true ∧ s.tx.isEmpty = false →
        ∃ v, sent = [.hwTx v] ∧ s.tx.contents (s.cap .tx) = some v :: t.tx.contents (t.cap .tx)) ∧
      (¬ (hw.txReady = true ∧ s.tx.inited = true ∧ s.tx.isEmpty = false) → sent = [] ∧ t.tx = s.tx) ∧
      (hw.rxReady = true ∧ s.rx.inited = true ∧ s.rx.isFull (s.cap .rx) = false →
        t.rx.contents (t.cap .rx) = s.rx.contents (s.cap .rx) ++ [some hw.rxData]) ∧
      (¬ (hw.rxReady = true ∧ s.rx.inited = true ∧ s.rx.isFull (s.cap .rx) = false) → t.rx = s.rx)

/-- `41_client_sequences.md` R116: framing and unframing a payload gives it back. On the write side TxRing is taken empty,
so that the next bytes to leave are the payload's; the read side starts with RxRing holding exactly the payload. The
count byte is taken modulo 256 (log entry 31: only `PKT` above 256 shows it). On the write side a payload above R116's 7
bytes, which only a `PKT` above 8 allows, is the model's choice (log entry 33). -/
def Obligations.FramingRoundTrip : Prop :=
  (∀ (s : State) (n : Byte) (payload padding : List Byte) (rest : List UsbReq), Inv s →
    s.params.syncMode = .cooperative → s.lineU = none → s.lineS = none → s.mode = .writeSerial →
    s.usb = .writeCallback (n :: (payload ++ padding)) :: rest → n.toNat = payload.length →
    (payload ++ padding).length + 1 ≤ s.params.pkt → s.tx.inited = true → s.tx.isEmpty = true →
    payload.length ≤ s.cap .tx - 1 →
    ∃ t, step s = .next t ∧
      (historyFrom .tx t (List.replicate payload.length .deq)).delivered = payload) ∧
  (∀ (s : State) (len : Nat) (payload : List Byte) (rest : List UsbReq), Inv s →
    s.params.syncMode = .cooperative → s.lineU = none → s.lineS = none → s.mode = .readSerial →
    s.usb = .readCallback len :: rest → 1 ≤ len → len ≤ s.params.pkt → s.rx.inited = true →
    s.rx.contents (s.cap .rx) = payload.map some → payload.length ≤ len - 1 →
    ∃ t padding, step s = .next t ∧
      t.out = .packet (BitVec.ofNat 8 payload.length :: (payload ++ padding)) :: s.out)

/-- `42_gray_cdc_option.md` R147, R148, `41_client_sequences.md` R107: in `GRAY_CDC` the read-callback stops at its first
failure and counts the good bytes before it; on a success it goes on; with no slot left its packet counts them all. The
count is taken modulo 256 (log entry 31: only `PKT` above 256 shows it); the size stands when the ring runs dry (log
entry 32). -/
def Obligations.ReadCallbackInGrayStopsAtFailure : Prop :=
  ∀ (s : State) (len : Nat) (got : List Byte) (rest : List Input), Inv s → s.params.syncMode = .grayCdc →
    AwaitsInput s → s.inputs = .advance .u :: rest →
    (∀ left, s.uTask = .rdcb len (left + 1) got → s.rx.inited = false ∨ s.rx.head = s.rx.tailSeen →
      ∃ t bytes, step s = .next t ∧ t.uTask = .idle ∧ SameRings s t ∧ bytes.length = left + 1 ∧
        t.out = .packet (BitVec.ofNat 8 got.length :: (got ++ bytes)) :: s.out ∧
        (len < s.params.pkt ∨ t.remaining = 0 → t.mode = .idle)) ∧
    (∀ left, s.uTask = .rdcb len (left + 1) got → s.rx.inited = true → s.rx.head ≠ s.rx.tailSeen →
      ∃ t v, step s = .next t ∧ Memory.read s.rx.data s.rx.head = some v ∧ t.uTask = .rdcb len left (got ++ [v]) ∧
        t.out = s.out ∧ t.tx = s.tx ∧ t.rx = { s.rx with head := (s.rx.head + 1) &&& (s.cap .rx - 1) }) ∧
    (s.uTask = .rdcb len 0 got →
      ∃ t, step s = .next t ∧ t.uTask = .idle ∧ SameRings s t ∧ got.length = len - 1 ∧
        t.out = .packet (BitVec.ofNat 8 (len - 1) :: got) :: s.out ∧
        (len < s.params.pkt ∨ t.remaining = 0 → t.mode = .idle))

/-- `42_gray_cdc_option.md` R147, R148: in `GRAY_CDC` the dispatcher begins its callbacks and the write-callback enqueues
one byte a move (R104), and ends by R105; a tick's two pump halves are two moves (R110). That a write packet shorter than
`PKT` leaves the mode is the model's reading (log entry 21); that moves are inputs and that requests and pump steps queue
per agent (log entries 16, 28), and that a `PKT` above 8 allows a prefix above 7 (log entry 33), are its choices. -/
def Obligations.WriteCallbackAndPumpMoveInGray : Prop :=
  ∀ (s : State) (rest : List Input), Inv s → s.params.syncMode = .grayCdc → AwaitsInput s →
    (s.inputs = .advance .u :: rest → s.uTask = .idle → ∀ qs,
      (∀ len, s.usb = .readCallback len :: qs → s.mode = .readSerial → 1 ≤ len → len ≤ s.params.pkt →
        step s = .next { s with inputs := rest, usb := qs, uTask := .rdcb len (len - 1) [] }) ∧
      (∀ n bytes, s.usb = .writeCallback (n :: bytes) :: qs → s.mode = .writeSerial → n.toNat ≤ bytes.length →
        bytes.length + 1 ≤ s.params.pkt →
        step s = .next
          { s with inputs := rest, usb := qs, uTask := .wrcb (bytes.take n.toNat) (bytes.length + 1) })) ∧
    (∀ b todo len, s.inputs = .advance .u :: rest → s.uTask = .wrcb (b :: todo) len →
      ∃ t, step s = .next t ∧ t.uTask = .wrcb todo len ∧ t.rx = s.rx ∧ t.mode = s.mode ∧ t.remaining = s.remaining ∧
        t.out = s.out ∧
        (s.tx.inited = true ∧ (s.tx.tail + 1) &&& (s.cap .tx - 1) ≠ s.tx.headSeen →
          t.tx = { s.tx with
            tail := (s.tx.tail + 1) &&& (s.cap .tx - 1), data := Memory.write s.tx.data s.tx.tail b }) ∧
        (¬ (s.tx.inited = true ∧ (s.tx.tail + 1) &&& (s.cap .tx - 1) ≠ s.tx.headSeen) → t.tx = s.tx)) ∧
    (∀ len, s.inputs = .advance .u :: rest → s.uTask = .wrcb [] len → len ≤ s.remaining →
      ∃ t, step s = .next t ∧ t.uTask = .idle ∧ SameRings s t ∧ t.remaining = s.remaining - len ∧
        (t.remaining = 0 → t.mode = .idle ∧ t.out = .complete :: s.out) ∧
        (t.remaining ≠ 0 → t.mode = s.mode ∧ t.out = s.out)) ∧
    (∀ hw ps, s.inputs = .advance .s :: rest → s.sTask = .idle → s.pumps = hw :: ps →
      ∃ t, step s = .next t ∧ t.sTask = .rxHalf hw ∧ t.pumps = ps ∧ t.rx = s.rx ∧
        (hw.txReady = true ∧ s.tx.inited = true ∧ s.tx.head ≠ s.tx.tailSeen →
          ∃ v, Memory.read s.tx.data s.tx.head = some v ∧ t.out = .hwTx v :: s.out ∧
            t.tx = { s.tx with head := (s.tx.head + 1) &&& (s.cap .tx - 1) }) ∧
        (¬ (hw.txReady = true ∧ s.tx.inited = true ∧ s.tx.head ≠ s.tx.tailSeen) → t.tx = s.tx ∧ t.out = s.out)) ∧
    (∀ hw, s.inputs = .advance .s :: rest → s.sTask = .rxHalf hw →
      ∃ t, step s = .next t ∧ t.sTask = .idle ∧ t.tx = s.tx ∧
        t.out = (if hw.rxReady then [.hwRxRead hw.rxData] else []) ++ s.out ∧
        (hw.rxReady = true ∧ s.rx.inited = true ∧ (s.rx.tail + 1) &&& (s.cap .rx - 1) ≠ s.rx.headSeen →
          t.rx = { s.rx with
            tail := (s.rx.tail + 1) &&& (s.cap .rx - 1), data := Memory.write s.rx.data s.rx.tail hw.rxData }) ∧
        (¬ (hw.rxReady = true ∧ s.rx.inited = true ∧ (s.rx.tail + 1) &&& (s.cap .rx - 1) ≠ s.rx.headSeen) →
          t.rx = s.rx))

/-- `70_reset_and_hazards.md` R200, `10_state.md` R10: in `COOPERATIVE` there is no partial sequence to schedule and no
synchroniser to move; refusing such inputs is the model's choice (log entry 16). -/
def Obligations.CooperativeRefusesOverlap : Prop :=
  ∀ (s : State) (rest : List Input), s.params.legal = true → s.params.syncMode = .cooperative → AwaitsInput s →
    (∀ p, s.inputs = .advance p :: rest → step s = .refused .overlap) ∧
    (∀ r k, s.inputs = .syncH r k :: rest ∨ s.inputs = .syncT r k :: rest → step s = .refused .noSynchroniser)

/-- `70_reset_and_hazards.md` R209: the machine never halts; with nothing presented, no tick under way and no input it
rests as it is, which is the model's choice (log entry 2). -/
def Obligations.MachineRestsWithoutInput : Prop :=
  ∀ s : State, s.params.legal = true → AwaitsInput s → s.inputs = [] → step s = .next s
end

