-- ==== Sys2Proof/Laws/State.lean ====
section
/-! SUPPORT. One lemma per field per update of the state, so that no proof unfolds a record update. -/

namespace Sys2Proof.Machine

variable (s : State)

/-! `setRing`: every field but the rings. -/

@[simp] theorem setRing_params (r : RingSel) (q : Ring) : (s.setRing r q).params = s.params := by cases r <;> rfl
@[simp] theorem setRing_lineU (r : RingSel) (q : Ring) : (s.setRing r q).lineU = s.lineU := by cases r <;> rfl
@[simp] theorem setRing_lineS (r : RingSel) (q : Ring) : (s.setRing r q).lineS = s.lineS := by cases r <;> rfl
@[simp] theorem setRing_rspU (r : RingSel) (q : Ring) : (s.setRing r q).rspU = s.rspU := by cases r <;> rfl
@[simp] theorem setRing_rspS (r : RingSel) (q : Ring) : (s.setRing r q).rspS = s.rspS := by cases r <;> rfl
@[simp] theorem setRing_port (r : RingSel) (q : Ring) : (s.setRing r q).port = s.port := by cases r <;> rfl
@[simp] theorem setRing_mode (r : RingSel) (q : Ring) : (s.setRing r q).mode = s.mode := by cases r <;> rfl
@[simp] theorem setRing_remaining (r : RingSel) (q : Ring) : (s.setRing r q).remaining = s.remaining := by cases r <;> rfl
@[simp] theorem setRing_usb (r : RingSel) (q : Ring) : (s.setRing r q).usb = s.usb := by cases r <;> rfl
@[simp] theorem setRing_pumps (r : RingSel) (q : Ring) : (s.setRing r q).pumps = s.pumps := by cases r <;> rfl
@[simp] theorem setRing_uTask (r : RingSel) (q : Ring) : (s.setRing r q).uTask = s.uTask := by cases r <;> rfl
@[simp] theorem setRing_sTask (r : RingSel) (q : Ring) : (s.setRing r q).sTask = s.sTask := by cases r <;> rfl
@[simp] theorem setRing_inputs (r : RingSel) (q : Ring) : (s.setRing r q).inputs = s.inputs := by cases r <;> rfl
@[simp] theorem setRing_out (r : RingSel) (q : Ring) : (s.setRing r q).out = s.out := by cases r <;> rfl
@[simp] theorem setRing_draws (r : RingSel) (q : Ring) : (s.setRing r q).draws = s.draws := by cases r <;> rfl
@[simp] theorem setRing_tx_tx (q : Ring) : (s.setRing .tx q).tx = q := rfl
@[simp] theorem setRing_tx_rx (q : Ring) : (s.setRing .tx q).rx = s.rx := rfl
@[simp] theorem setRing_rx_rx (q : Ring) : (s.setRing .rx q).rx = q := rfl
@[simp] theorem setRing_rx_tx (q : Ring) : (s.setRing .rx q).tx = s.tx := rfl
@[simp] theorem setRing_ring_self (r : RingSel) (q : Ring) : (s.setRing r q).ring r = q := by cases r <;> rfl
@[simp] theorem setRing_ring_other (r : RingSel) (q : Ring) : (s.setRing r q).ring (otherRing r) = s.ring (otherRing r) := by
  cases r <;> rfl
theorem setRing_ring (r r' : RingSel) (q : Ring) : (s.setRing r q).ring r' = if r' = r then q else s.ring r' := by
  cases r <;> cases r' <;> rfl
@[simp] theorem setRing_rsp (r : RingSel) (q : Ring) (p : Port) : (s.setRing r q).rsp p = s.rsp p := by
  cases r <;> cases p <;> rfl
@[simp] theorem setRing_cap (r r' : RingSel) (q : Ring) : (s.setRing r q).cap r' = s.cap r' := by simp [State.cap]
@[simp] theorem setRing_setRing (r : RingSel) (q q' : Ring) : (s.setRing r q).setRing r q' = s.setRing r q' := by cases r <;> rfl
@[simp] theorem setRing_same (r : RingSel) : s.setRing r (s.ring r) = s := by cases r <;> rfl
@[simp] theorem ring_tx : s.ring .tx = s.tx := rfl
@[simp] theorem ring_rx : s.ring .rx = s.rx := rfl

/-! `setRsp`: every field but the responses. -/

@[simp] theorem setRsp_params (p : Port) (w : Rsp) : (s.setRsp p w).params = s.params := by cases p <;> rfl
@[simp] theorem setRsp_tx (p : Port) (w : Rsp) : (s.setRsp p w).tx = s.tx := by cases p <;> rfl
@[simp] theorem setRsp_rx (p : Port) (w : Rsp) : (s.setRsp p w).rx = s.rx := by cases p <;> rfl
@[simp] theorem setRsp_lineU (p : Port) (w : Rsp) : (s.setRsp p w).lineU = s.lineU := by cases p <;> rfl
@[simp] theorem setRsp_lineS (p : Port) (w : Rsp) : (s.setRsp p w).lineS = s.lineS := by cases p <;> rfl
@[simp] theorem setRsp_port (p : Port) (w : Rsp) : (s.setRsp p w).port = s.port := by cases p <;> rfl
@[simp] theorem setRsp_mode (p : Port) (w : Rsp) : (s.setRsp p w).mode = s.mode := by cases p <;> rfl
@[simp] theorem setRsp_remaining (p : Port) (w : Rsp) : (s.setRsp p w).remaining = s.remaining := by cases p <;> rfl
@[simp] theorem setRsp_usb (p : Port) (w : Rsp) : (s.setRsp p w).usb = s.usb := by cases p <;> rfl
@[simp] theorem setRsp_pumps (p : Port) (w : Rsp) : (s.setRsp p w).pumps = s.pumps := by cases p <;> rfl
@[simp] theorem setRsp_uTask (p : Port) (w : Rsp) : (s.setRsp p w).uTask = s.uTask := by cases p <;> rfl
@[simp] theorem setRsp_sTask (p : Port) (w : Rsp) : (s.setRsp p w).sTask = s.sTask := by cases p <;> rfl
@[simp] theorem setRsp_inputs (p : Port) (w : Rsp) : (s.setRsp p w).inputs = s.inputs := by cases p <;> rfl
@[simp] theorem setRsp_out (p : Port) (w : Rsp) : (s.setRsp p w).out = s.out := by cases p <;> rfl
@[simp] theorem setRsp_draws (p : Port) (w : Rsp) : (s.setRsp p w).draws = s.draws := by cases p <;> rfl
@[simp] theorem setRsp_ring (p : Port) (w : Rsp) (r : RingSel) : (s.setRsp p w).ring r = s.ring r := by
  cases p <;> cases r <;> rfl
@[simp] theorem setRsp_cap (p : Port) (w : Rsp) (r : RingSel) : (s.setRsp p w).cap r = s.cap r := by simp [State.cap]
@[simp] theorem setRsp_rsp_self (p : Port) (w : Rsp) : (s.setRsp p w).rsp p = some w := by cases p <;> rfl
@[simp] theorem setRsp_rsp_other (p : Port) (w : Rsp) : (s.setRsp p w).rsp (otherPort p) = s.rsp (otherPort p) := by
  cases p <;> rfl

/-! `answer`. -/

@[simp] theorem answer_params (st : Status) (d : Byte) : (s.answer st d).params = s.params := by simp [State.answer]
@[simp] theorem answer_tx (st : Status) (d : Byte) : (s.answer st d).tx = s.tx := by simp [State.answer]
@[simp] theorem answer_rx (st : Status) (d : Byte) : (s.answer st d).rx = s.rx := by simp [State.answer]
@[simp] theorem answer_lineU (st : Status) (d : Byte) : (s.answer st d).lineU = s.lineU := by simp [State.answer]
@[simp] theorem answer_lineS (st : Status) (d : Byte) : (s.answer st d).lineS = s.lineS := by simp [State.answer]
@[simp] theorem answer_port (st : Status) (d : Byte) : (s.answer st d).port = s.port := by simp [State.answer]
@[simp] theorem answer_mode (st : Status) (d : Byte) : (s.answer st d).mode = s.mode := by simp [State.answer]
@[simp] theorem answer_remaining (st : Status) (d : Byte) : (s.answer st d).remaining = s.remaining := by simp [State.answer]
@[simp] theorem answer_usb (st : Status) (d : Byte) : (s.answer st d).usb = s.usb := by simp [State.answer]
@[simp] theorem answer_pumps (st : Status) (d : Byte) : (s.answer st d).pumps = s.pumps := by simp [State.answer]
@[simp] theorem answer_uTask (st : Status) (d : Byte) : (s.answer st d).uTask = s.uTask := by simp [State.answer]
@[simp] theorem answer_sTask (st : Status) (d : Byte) : (s.answer st d).sTask = s.sTask := by simp [State.answer]
@[simp] theorem answer_inputs (st : Status) (d : Byte) : (s.answer st d).inputs = s.inputs := by simp [State.answer]
@[simp] theorem answer_out (st : Status) (d : Byte) : (s.answer st d).out = s.out := by simp [State.answer]
@[simp] theorem answer_draws (st : Status) (d : Byte) : (s.answer st d).draws = s.draws := by simp [State.answer]
@[simp] theorem answer_ring (st : Status) (d : Byte) (r : RingSel) : (s.answer st d).ring r = s.ring r := by
  cases r <;> simp [State.ring]
@[simp] theorem answer_cap (st : Status) (d : Byte) (r : RingSel) : (s.answer st d).cap r = s.cap r := by simp [State.cap]
@[simp] theorem answer_rsp_self (st : Status) (d : Byte) : (s.answer st d).rsp s.port = some (rspWord st d) := by
  cases h : s.port <;> simp [State.answer, State.rsp, State.setRsp, h]
@[simp] theorem answer_rsp_other (st : Status) (d : Byte) : (s.answer st d).rsp (otherPort s.port) = s.rsp (otherPort s.port) := by
  cases h : s.port <;> simp [State.answer, State.rsp, State.setRsp, otherPort, h]

/-! `answerDraw`. -/

@[simp] theorem answerDraw_params (st : Status) : (s.answerDraw st).params = s.params := by simp [State.answer, State.answerDraw]
@[simp] theorem answerDraw_tx (st : Status) : (s.answerDraw st).tx = s.tx := by simp [State.answer, State.answerDraw]
@[simp] theorem answerDraw_rx (st : Status) : (s.answerDraw st).rx = s.rx := by simp [State.answer, State.answerDraw]
@[simp] theorem answerDraw_lineU (st : Status) : (s.answerDraw st).lineU = s.lineU := by simp [State.answer, State.answerDraw]
@[simp] theorem answerDraw_lineS (st : Status) : (s.answerDraw st).lineS = s.lineS := by simp [State.answer, State.answerDraw]
@[simp] theorem answerDraw_port (st : Status) : (s.answerDraw st).port = s.port := by simp [State.answer, State.answerDraw]
@[simp] theorem answerDraw_mode (st : Status) : (s.answerDraw st).mode = s.mode := by simp [State.answer, State.answerDraw]
@[simp] theorem answerDraw_remaining (st : Status) : (s.answerDraw st).remaining = s.remaining := by simp [State.answer, State.answerDraw]
@[simp] theorem answerDraw_usb (st : Status) : (s.answerDraw st).usb = s.usb := by simp [State.answer, State.answerDraw]
@[simp] theorem answerDraw_pumps (st : Status) : (s.answerDraw st).pumps = s.pumps := by simp [State.answer, State.answerDraw]
@[simp] theorem answerDraw_uTask (st : Status) : (s.answerDraw st).uTask = s.uTask := by simp [State.answer, State.answerDraw]
@[simp] theorem answerDraw_sTask (st : Status) : (s.answerDraw st).sTask = s.sTask := by simp [State.answer, State.answerDraw]
@[simp] theorem answerDraw_inputs (st : Status) : (s.answerDraw st).inputs = s.inputs := by simp [State.answer, State.answerDraw]
@[simp] theorem answerDraw_out (st : Status) : (s.answerDraw st).out = s.out := by simp [State.answer, State.answerDraw]
@[simp] theorem answerDraw_draws (st : Status) : (s.answerDraw st).draws = s.draws + 1 := rfl
@[simp] theorem answerDraw_ring (st : Status) (r : RingSel) : (s.answerDraw st).ring r = s.ring r := by
  cases r <;> simp [State.ring]
@[simp] theorem answerDraw_cap (st : Status) (r : RingSel) : (s.answerDraw st).cap r = s.cap r := by simp [State.cap]
@[simp] theorem answerDraw_rsp_self (st : Status) : (s.answerDraw st).rsp s.port = some (rspWord st (Config.freeByte s.draws)) := by
  cases h : s.port <;> simp [State.answer, State.answerDraw, State.rsp, State.setRsp, h]
@[simp] theorem answerDraw_rsp_other (st : Status) : (s.answerDraw st).rsp (otherPort s.port) = s.rsp (otherPort s.port) := by
  cases h : s.port <;> simp [State.answer, State.answerDraw, State.rsp, State.setRsp, otherPort, h]

/-! `emit`. -/

@[simp] theorem emit_params (e : OutEvent) : (s.emit e).params = s.params := rfl
@[simp] theorem emit_tx (e : OutEvent) : (s.emit e).tx = s.tx := rfl
@[simp] theorem emit_rx (e : OutEvent) : (s.emit e).rx = s.rx := rfl
@[simp] theorem emit_lineU (e : OutEvent) : (s.emit e).lineU = s.lineU := rfl
@[simp] theorem emit_lineS (e : OutEvent) : (s.emit e).lineS = s.lineS := rfl
@[simp] theorem emit_rspU (e : OutEvent) : (s.emit e).rspU = s.rspU := rfl
@[simp] theorem emit_rspS (e : OutEvent) : (s.emit e).rspS = s.rspS := rfl
@[simp] theorem emit_port (e : OutEvent) : (s.emit e).port = s.port := rfl
@[simp] theorem emit_mode (e : OutEvent) : (s.emit e).mode = s.mode := rfl
@[simp] theorem emit_remaining (e : OutEvent) : (s.emit e).remaining = s.remaining := rfl
@[simp] theorem emit_usb (e : OutEvent) : (s.emit e).usb = s.usb := rfl
@[simp] theorem emit_pumps (e : OutEvent) : (s.emit e).pumps = s.pumps := rfl
@[simp] theorem emit_uTask (e : OutEvent) : (s.emit e).uTask = s.uTask := rfl
@[simp] theorem emit_sTask (e : OutEvent) : (s.emit e).sTask = s.sTask := rfl
@[simp] theorem emit_inputs (e : OutEvent) : (s.emit e).inputs = s.inputs := rfl
@[simp] theorem emit_out (e : OutEvent) : (s.emit e).out = e :: s.out := rfl
@[simp] theorem emit_draws (e : OutEvent) : (s.emit e).draws = s.draws := rfl
@[simp] theorem emit_ring (e : OutEvent) (r : RingSel) : (s.emit e).ring r = s.ring r := by cases r <;> rfl
@[simp] theorem emit_rsp (e : OutEvent) (p : Port) : (s.emit e).rsp p = s.rsp p := by cases p <;> rfl

end Sys2Proof.Machine
end

