-- ==== Sys2Proof/Laws/Ops.lean ====
section
/-! SUPPORT. What the shared operations over pointers, slots and responses do, once each. -/

namespace Sys2Proof.Machine

/-! Capacities. -/

theorem legalCap_iff {cap : Nat} : legalCap cap = true ↔ 2 ≤ cap ∧ 2 ^ cap.log2 = cap := by
  simp [legalCap]

theorem cap_legal {p : Params} (h : p.legal = true) (r : RingSel) : legalCap (capOf p r) = true := by
  simp only [Params.legal, Bool.and_eq_true] at h
  cases r
  · exact h.1.1
  · exact h.1.2

theorem two_le_cap {cap : Nat} (h : legalCap cap = true) : 2 ≤ cap := (legalCap_iff.mp h).1

theorem and_mask {cap : Nat} (h : legalCap cap = true) (x : Nat) : x &&& (cap - 1) = x % cap := by
  have hc := (legalCap_iff.mp h).2
  rw [← hc, Nat.and_two_pow_sub_one_eq_mod]

theorem mod_below_two {cap x : Nat} (h : x < 2 * cap) : x % cap = if x < cap then x else x - cap := by
  split
  · exact Nat.mod_eq_of_lt ‹_›
  · rw [Nat.mod_eq_sub_mod (by omega), Nat.mod_eq_of_lt (by omega)]

/-! Pointers: the masked arithmetic as plain arithmetic (R85). -/

theorem ptrNext_eq {cap x : Nat} (h : legalCap cap = true) (hx : x < cap) :
    ptrNext cap x = if x + 1 = cap then 0 else x + 1 := by
  have := two_le_cap h
  rw [ptrNext, and_mask h, mod_below_two (by omega)]
  split <;> split <;> omega

theorem ptrNext_lt {cap : Nat} (h : legalCap cap = true) (x : Nat) : ptrNext cap x < cap := by
  rw [ptrNext, and_mask h]
  exact Nat.mod_lt _ (by have := two_le_cap h; omega)

theorem ptrAdvance_lt {cap : Nat} (h : legalCap cap = true) (x k : Nat) : ptrAdvance cap x k < cap := by
  rw [ptrAdvance, and_mask h]
  exact Nat.mod_lt _ (by have := two_le_cap h; omega)

theorem ptrAdvance_eq {cap x k : Nat} (h : legalCap cap = true) (hx : x < cap) (hk : k ≤ cap) :
    ptrAdvance cap x k = if x + k < cap then x + k else x + k - cap := by
  rw [ptrAdvance, and_mask h, mod_below_two (by omega)]

theorem ptrDist_eq {cap lo hi : Nat} (h : legalCap cap = true) (hl : lo < cap) (hh : hi < cap) :
    ptrDist cap lo hi = if lo ≤ hi then hi - lo else hi + cap - lo := by
  rw [ptrDist, and_mask h, mod_below_two (by omega)]
  split <;> split <;> omega

theorem ptrDist_lt {cap : Nat} (h : legalCap cap = true) (lo hi : Nat) : ptrDist cap lo hi < cap := by
  rw [ptrDist, and_mask h]
  exact Nat.mod_lt _ (by have := two_le_cap h; omega)

/-! The slot array: what is written is read, nothing else changes, and the form stays canonical. -/

theorem read_write_same (m : Memory) (i : Nat) (v : Byte) : Memory.read (Memory.write m i v) i = some v := by
  induction m with
  | nil => simp [Memory.write, Memory.read]
  | cons c m ih =>
    obtain ⟨a, b⟩ := c
    simp only [Memory.write]
    split
    · simp [Memory.read]
    · split
      · simp [Memory.read]
      · rw [Memory.read, if_neg (by omega), ih]

theorem read_write_other (m : Memory) {i j : Nat} (v : Byte) (h : j ≠ i) :
    Memory.read (Memory.write m i v) j = Memory.read m j := by
  induction m with
  | nil => simp [Memory.write, Memory.read, h.symm]
  | cons c m ih =>
    obtain ⟨a, b⟩ := c
    simp only [Memory.write]
    split
    · rw [Memory.read, if_neg (by omega)]
    · split
      · subst i
        rw [Memory.read, Memory.read, if_neg h.symm, if_neg h.symm]
      · rw [Memory.read, Memory.read, ih]

theorem read_write (m : Memory) (i j : Nat) (v : Byte) :
    Memory.read (Memory.write m i v) j = if j = i then some v else Memory.read m j := by
  split
  · subst j; exact read_write_same m i v
  · exact read_write_other m v ‹_›

theorem wfFrom_write {cap : Nat} {i : Nat} (v : Byte) (hi : i < cap) (m : Memory) :
    ∀ lo, lo ≤ i → Memory.wfFrom cap lo m = true → Memory.wfFrom cap lo (Memory.write m i v) = true := by
  induction m with
  | nil => intro lo hlo _; simp [Memory.write, Memory.wfFrom, hlo, hi]
  | cons c m ih =>
    obtain ⟨a, b⟩ := c
    intro lo hlo h
    simp only [Memory.wfFrom, Bool.and_eq_true, decide_eq_true_eq] at h
    simp only [Memory.write]
    split
    · simp only [Memory.wfFrom, Bool.and_eq_true, decide_eq_true_eq]
      exact ⟨⟨hlo, hi⟩, ⟨by omega, h.1.2⟩, h.2⟩
    · split
      · subst i
        simp only [Memory.wfFrom, Bool.and_eq_true, decide_eq_true_eq]
        exact h
      · simp only [Memory.wfFrom, Bool.and_eq_true, decide_eq_true_eq]
        exact ⟨h.1, ih _ (by omega) h.2⟩

/-- Every write keeps the canonical form. -/
theorem wf_write {cap i : Nat} {m : Memory} (v : Byte) (hi : i < cap) (h : Memory.wf cap m = true) :
    Memory.wf cap (Memory.write m i v) = true := wfFrom_write v hi m 0 (Nat.zero_le _) h

/-- Two canonical slot arrays that read alike are equal data. -/
theorem wfFrom_ext {cap : Nat} (m : Memory) : ∀ (n : Memory) (lo : Nat), Memory.wfFrom cap lo m = true →
    Memory.wfFrom cap lo n = true → (∀ i, Memory.read m i = Memory.read n i) → m = n := by
  have low : ∀ (n : Memory) (lo i : Nat), Memory.wfFrom cap lo n = true → i < lo → Memory.read n i = none := by
    intro n
    induction n with
    | nil => intro _ _ _ _; rfl
    | cons c n ih =>
      intro lo i h hi
      simp only [Memory.wfFrom, Bool.and_eq_true, decide_eq_true_eq] at h
      rw [Memory.read, if_neg (by omega)]
      exact ih _ _ h.2 (by omega)
  induction m with
  | nil =>
    intro n lo _ hn hr
    cases n with
    | nil => rfl
    | cons c n => have := hr c.1; simp [Memory.read] at this
  | cons c m ih =>
    intro n lo hm hn hr
    cases n with
    | nil => have := hr c.1; simp [Memory.read] at this
    | cons d n =>
      obtain ⟨a, b⟩ := c
      obtain ⟨a', b'⟩ := d
      simp only [Memory.wfFrom, Bool.and_eq_true, decide_eq_true_eq] at hm hn
      have ha : a = a' := by
        rcases Nat.lt_trichotomy a a' with h | h | h
        · have := hr a
          rw [Memory.read, if_pos rfl, Memory.read, if_neg (by omega), low n _ a hn.2 (by omega)] at this
          cases this
        · exact h
        · have := hr a'
          rw [Memory.read, if_neg (by omega), low m _ a' hm.2 (by omega), Memory.read, if_pos rfl] at this
          cases this
      subst a'
      have hb : b = b' := by simpa [Memory.read] using hr a
      subst b'
      refine congrArg _ (ih n (a + 1) hm.2 hn.2 fun i => ?_)
      by_cases hi : i < a + 1
      · rw [low m _ i hm.2 hi, low n _ i hn.2 hi]
      · have := hr i
        rwa [Memory.read, if_neg (by omega), Memory.read, if_neg (by omega)] at this

/-! Responses. -/

@[simp] theorem rspData_rspWord (st : Status) (d : Byte) : rspData (rspWord st d) = d := by
  apply BitVec.eq_of_getLsbD_eq
  intro i hi
  have : (rspWord st d).getLsbD i = (statusCode st ++ d : BitVec (2 + 8)).getLsbD i := rfl
  rw [rspData, BitVec.getLsbD_extractLsb', Nat.zero_add, this, BitVec.getLsbD_append]
  simp [hi]

@[simp] theorem rspStatus_rspWord (st : Status) (d : Byte) : rspStatus (rspWord st d) = st := by
  have h : (rspWord st d).extractLsb' 8 2 = statusCode st := by
    apply BitVec.eq_of_getLsbD_eq
    intro i hi
    have : (rspWord st d).getLsbD (8 + i) = (statusCode st ++ d : BitVec (2 + 8)).getLsbD (8 + i) := rfl
    rw [BitVec.getLsbD_extractLsb', this, BitVec.getLsbD_append]
    simp [hi]
  rw [rspStatus, h]
  cases st <;> rfl

theorem rspWord_inj {st st' : Status} {d d' : Byte} (h : rspWord st d = rspWord st' d') : st = st' ∧ d = d' :=
  ⟨by simpa using congrArg rspStatus h, by simpa using congrArg rspData h⟩

theorem predicateByte_eq (b : Bool) : predicateByte b = if b then 1#8 else 0#8 := by cases b <;> rfl

/-! Going on and stopping. -/

@[simp] theorem andThen_next (s : State) (k : State → Host.Outcome State Fault Refusal) : andThen (.next s) k = k s := rfl

theorem andThen_eq_next {o : Host.Outcome State Fault Refusal} {k : State → Host.Outcome State Fault Refusal} {t : State}
    (h : andThen o k = .next t) : ∃ s, o = .next s ∧ k s = .next t := by
  cases o with
  | next s => exact ⟨s, rfl, h⟩
  | fault _ => cases h
  | refused _ => cases h

end Sys2Proof.Machine
end

