-- ==== Sys2Proof/Laws/Exec.lean ====
section
/-! SUPPORT. What the operations do, once each: the next state where it is known, and everything a next state can be. -/

namespace Sys2Proof.Machine

variable {s t : State} {r : RingSel} {b : Byte}

/-! The port an operation is bound to. -/

theorem mayIssue_coop (h : s.params.syncMode = .cooperative) (p : Port) : s.mayIssue p = true := by
  simp [State.mayIssue, h]

theorem mayIssue_port (p : Port) (h : s.port = p) : s.mayIssue p = true := by
  cases hm : s.params.syncMode <;> simp [State.mayIssue, hm, h]

theorem boundTo_run {p : Port} {k : State → Host.Outcome State Fault Refusal} (h : s.mayIssue p = true) :
    boundTo p k s = k s := by simp [boundTo, h]

theorem boundTo_eq_next {p : Port} {k : State → Host.Outcome State Fault Refusal} (h : boundTo p k s = .next t) :
    s.mayIssue p = true ∧ k s = .next t := by
  unfold boundTo at h
  split at h
  · exact ⟨‹_›, h⟩
  · cases h

/-! ENQ. -/

/-- The ring after a successful ENQ (R74). -/
def Ring.pushed (cap : Nat) (q : Ring) (b : Byte) : Ring :=
  { q with data := Memory.write q.data q.tail b, tail := ptrNext cap q.tail }

/-- The ring after a successful DEQ (R76). -/
def Ring.popped (cap : Nat) (q : Ring) : Ring := { q with head := ptrNext cap q.head }

theorem enqueue_uninit (h : (s.ring r).inited = false) : enqueue r b s = .next (s.answerDraw .uninit) := by
  simp [enqueue, respondDraw, h]

theorem enqueue_full (h : (s.ring r).inited = true) (hf : s.seesFull r = true) :
    enqueue r b s = .next (s.answerDraw .full) := by simp [enqueue, respondDraw, h, hf]

theorem enqueue_ok (h : (s.ring r).inited = true) (hf : s.seesFull r = false) (ht : (s.ring r).tail < s.cap r) :
    enqueue r b s = .next ((s.setRing r ((s.ring r).pushed (s.cap r) b)).answerDraw .ok) := by
  simp [enqueue, respondDraw, h, hf, memWrite, State.storeSlot, ht, State.bumpTail, Ring.pushed]

theorem enqueue_cases (h : enqueue r b s = .next t) :
    ((s.ring r).inited = false ∧ t = s.answerDraw .uninit) ∨
    ((s.ring r).inited = true ∧ s.seesFull r = true ∧ t = s.answerDraw .full) ∨
    ((s.ring r).inited = true ∧ s.seesFull r = false ∧ (s.ring r).tail < s.cap r ∧
      t = (s.setRing r ((s.ring r).pushed (s.cap r) b)).answerDraw .ok) := by
  cases hi : (s.ring r).inited with
  | false => rw [enqueue_uninit hi] at h; cases h; exact .inl ⟨rfl, rfl⟩
  | true =>
    cases hf : s.seesFull r with
    | true => rw [enqueue_full hi hf] at h; cases h; exact .inr (.inl ⟨rfl, rfl, rfl⟩)
    | false =>
      by_cases ht : (s.ring r).tail < s.cap r
      · rw [enqueue_ok hi hf ht] at h; cases h; exact .inr (.inr ⟨rfl, rfl, ht, rfl⟩)
      · simp [enqueue, hi, hf, memWrite, State.storeSlot, ht, andThen] at h

/-! DEQ. -/

/-- The state after a DEQ has answered the content of its slot. -/
def State.answeredSlot (s : State) : Option Byte → State
  | some v => s.answer .ok v
  | none => s.answerDraw .ok

/-- The byte it answered: the slot's, or the next free value. -/
def State.slotByte (s : State) (v : Option Byte) : Byte := v.getD (Config.freeByte s.draws)

theorem answerSlot_eq (v : Option Byte) (s : State) : answerSlot v s = .next (s.answeredSlot v) := by
  cases v <;> rfl

theorem answeredSlot_eq (v : Option Byte) (s : State) :
    s.answeredSlot v = { s.answer .ok (s.slotByte v) with draws := (s.answeredSlot v).draws } := by
  cases v with
  | none => rfl
  | some v => cases h : s.port <;> simp [State.answeredSlot, State.slotByte, State.answer, State.setRsp, h]

theorem dequeue_uninit (h : (s.ring r).inited = false) : dequeue r s = .next (s.answerDraw .uninit) := by
  simp [dequeue, respondDraw, h]

theorem dequeue_empty (h : (s.ring r).inited = true) (he : s.seesEmpty r = true) :
    dequeue r s = .next (s.answerDraw .empty) := by simp [dequeue, respondDraw, h, he]

theorem dequeue_ok (h : (s.ring r).inited = true) (he : s.seesEmpty r = false) (hh : (s.ring r).head < s.cap r) :
    dequeue r s = .next ((s.setRing r ((s.ring r).popped (s.cap r))).answeredSlot
      (Memory.read (s.ring r).data (s.ring r).head)) := by
  simp [dequeue, h, he, memRead, State.loadSlot, hh, State.bumpHead, Ring.popped, answerSlot_eq]

theorem dequeue_cases (h : dequeue r s = .next t) :
    ((s.ring r).inited = false ∧ t = s.answerDraw .uninit) ∨
    ((s.ring r).inited = true ∧ s.seesEmpty r = true ∧ t = s.answerDraw .empty) ∨
    ((s.ring r).inited = true ∧ s.seesEmpty r = false ∧ (s.ring r).head < s.cap r ∧
      t = (s.setRing r ((s.ring r).popped (s.cap r))).answeredSlot (Memory.read (s.ring r).data (s.ring r).head)) := by
  cases hi : (s.ring r).inited with
  | false => rw [dequeue_uninit hi] at h; cases h; exact .inl ⟨rfl, rfl⟩
  | true =>
    cases he : s.seesEmpty r with
    | true => rw [dequeue_empty hi he] at h; cases h; exact .inr (.inl ⟨rfl, rfl, rfl⟩)
    | false =>
      by_cases hh : (s.ring r).head < s.cap r
      · rw [dequeue_ok hi he hh] at h; cases h; exact .inr (.inr ⟨rfl, rfl, hh, rfl⟩)
      · simp [dequeue, hi, he, memRead, State.loadSlot, hh] at h

/-! Every operation. -/

/-- The state `s` after some answer of any kind: rings, and all but a response and the count of free values, as in `s`. -/
def AnsweredFrom (s t : State) : Prop := ∃ st d n, t = { s.answer st d with draws := n }

theorem answeredFrom_answer (s : State) (st : Status) (d : Byte) : AnsweredFrom s (s.answer st d) :=
  ⟨st, d, s.draws, by cases h : s.port <;> simp [State.answer, State.setRsp, h]⟩

theorem answeredFrom_draw (s : State) (st : Status) : AnsweredFrom s (s.answerDraw st) :=
  ⟨st, Config.freeByte s.draws, s.draws + 1, rfl⟩

theorem answeredFrom_slot (s : State) (v : Option Byte) : AnsweredFrom s (s.answeredSlot v) := by
  cases v with
  | none => exact answeredFrom_draw s .ok
  | some v => exact answeredFrom_answer s .ok v

theorem AnsweredFrom.around (h : AnsweredFrom s t) : SameAround s t := by
  obtain ⟨st, d, n, rfl⟩ := h
  have := answer_rsp_other s st d
  refine ⟨by simp, by simp, by simp, by simp, ?_, by simp, by simp, by simp, by simp, by simp, by simp, by simp, by simp⟩
  cases hp : s.port <;> simpa [hp, State.rsp, otherPort] using this

theorem AnsweredFrom.rings (h : AnsweredFrom s t) : t.tx = s.tx ∧ t.rx = s.rx := by
  obtain ⟨st, d, n, rfl⟩ := h
  exact ⟨by simp, by simp⟩

theorem AnsweredFrom.ring (h : AnsweredFrom s t) (r : RingSel) : t.ring r = s.ring r := by
  cases r
  · exact h.rings.1
  · exact h.rings.2

theorem AnsweredFrom.setRing_around {q : Ring} (h : AnsweredFrom (s.setRing r q) t) : SameAround s t := by
  simpa [SameAround] using h.around

/-- Everything an operation can do, if it gives a next state. -/
theorem exec_cases {i : Instr} (h : exec i s = .next t) :
    AnsweredFrom s t ∨
    (∃ r b, i = .enq r b ∧ s.mayIssue (producer r) = true ∧ (s.ring r).inited = true ∧ s.seesFull r = false ∧
      (s.ring r).tail < s.cap r ∧ t = (s.setRing r ((s.ring r).pushed (s.cap r) b)).answerDraw .ok) ∨
    (∃ r, i = .deq r ∧ s.mayIssue (consumer r) = true ∧ (s.ring r).inited = true ∧ s.seesEmpty r = false ∧
      (s.ring r).head < s.cap r ∧ t = (s.setRing r ((s.ring r).popped (s.cap r))).answeredSlot
        (Memory.read (s.ring r).data (s.ring r).head)) ∨
    (∃ r, i = .init r ∧ s.mayIssue .u = true ∧ t = (s.initAt r).answerDraw .ok) ∨
    (i = .initall ∧ s.mayIssue .u = true ∧ t = ((s.initAt .tx).initAt .rx).answerDraw .ok) := by
  cases i with
  | nop => cases h; exact .inl (answeredFrom_draw s .ok)
  | rsvd7 => cases h; exact .inl (answeredFrom_draw s .ok)
  | isempty r => cases h; exact .inl (answeredFrom_answer s _ _)
  | isfull r => cases h; exact .inl (answeredFrom_answer s _ _)
  | init r =>
    obtain ⟨hm, h⟩ := boundTo_eq_next (show boundTo .u (fun t => respondDraw .ok (t.initAt r)) s = _ from h)
    cases h
    exact .inr (.inr (.inr (.inl ⟨r, rfl, hm, rfl⟩)))
  | initall =>
    obtain ⟨hm, h⟩ := boundTo_eq_next
      (show boundTo .u (fun t => respondDraw .ok ((t.initAt .tx).initAt .rx)) s = _ from h)
    cases h
    exact .inr (.inr (.inr (.inr ⟨rfl, hm, rfl⟩)))
  | enq r b =>
    obtain ⟨hm, h⟩ := boundTo_eq_next h
    obtain ⟨_, rfl⟩ | ⟨_, _, rfl⟩ | ⟨hi, hf, ht, rfl⟩ := enqueue_cases h
    · exact .inl (answeredFrom_draw s .uninit)
    · exact .inl (answeredFrom_draw s .full)
    · exact .inr (.inl ⟨r, b, rfl, hm, hi, hf, ht, rfl⟩)
  | deq r =>
    obtain ⟨hm, h⟩ := boundTo_eq_next h
    obtain ⟨_, rfl⟩ | ⟨_, _, rfl⟩ | ⟨hi, he, hh, rfl⟩ := dequeue_cases h
    · exact .inl (answeredFrom_draw s .uninit)
    · exact .inl (answeredFrom_draw s .empty)
    · exact .inr (.inr (.inl ⟨r, rfl, hm, hi, he, hh, rfl⟩))

/-- The rings after an operation: unchanged, pushed, popped or initialised. -/
theorem exec_ring_cases {i : Instr} (h : exec i s = .next t) (r : RingSel) :
    t.ring r = s.ring r ∨
    (∃ b, i = .enq r b ∧ (s.ring r).inited = true ∧ s.seesFull r = false ∧ s.mayIssue (producer r) = true ∧
      (s.ring r).tail < s.cap r ∧ t.ring r = (s.ring r).pushed (s.cap r) b) ∨
    (i = .deq r ∧ (s.ring r).inited = true ∧ s.seesEmpty r = false ∧ s.mayIssue (consumer r) = true ∧
      (s.ring r).head < s.cap r ∧ t.ring r = (s.ring r).popped (s.cap r)) ∨
    ((i = .init r ∨ i = .initall) ∧ s.mayIssue .u = true ∧ t.ring r = initRing s.params.syncMode (s.ring r)) := by
  obtain h | ⟨r', b, rfl, hm, hi, hf, ht, rfl⟩ | ⟨r', rfl, hm, hi, he, hh, rfl⟩ | ⟨r', rfl, hm, rfl⟩ | ⟨rfl, hm, rfl⟩ :=
    exec_cases h
  · exact .inl (h.ring r)
  · by_cases e : r = r'
    · subst e; exact .inr (.inl ⟨b, rfl, hi, hf, hm, ht, by simp⟩)
    · exact .inl (by simp [setRing_ring, e])
  · by_cases e : r = r'
    · subst e
      exact .inr (.inr (.inl ⟨rfl, hi, he, hm, hh, by simp [(answeredFrom_slot _ _).ring]⟩))
    · exact .inl (by simp [(answeredFrom_slot _ _).ring, setRing_ring, e])
  · by_cases e : r = r'
    · subst e; exact .inr (.inr (.inr ⟨.inl rfl, hm, by simp [State.initAt]⟩))
    · exact .inl (by simp [State.initAt, setRing_ring, e])
  · refine .inr (.inr (.inr ⟨.inr rfl, hm, ?_⟩))
    cases r <;> simp [State.initAt]

/-- The frame of every operation: only the rings, the issuing port's response and the count of free values may change. -/
theorem exec_frame {i : Instr} (h : exec i s = .next t) : SameAround s t := by
  obtain h | ⟨r', b, rfl, -, -, -, -, rfl⟩ | ⟨r', rfl, -, -, -, -, rfl⟩ | ⟨r', rfl, -, rfl⟩ | ⟨rfl, -, rfl⟩ := exec_cases h
  · exact h.around
  · exact (answeredFrom_draw _ _).setRing_around
  · exact (answeredFrom_slot _ _).setRing_around
  · exact AnsweredFrom.setRing_around (answeredFrom_draw _ _)
  · simpa [SameAround, State.initAt] using (answeredFrom_draw ((s.initAt .tx).initAt .rx) .ok).around

theorem SameAround.cap (h : SameAround s t) (r : RingSel) : t.cap r = s.cap r := by rw [State.cap, State.cap, h.1]

/-! Each operation where its port may issue it, and what it answers. -/

theorem exec_init (h : s.mayIssue .u = true) : exec (.init r) s = .next ((s.initAt r).answerDraw .ok) := by
  simp [exec, execInit, boundTo_run h, respondDraw]

theorem exec_initall (h : s.mayIssue .u = true) :
    exec .initall s = .next (((s.initAt .tx).initAt .rx).answerDraw .ok) := by
  simp [exec, execInitall, boundTo_run h, respondDraw]

theorem exec_enq (h : s.mayIssue (producer r) = true) : exec (.enq r b) s = enqueue r b s := by
  simp [exec, execEnq, boundTo_run h]

theorem exec_deq (h : s.mayIssue (consumer r) = true) : exec (.deq r) s = dequeue r s := by
  simp [exec, execDeq, boundTo_run h]

theorem answered_draw (s : State) (st : Status) : Answered s (s.answerDraw st) st := ⟨_, answerDraw_rsp_self s st⟩

theorem answered_draw_setRing (s : State) (q : Ring) (st : Status) :
    Answered s ((s.setRing r q).answerDraw st) st :=
  ⟨_, by simpa using answerDraw_rsp_self (s.setRing r q) st⟩

theorem answeredWith_slot (s : State) (v : Option Byte) : AnsweredWith s (s.answeredSlot v) .ok (s.slotByte v) := by
  cases v with
  | none => exact answerDraw_rsp_self s .ok
  | some v => exact answer_rsp_self s .ok v

theorem answeredWith_slot_setRing (s : State) (q : Ring) (v : Option Byte) :
    AnsweredWith s ((s.setRing r q).answeredSlot v) .ok (s.slotByte v) := by
  simpa [AnsweredWith, State.slotByte] using answeredWith_slot (s.setRing r q) v

theorem AnsweredWith.unique {st st' : Status} {d d' : Byte} (h : AnsweredWith s t st d) (h' : AnsweredWith s t st' d') :
    st = st' ∧ d = d' := rspWord_inj (Option.some.inj (h.symm.trans h'))

theorem Answered.unique {st st' : Status} (h : Answered s t st) (h' : Answered s t st') : st = st' := by
  obtain ⟨d, h⟩ := h
  obtain ⟨d', h'⟩ := h'
  exact (AnsweredWith.unique h h').1

/-- ENQ where it may be issued, by the three arms of R73 and R137. -/
theorem exec_enq_cases (h : exec (.enq r b) s = .next t) :
    ((s.ring r).inited = false ∧ Answered s t .uninit ∧ AnsweredFrom s t) ∨
    ((s.ring r).inited = true ∧ s.seesFull r = true ∧ Answered s t .full ∧ AnsweredFrom s t) ∨
    ((s.ring r).inited = true ∧ s.seesFull r = false ∧ Answered s t .ok ∧
      t.ring r = (s.ring r).pushed (s.cap r) b ∧ t.ring (otherRing r) = s.ring (otherRing r)) := by
  obtain ⟨-, h⟩ := boundTo_eq_next h
  obtain ⟨hi, rfl⟩ | ⟨hi, hf, rfl⟩ | ⟨hi, hf, -, rfl⟩ := enqueue_cases h
  · exact .inl ⟨hi, answered_draw _ _, answeredFrom_draw _ _⟩
  · exact .inr (.inl ⟨hi, hf, answered_draw _ _, answeredFrom_draw _ _⟩)
  · exact .inr (.inr ⟨hi, hf, answered_draw_setRing _ _ _, by simp, by simp⟩)

/-- DEQ where it may be issued, by the three arms of R75 and R138. -/
theorem exec_deq_cases (h : exec (.deq r) s = .next t) :
    ((s.ring r).inited = false ∧ Answered s t .uninit ∧ AnsweredFrom s t) ∨
    ((s.ring r).inited = true ∧ s.seesEmpty r = true ∧ Answered s t .empty ∧ AnsweredFrom s t) ∨
    ((s.ring r).inited = true ∧ s.seesEmpty r = false ∧
      AnsweredWith s t .ok (s.slotByte (Memory.read (s.ring r).data (s.ring r).head)) ∧
      t.ring r = (s.ring r).popped (s.cap r) ∧ t.ring (otherRing r) = s.ring (otherRing r)) := by
  obtain ⟨-, h⟩ := boundTo_eq_next h
  obtain ⟨hi, rfl⟩ | ⟨hi, he, rfl⟩ | ⟨hi, he, -, rfl⟩ := dequeue_cases h
  · exact .inl ⟨hi, answered_draw _ _, answeredFrom_draw _ _⟩
  · exact .inr (.inl ⟨hi, he, answered_draw _ _, answeredFrom_draw _ _⟩)
  · exact .inr (.inr ⟨hi, he, answeredWith_slot_setRing _ _ _, by simp [(answeredFrom_slot _ _).ring],
      by simp [(answeredFrom_slot _ _).ring]⟩)

end Sys2Proof.Machine
end

