-- ==== Sys2Proof/Laws/Rings.lean ====
section
/-! SUPPORT. The ring invariant under each change of a ring, and what the changes do to the contents. -/

namespace Sys2Proof.Machine

variable {cap : Nat} {q : Ring} {b : Byte}

/-! Occupancy and contents. -/

theorem occ_eq (h : legalCap cap = true) (hh : q.head < cap) (ht : q.tail < cap) :
    q.occ cap = if q.head ≤ q.tail then q.tail - q.head else q.tail + cap - q.head := ptrDist_eq h hh ht

theorem occ_lt (h : legalCap cap = true) : q.occ cap < cap := ptrDist_lt h _ _

theorem isEmpty_iff_occ (h : legalCap cap = true) (hh : q.head < cap) (ht : q.tail < cap) :
    q.isEmpty = true ↔ q.occ cap = 0 := by
  rw [occ_eq h hh ht]
  simp only [Ring.isEmpty, viewEmpty, decide_eq_true_eq]
  split <;> omega

theorem isFull_iff_occ (h : legalCap cap = true) (hh : q.head < cap) (ht : q.tail < cap) :
    q.isFull cap = true ↔ q.occ cap = cap - 1 := by
  have := two_le_cap h
  rw [occ_eq h hh ht]
  simp only [Ring.isFull, viewFull, decide_eq_true_eq, ptrNext_eq h ht]
  split <;> split <;> omega

theorem contents_length : (q.contents cap).length = q.occ cap := by simp [Ring.contents]

/-- The slot of the `i`-th resident byte. -/
theorem slot_eq (h : legalCap cap = true) (hh : q.head < cap) {i : Nat} (hi : i < cap) :
    ptrAdvance cap q.head i = if q.head + i < cap then q.head + i else q.head + i - cap :=
  ptrAdvance_eq h hh (Nat.le_of_lt hi)

/-- No resident slot is the slot the next ENQ writes. -/
theorem slot_ne_tail (h : legalCap cap = true) (hh : q.head < cap) (ht : q.tail < cap) {i : Nat} (hi : i < q.occ cap) :
    ptrAdvance cap q.head i ≠ q.tail := by
  rw [slot_eq h hh (by have := occ_lt (q := q) h; omega)]
  rw [occ_eq h hh ht] at hi
  split at hi <;> split <;> omega

/-- The slot after the last resident one is the slot the next ENQ writes. -/
theorem slot_occ (h : legalCap cap = true) (hh : q.head < cap) (ht : q.tail < cap) :
    ptrAdvance cap q.head (q.occ cap) = q.tail := by
  rw [slot_eq h hh (occ_lt h), occ_eq h hh ht]
  split <;> split <;> omega

theorem occ_pushed (h : legalCap cap = true) (hh : q.head < cap) (ht : q.tail < cap) (hf : q.isFull cap = false) :
    (q.pushed cap b).occ cap = q.occ cap + 1 := by
  have := two_le_cap h
  simp only [Ring.isFull, viewFull, decide_eq_false_iff_not] at hf
  rw [occ_eq h hh ht, occ_eq h (q := q.pushed cap b) hh (ptrNext_lt h _)]
  rw [ptrNext_eq h ht] at hf
  simp only [Ring.pushed, ptrNext_eq h ht]
  split <;> split <;> split <;> simp_all <;> omega

/-- A successful ENQ appends its byte (R20, R74). -/
theorem contents_pushed (h : legalCap cap = true) (hh : q.head < cap) (ht : q.tail < cap) (hf : q.isFull cap = false) :
    (q.pushed cap b).contents cap = q.contents cap ++ [some b] := by
  simp only [Ring.contents, occ_pushed h hh ht hf, List.range_succ, List.map_append, List.map_cons, List.map_nil]
  congr 1
  · refine List.map_congr_left fun i hi => ?_
    exact read_write_other _ _ (slot_ne_tail h hh ht (List.mem_range.mp hi))
  · simp only [Ring.pushed]
    rw [slot_occ h hh ht, read_write_same]

theorem occ_popped (h : legalCap cap = true) (hh : q.head < cap) (ht : q.tail < cap) (he : q.isEmpty = false) :
    q.occ cap = (q.popped cap).occ cap + 1 := by
  have := two_le_cap h
  simp only [Ring.isEmpty, viewEmpty, decide_eq_false_iff_not] at he
  rw [occ_eq h hh ht, occ_eq h (q := q.popped cap) (ptrNext_lt h _) ht]
  simp only [Ring.popped, ptrNext_eq h hh]
  split <;> split <;> split <;> omega

/-- A successful DEQ removes the oldest byte (R20, R76). -/
theorem contents_popped (h : legalCap cap = true) (hh : q.head < cap) (ht : q.tail < cap) (he : q.isEmpty = false) :
    q.contents cap = Memory.read q.data q.head :: (q.popped cap).contents cap := by
  have := two_le_cap h
  have ho := occ_popped h hh ht he
  have hlt := occ_lt (q := q) h
  simp only [Ring.contents]
  rw [ho, List.range_succ_eq_map, List.map_cons, List.map_map]
  congr 1
  · rw [slot_eq h hh (by omega), if_pos (by omega), Nat.add_zero]
  · refine List.map_congr_left fun i hi => ?_
    have hi := List.mem_range.mp hi
    simp only [Function.comp_apply]
    congr 1
    rw [slot_eq h hh (by omega), slot_eq h (q := q.popped cap) (ptrNext_lt h _) (by omega)]
    simp only [Ring.popped, ptrNext_eq h hh]
    split <;> split <;> split <;> omega

theorem contents_of_empty (he : q.isEmpty = true) (h : legalCap cap = true) (hh : q.head < cap) (ht : q.tail < cap) :
    q.contents cap = [] := by
  simp [Ring.contents, (isEmpty_iff_occ h hh ht).mp he]

theorem resident_iff :
    (∀ i < q.occ cap, (Memory.read q.data (ptrAdvance cap q.head i)).isSome) ↔ ∀ x ∈ q.contents cap, x.isSome := by
  simp [Ring.contents]

/-! The counts of `GRAY_CDC` (R145). -/

theorem headLag_eq (h : legalCap cap = true) (hh : q.head < cap) (hs : q.headSeen < cap) :
    q.headLag cap = if q.headSeen ≤ q.head then q.head - q.headSeen else q.head + cap - q.headSeen := ptrDist_eq h hs hh

theorem seenOcc_eq (h : legalCap cap = true) (hh : q.head < cap) (hs : q.tailSeen < cap) :
    q.seenOcc cap = if q.head ≤ q.tailSeen then q.tailSeen - q.head else q.tailSeen + cap - q.head := ptrDist_eq h hh hs

theorem tailLag_eq (h : legalCap cap = true) (ht : q.tail < cap) (hs : q.tailSeen < cap) :
    q.tailLag cap = if q.tailSeen ≤ q.tail then q.tail - q.tailSeen else q.tail + cap - q.tailSeen := ptrDist_eq h hs ht

/-! The invariant of one ring. -/

variable {p : Params} {r : RingSel}

/-- Where the pointers are in range and the counts fit, the true occupancy is what the consumer sees and what it has not
seen yet (R145). -/
theorem RingInv.occ_split (h : RingInv p r q) (hp : p.legal = true) (hg : p.syncMode = .grayCdc) :
    q.occ (capOf p r) = q.seenOcc (capOf p r) + q.tailLag (capOf p r) := by
  have hl := cap_legal hp r
  have hc := h.counts hg
  have := h.head_lt
  have := h.tail_lt
  have := h.headSeen_lt
  have := h.tailSeen_lt
  rw [headLag_eq hl h.head_lt h.headSeen_lt, seenOcc_eq hl h.head_lt h.tailSeen_lt,
    tailLag_eq hl h.tail_lt h.tailSeen_lt] at hc
  rw [occ_eq hl h.head_lt h.tail_lt, seenOcc_eq hl h.head_lt h.tailSeen_lt, tailLag_eq hl h.tail_lt h.tailSeen_lt]
  split <;> split <;> split <;> simp_all <;> omega

/-- A producer that sees room has room (R146). -/
theorem RingInv.not_full (h : RingInv p r q) (hp : p.legal = true) (hg : p.syncMode = .grayCdc)
    (hf : ptrNext (capOf p r) q.tail ≠ q.headSeen) :
    q.headLag (capOf p r) + q.seenOcc (capOf p r) + q.tailLag (capOf p r) ≤ capOf p r - 2 := by
  have hl := cap_legal hp r
  have := two_le_cap hl
  have hc := h.counts hg
  have := h.head_lt
  have := h.tail_lt
  have := h.headSeen_lt
  have := h.tailSeen_lt
  rw [ptrNext_eq hl h.tail_lt] at hf
  have ha := headLag_eq hl h.head_lt h.headSeen_lt
  have hb := seenOcc_eq hl h.head_lt h.tailSeen_lt
  have hd := tailLag_eq hl h.tail_lt h.tailSeen_lt
  split at hf <;> split at ha <;> split at hb <;> split at hd <;> omega

theorem RingInv.isFull_false (h : RingInv p r q) (hp : p.legal = true)
    (hf : p.syncMode = .cooperative ∧ q.isFull (capOf p r) = false ∨
      p.syncMode = .grayCdc ∧ ptrNext (capOf p r) q.tail ≠ q.headSeen) : q.isFull (capOf p r) = false := by
  obtain ⟨_, hf⟩ | ⟨hg, hf⟩ := hf
  · exact hf
  · have hl := cap_legal hp r
    have := two_le_cap hl
    have h1 := h.not_full hp hg hf
    have h2 := h.occ_split hp hg
    rw [Bool.eq_false_iff, ne_eq, isFull_iff_occ hl h.head_lt h.tail_lt]
    omega

theorem RingInv.isEmpty_false (h : RingInv p r q) (hp : p.legal = true)
    (he : p.syncMode = .cooperative ∧ q.isEmpty = false ∨
      p.syncMode = .grayCdc ∧ q.head ≠ q.tailSeen) : q.isEmpty = false := by
  obtain ⟨_, he⟩ | ⟨hg, he⟩ := he
  · exact he
  · have hl := cap_legal hp r
    have h2 := h.occ_split hp hg
    rw [Bool.eq_false_iff, ne_eq, isEmpty_iff_occ hl h.head_lt h.tail_lt, h2, seenOcc_eq hl h.head_lt h.tailSeen_lt]
    have := h.head_lt
    have := h.tailSeen_lt
    split <;> omega

theorem RingInv.pushed (h : RingInv p r q) (hp : p.legal = true) (hi : q.inited = true)
    (hf : p.syncMode = .cooperative ∧ q.isFull (capOf p r) = false ∨
      p.syncMode = .grayCdc ∧ ptrNext (capOf p r) q.tail ≠ q.headSeen) (b : Byte) :
    RingInv p r (q.pushed (capOf p r) b) := by
  have hl := cap_legal hp r
  have hnf := h.isFull_false hp hf
  refine ⟨h.head_lt, ptrNext_lt hl _, h.headSeen_lt, h.tailSeen_lt, wf_write b h.tail_lt h.canonical, ?_, h.unseen, ?_, ?_⟩
  · intro hu
    rw [show (q.pushed (capOf p r) b).inited = q.inited from rfl, hi] at hu
    cases hu
  · intro hg
    obtain ⟨hc, _⟩ | ⟨_, hf⟩ := hf
    · rw [hc] at hg; cases hg
    have h1 := h.not_full hp hg hf
    have := two_le_cap hl
    have := h.tail_lt
    have := h.tailSeen_lt
    have e1 : (q.pushed (capOf p r) b).headLag (capOf p r) = q.headLag (capOf p r) := rfl
    have e2 : (q.pushed (capOf p r) b).seenOcc (capOf p r) = q.seenOcc (capOf p r) := rfl
    rw [e1, e2, tailLag_eq hl (q := q.pushed (capOf p r) b) (ptrNext_lt hl _) h.tailSeen_lt]
    rw [tailLag_eq hl h.tail_lt h.tailSeen_lt] at h1
    simp only [Ring.pushed, ptrNext_eq hl h.tail_lt]
    split <;> split <;> split at h1 <;> omega
  · rw [resident_iff, contents_pushed hl h.head_lt h.tail_lt hnf]
    intro x hx
    obtain hx | hx := List.mem_append.mp hx
    · exact resident_iff.mp h.resident x hx
    · simp_all

theorem RingInv.popped (h : RingInv p r q) (hp : p.legal = true) (hi : q.inited = true)
    (he : p.syncMode = .cooperative ∧ q.isEmpty = false ∨
      p.syncMode = .grayCdc ∧ q.head ≠ q.tailSeen) :
    RingInv p r (q.popped (capOf p r)) := by
  have hl := cap_legal hp r
  have hne := h.isEmpty_false hp he
  refine ⟨ptrNext_lt hl _, h.tail_lt, h.headSeen_lt, h.tailSeen_lt, h.canonical, ?_, h.unseen, ?_, ?_⟩
  · intro hu
    rw [show (q.popped (capOf p r)).inited = q.inited from rfl, hi] at hu
    cases hu
  · intro hg
    obtain ⟨hc, _⟩ | ⟨_, he⟩ := he
    · rw [hc] at hg; cases hg
    have h1 := h.counts hg
    have := two_le_cap hl
    have := h.head_lt
    have := h.headSeen_lt
    have := h.tailSeen_lt
    have e1 : (q.popped (capOf p r)).tailLag (capOf p r) = q.tailLag (capOf p r) := rfl
    rw [e1, headLag_eq hl (q := q.popped (capOf p r)) (ptrNext_lt hl _) h.headSeen_lt,
      seenOcc_eq hl (q := q.popped (capOf p r)) (ptrNext_lt hl _) h.tailSeen_lt]
    rw [headLag_eq hl h.head_lt h.headSeen_lt, seenOcc_eq hl h.head_lt h.tailSeen_lt] at h1
    simp only [Ring.popped, ptrNext_eq hl h.head_lt]
    split <;> split <;> split <;> split at h1 <;> split at h1 <;> omega
  · rw [resident_iff]
    intro x hx
    apply resident_iff.mp h.resident
    rw [contents_popped hl h.head_lt h.tail_lt hne]
    exact List.mem_cons_of_mem _ hx

theorem ptrDist_self (hl : legalCap cap = true) (x : Nat) : ptrDist cap x x = 0 := by
  rw [ptrDist, and_mask hl, Nat.add_sub_cancel_left, Nat.mod_self]

theorem RingInv.init (h : RingInv p r q) (hp : p.legal = true) : RingInv p r (initRing p.syncMode q) := by
  have hl := cap_legal hp r
  have := two_le_cap hl
  cases hm : p.syncMode with
  | cooperative =>
    obtain ⟨h1, h2⟩ := h.unseen hm
    refine ⟨?_, ?_, ?_, ?_, ?_, ?_, ?_, ?_, ?_⟩ <;>
      simp [initRing, hm, Ring.occ, ptrDist_self hl, h.canonical, h1, h2] <;> omega
  | grayCdc =>
    refine ⟨?_, ?_, ?_, ?_, ?_, ?_, ?_, ?_, ?_⟩ <;>
      simp [initRing, hm, Ring.occ, Ring.headLag, Ring.seenOcc, Ring.tailLag, ptrDist_self hl, h.canonical] <;> omega

theorem RingInv.reset (hp : p.legal = true) : RingInv p r Ring.reset := by
  have hl := cap_legal hp r
  have := two_le_cap hl
  refine ⟨?_, ?_, ?_, ?_, ?_, ?_, ?_, ?_, ?_⟩ <;>
    simp [Ring.reset, Ring.occ, Ring.headLag, Ring.seenOcc, Ring.tailLag, ptrDist_self hl, Memory.wf, Memory.wfFrom] <;>
    omega

/-- A synchroniser step on `head_seen`, by any legal choice (R140). -/
theorem RingInv.syncHead (h : RingInv p r q) (hp : p.legal = true) (hg : p.syncMode = .grayCdc) {k : Nat}
    (hk : k ≤ q.headLag (capOf p r)) :
    RingInv p r { q with headSeen := ptrAdvance (capOf p r) q.headSeen k } ∧
    ({ q with headSeen := ptrAdvance (capOf p r) q.headSeen k } : Ring).headLag (capOf p r) =
      q.headLag (capOf p r) - k := by
  have hl := cap_legal hp r
  have := two_le_cap hl
  have := h.head_lt
  have := h.headSeen_lt
  have hlag : ({ q with headSeen := ptrAdvance (capOf p r) q.headSeen k } : Ring).headLag (capOf p r) =
      q.headLag (capOf p r) - k := by
    have hb : q.headLag (capOf p r) < capOf p r := ptrDist_lt hl _ _
    rw [headLag_eq hl h.head_lt h.headSeen_lt] at hk hb ⊢
    rw [headLag_eq hl (q := { q with headSeen := ptrAdvance (capOf p r) q.headSeen k }) h.head_lt (ptrAdvance_lt hl _ _)]
    simp only [ptrAdvance_eq hl h.headSeen_lt (show k ≤ capOf p r by omega)]
    split <;> split <;> split <;> simp_all <;> omega
  refine ⟨⟨h.head_lt, h.tail_lt, ptrAdvance_lt hl _ _, h.tailSeen_lt, h.canonical, ?_, ?_, ?_, h.resident⟩, hlag⟩
  · intro hu
    obtain ⟨h1, h2, h3, h4⟩ := h.uninit hu
    have : q.headLag (capOf p r) = 0 := by rw [Ring.headLag, h1, h3, ptrDist_self hl]
    refine ⟨h1, h2, ?_, h4⟩
    have hk0 : k = 0 := by omega
    subst hk0
    simp only [h3]
    rw [ptrAdvance_eq hl (by omega) (by omega)]
    split <;> omega
  · intro hc; rw [hc] at hg; cases hg
  · intro _
    have hc := h.counts hg
    rw [hlag]
    have e1 : ({ q with headSeen := ptrAdvance (capOf p r) q.headSeen k } : Ring).seenOcc (capOf p r) =
      q.seenOcc (capOf p r) := rfl
    have e2 : ({ q with headSeen := ptrAdvance (capOf p r) q.headSeen k } : Ring).tailLag (capOf p r) =
      q.tailLag (capOf p r) := rfl
    omega

/-- A synchroniser step on `tail_seen`, by any legal choice (R142). -/
theorem RingInv.syncTail (h : RingInv p r q) (hp : p.legal = true) (hg : p.syncMode = .grayCdc) {k : Nat}
    (hk : k ≤ q.tailLag (capOf p r)) :
    RingInv p r { q with tailSeen := ptrAdvance (capOf p r) q.tailSeen k } ∧
    ({ q with tailSeen := ptrAdvance (capOf p r) q.tailSeen k } : Ring).tailLag (capOf p r) =
      q.tailLag (capOf p r) - k ∧
    ({ q with tailSeen := ptrAdvance (capOf p r) q.tailSeen k } : Ring).seenOcc (capOf p r) =
      q.seenOcc (capOf p r) + k := by
  have hl := cap_legal hp r
  have := two_le_cap hl
  have := h.head_lt
  have := h.tail_lt
  have := h.tailSeen_lt
  have hb : q.tailLag (capOf p r) < capOf p r := ptrDist_lt hl _ _
  have hc := h.counts hg
  have hlag : ({ q with tailSeen := ptrAdvance (capOf p r) q.tailSeen k } : Ring).tailLag (capOf p r) =
      q.tailLag (capOf p r) - k := by
    rw [tailLag_eq hl h.tail_lt h.tailSeen_lt] at hk hb ⊢
    rw [tailLag_eq hl (q := { q with tailSeen := ptrAdvance (capOf p r) q.tailSeen k }) h.tail_lt (ptrAdvance_lt hl _ _)]
    simp only [ptrAdvance_eq hl h.tailSeen_lt (show k ≤ capOf p r by omega)]
    split <;> split <;> split <;> simp_all <;> omega
  have hseen : ({ q with tailSeen := ptrAdvance (capOf p r) q.tailSeen k } : Ring).seenOcc (capOf p r) =
      q.seenOcc (capOf p r) + k := by
    have hk' : q.seenOcc (capOf p r) + k < capOf p r := by omega
    rw [seenOcc_eq hl h.head_lt h.tailSeen_lt] at hk' ⊢
    rw [seenOcc_eq hl (q := { q with tailSeen := ptrAdvance (capOf p r) q.tailSeen k }) h.head_lt (ptrAdvance_lt hl _ _)]
    simp only [ptrAdvance_eq hl h.tailSeen_lt (show k ≤ capOf p r by omega)]
    split <;> split <;> split <;> simp_all <;> omega
  refine ⟨⟨h.head_lt, h.tail_lt, h.headSeen_lt, ptrAdvance_lt hl _ _, h.canonical, ?_, ?_, ?_, h.resident⟩, hlag, hseen⟩
  · intro hu
    obtain ⟨h1, h2, h3, h4⟩ := h.uninit hu
    have : q.tailLag (capOf p r) = 0 := by rw [Ring.tailLag, h2, h4, ptrDist_self hl]
    refine ⟨h1, h2, h3, ?_⟩
    have hk0 : k = 0 := by omega
    subst hk0
    simp only [h4]
    rw [ptrAdvance_eq hl (by omega) (by omega)]
    split <;> omega
  · intro hc; rw [hc] at hg; cases hg
  · intro _
    rw [hlag, hseen]
    have e1 : ({ q with tailSeen := ptrAdvance (capOf p r) q.tailSeen k } : Ring).headLag (capOf p r) =
      q.headLag (capOf p r) := rfl
    omega

end Sys2Proof.Machine
end

