-- ==== Sys2Proof/Laws/Step.lean ====
section
/-! SUPPORT. What one step is, case by case, and the invariant under one operation. -/

namespace Sys2Proof.Machine

variable {s t : State} {r : RingSel} {b : Byte}

/-! The step, by what it takes up. -/

theorem step_illegal (h : s.params.legal = false) : step s = .refused .illegalParams := by
  simp [step, machineStep, h]

theorem step_lineU {w : Opw} (hl : s.params.legal = true) (h : s.lineU = some w) :
    step s = issue .u (decode w) { s with lineU := none } := by
  simp [step, machineStep, hl, legalStep, h, executeWord]

theorem step_lineS {w : Opw} (hl : s.params.legal = true) (h : s.lineU = none) (h' : s.lineS = some w) :
    step s = issue .s (decode w) { s with lineS := none } := by
  simp [step, machineStep, hl, legalStep, h, h', executeWord]

theorem step_request {q : UsbReq} {rest : List UsbReq} (hl : s.params.legal = true)
    (hc : s.params.syncMode = .cooperative) (h : s.lineU = none) (h' : s.lineS = none) (hq : s.usb = q :: rest) :
    step s = serveRequest q { s with usb := rest } := by
  simp [step, machineStep, hl, legalStep, h, h', agentStep, hc, cooperativeStep, hq]

theorem step_pump {hw : PumpIn} {rest : List PumpIn} (hl : s.params.legal = true)
    (hc : s.params.syncMode = .cooperative) (h : s.lineU = none) (h' : s.lineS = none) (hq : s.usb = [])
    (hp : s.pumps = hw :: rest) : step s = runPump hw { s with pumps := rest } := by
  simp [step, machineStep, hl, legalStep, h, h', agentStep, hc, cooperativeStep, hq, hp]

theorem step_awaits (hl : s.params.legal = true) (h : AwaitsInput s) : step s = takeInput s := by
  obtain ⟨h1, h2, h3⟩ := h
  cases hm : s.params.syncMode with
  | cooperative =>
    obtain ⟨h4, h5⟩ := h3 hm
    simp [step, machineStep, hl, legalStep, h1, h2, agentStep, hm, cooperativeStep, h4, h5]
  | grayCdc => simp [step, machineStep, hl, legalStep, h1, h2, agentStep, hm]

theorem step_input {e : Input} {rest : List Input} (hl : s.params.legal = true) (h : AwaitsInput s)
    (hi : s.inputs = e :: rest) : step s = applyInput e { s with inputs := rest } := by
  rw [step_awaits hl h, takeInput, hi]

/-- Everything a step can take up. -/
theorem step_cases (h : step s = .next t) : s.params.legal = true ∧
    ((∃ w, s.lineU = some w ∧ issue .u (decode w) { s with lineU := none } = .next t) ∨
    (∃ w, s.lineU = none ∧ s.lineS = some w ∧ issue .s (decode w) { s with lineS := none } = .next t) ∨
    (∃ q rest, s.params.syncMode = .cooperative ∧ s.lineU = none ∧ s.lineS = none ∧ s.usb = q :: rest ∧
      serveRequest q { s with usb := rest } = .next t) ∨
    (∃ hw rest, s.params.syncMode = .cooperative ∧ s.lineU = none ∧ s.lineS = none ∧ s.usb = [] ∧
      s.pumps = hw :: rest ∧ runPump hw { s with pumps := rest } = .next t) ∨
    (AwaitsInput s ∧ s.inputs = [] ∧ t = s) ∨
    (∃ e rest, AwaitsInput s ∧ s.inputs = e :: rest ∧ applyInput e { s with inputs := rest } = .next t)) := by
  cases hl : s.params.legal with
  | false => rw [step_illegal hl] at h; cases h
  | true =>
    refine ⟨rfl, ?_⟩
    have waits (ha : AwaitsInput s) : (AwaitsInput s ∧ s.inputs = [] ∧ t = s) ∨
        ∃ e rest, AwaitsInput s ∧ s.inputs = e :: rest ∧ applyInput e { s with inputs := rest } = .next t := by
      rw [step_awaits hl ha] at h
      cases hi : s.inputs with
      | nil => rw [takeInput, hi] at h; cases h; exact .inl ⟨ha, rfl, rfl⟩
      | cons e rest => rw [takeInput, hi] at h; exact .inr ⟨e, rest, ha, rfl, h⟩
    have split {α : Type} (l : List α) : l = [] ∨ ∃ x rest, l = x :: rest := by cases l <;> simp
    obtain hu | ⟨w, hu⟩ := Option.eq_none_or_eq_some s.lineU
    · obtain hs | ⟨w, hs⟩ := Option.eq_none_or_eq_some s.lineS
      · obtain hm | hm : s.params.syncMode = .cooperative ∨ s.params.syncMode = .grayCdc := by
          cases s.params.syncMode <;> simp
        · obtain hq | ⟨q, rest, hq⟩ := split s.usb
          · obtain hp | ⟨hw, rest, hp⟩ := split s.pumps
            · exact .inr (.inr (.inr (.inr (waits ⟨hu, hs, fun _ => ⟨hq, hp⟩⟩))))
            · exact .inr (.inr (.inr (.inl ⟨hw, rest, hm, hu, hs, hq, hp, step_pump hl hm hu hs hq hp ▸ h⟩)))
          · exact .inr (.inr (.inl ⟨q, rest, hm, hu, hs, hq, step_request hl hm hu hs hq ▸ h⟩))
        · exact .inr (.inr (.inr (.inr (waits ⟨hu, hs, by simp [hm]⟩))))
      · exact .inr (.inl ⟨w, hu, hs, step_lineS hl hu hs ▸ h⟩)
    · exact .inl ⟨w, hu, step_lineU hl hu ▸ h⟩

/-! The invariant and one operation. -/

theorem Inv.ring (h : Inv s) (r : RingSel) : RingInv s.params r (s.ring r) := by
  cases r
  · exact h.tx
  · exact h.rx

/-- The test of the issuing port, as the invariant's lemmas take it: no Full seen. -/
theorem room_of_seesFull (hf : s.seesFull r = false) (hm : s.mayIssue (producer r) = true) :
    s.params.syncMode = .cooperative ∧ (s.ring r).isFull (capOf s.params r) = false ∨
    s.params.syncMode = .grayCdc ∧ ptrNext (capOf s.params r) (s.ring r).tail ≠ (s.ring r).headSeen := by
  cases hc : s.params.syncMode with
  | cooperative => simpa [State.seesFull, State.view, hc, Ring.isFull, State.cap] using hf
  | grayCdc =>
    have hp : s.port = producer r := by simpa [State.mayIssue, hc] using hm
    simpa [State.seesFull, State.view, hc, hp, viewFull, State.cap] using hf

/-- The test of the issuing port: no Empty seen. -/
theorem byte_of_seesEmpty (he : s.seesEmpty r = false) (hm : s.mayIssue (consumer r) = true) :
    s.params.syncMode = .cooperative ∧ (s.ring r).isEmpty = false ∨
    s.params.syncMode = .grayCdc ∧ (s.ring r).head ≠ (s.ring r).tailSeen := by
  cases hc : s.params.syncMode with
  | cooperative => simpa [State.seesEmpty, State.view, hc, Ring.isEmpty] using he
  | grayCdc =>
    have hp : s.port = consumer r := by simpa [State.mayIssue, hc] using hm
    have hne : consumer r ≠ producer r := by cases r <;> decide
    simpa [State.seesEmpty, State.view, hc, hp, hne, viewEmpty] using he

/-- Each ring keeps its invariant under every operation. -/
theorem exec_keeps_ringInv {i : Instr} (hp : s.params.legal = true) (hr : RingInv s.params r (s.ring r))
    (h : exec i s = .next t) : RingInv t.params r (t.ring r) := by
  rw [(exec_frame h).1]
  obtain e | ⟨b, -, hi, hf, hm, -, e⟩ | ⟨-, hi, he, hm, -, e⟩ | ⟨-, -, e⟩ := exec_ring_cases h r
  · rw [e]; exact hr
  · rw [e]; exact hr.pushed hp hi (room_of_seesFull hf hm) b
  · rw [e]; exact hr.popped hp hi (byte_of_seesEmpty he hm)
  · rw [e]; exact hr.init hp

/-- Every operation keeps the invariant. -/
theorem exec_keeps_inv {i : Instr} (hs : Inv s) (h : exec i s = .next t) : Inv t := by
  have hf := exec_frame h
  refine ⟨by rw [hf.1]; exact hs.legal, exec_keeps_ringInv (r := .tx) hs.legal hs.tx h,
    exec_keeps_ringInv (r := .rx) hs.legal hs.rx h, ?_⟩
  obtain ⟨h1, -, -, -, -, -, -, -, -, h2, h3, -⟩ := hf
  simpa [TaskInv, h1, h2, h3] using hs.tasks

/-- From a state of the invariant an operation answers a next state or is refused its port. -/
theorem exec_of_inv (i : Instr) (hs : Inv s) (hf : s.params.syncMode = .cooperative ∨ PortFits s.port i = true) :
    ∃ t w, exec i s = .next t ∧ t.rsp s.port = some w := by
  have may (p : Port) (h : s.params.syncMode = .cooperative ∨ s.port = p) : s.mayIssue p = true := by
    obtain h | h := h
    · exact mayIssue_coop h p
    · exact mayIssue_port p h
  cases i with
  | nop => exact ⟨_, _, rfl, answerDraw_rsp_self s .ok⟩
  | rsvd7 => exact ⟨_, _, rfl, answerDraw_rsp_self s .ok⟩
  | isempty r => exact ⟨_, _, rfl, answer_rsp_self s _ _⟩
  | isfull r => exact ⟨_, _, rfl, answer_rsp_self s _ _⟩
  | init r =>
    obtain ⟨d, hd⟩ := answered_draw_setRing (r := r) s (initRing s.params.syncMode (s.ring r)) .ok
    exact ⟨_, _, exec_init (may .u (by simpa [PortFits] using hf)), hd⟩
  | initall =>
    refine ⟨_, rspWord .ok (Config.freeByte s.draws), exec_initall (may .u (by simpa [PortFits] using hf)), ?_⟩
    simpa [State.initAt] using answerDraw_rsp_self ((s.initAt .tx).initAt .rx) .ok
  | enq r b =>
    rw [exec_enq (may (producer r) (by simpa [PortFits] using hf))]
    cases hi : (s.ring r).inited with
    | false => exact ⟨_, _, enqueue_uninit hi, answerDraw_rsp_self s .uninit⟩
    | true =>
      cases hf : s.seesFull r with
      | true => exact ⟨_, _, enqueue_full hi hf, answerDraw_rsp_self s .full⟩
      | false =>
        obtain ⟨d, hd⟩ := answered_draw_setRing (r := r) s ((s.ring r).pushed (s.cap r) b) .ok
        exact ⟨_, _, enqueue_ok hi hf (hs.ring r).tail_lt, hd⟩
  | deq r =>
    rw [exec_deq (may (consumer r) (by simpa [PortFits] using hf))]
    cases hi : (s.ring r).inited with
    | false => exact ⟨_, _, dequeue_uninit hi, answerDraw_rsp_self s .uninit⟩
    | true =>
      cases he : s.seesEmpty r with
      | true => exact ⟨_, _, dequeue_empty hi he, answerDraw_rsp_self s .empty⟩
      | false => exact ⟨_, _, dequeue_ok hi he (hs.ring r).head_lt, answeredWith_slot_setRing s _ _⟩

/-- Presenting an operation on a port leaves the invariant as it is. -/
theorem Inv.onPort (h : Inv s) (p : Port) : Inv { s with port := p } := ⟨h.legal, h.tx, h.rx, h.tasks⟩

end Sys2Proof.Machine
end

