-- ==== Sys2Proof/Laws/Clients.lean ====
section
/-! SUPPORT. What the clients' sequences do, once each. -/

namespace Sys2Proof.Machine

variable {s t : State}

/-! Issuing one operation, and what its client sees of the response. -/

theorem answeredOk_of (p : Port) {st : Status} {d : Byte} (h : t.rsp p = some (rspWord st d)) :
    t.answeredOk p = decide (st = .ok) := by simp [State.answeredOk, h]

theorem answeredData_of (p : Port) {st : Status} {d : Byte} (h : t.rsp p = some (rspWord st d)) :
    t.answeredData p = d := by simp [State.answeredData, h]

/-- Issuing an operation keeps the invariant. -/
theorem issue_keeps_inv {p : Port} {i : Instr} (hs : Inv s) (h : issue p i s = .next t) : Inv t :=
  exec_keeps_inv (hs.onPort p) h

/-- What issuing an operation leaves alone. -/
theorem issue_frame {p : Port} {i : Instr} (h : issue p i s = .next t) :
    t.params = s.params ∧ t.lineU = s.lineU ∧ t.lineS = s.lineS ∧ t.mode = s.mode ∧ t.remaining = s.remaining ∧
    t.usb = s.usb ∧ t.pumps = s.pumps ∧ t.uTask = s.uTask ∧ t.sTask = s.sTask ∧ t.inputs = s.inputs ∧ t.out = s.out := by
  obtain ⟨h1, h2, h3, -, -, h4, h5, h6, h7, h8, h9, h10, h11⟩ := exec_frame h
  exact ⟨h1, h2, h3, h4, h5, h6, h7, h8, h9, h10, h11⟩

/-- Issuing ENQ: refused with the rings as they were, or the byte appended to its ring. -/
theorem issue_enq {p : Port} {r : RingSel} {b : Byte} (h : issue p (.enq r b) s = .next t) :
    (t.tx = s.tx ∧ t.rx = s.rx ∧ t.answeredOk p = false ∧
      ((s.ring r).inited = false ∨ ({ s with port := p } : State).seesFull r = true)) ∨
    ((s.ring r).inited = true ∧ ({ s with port := p } : State).seesFull r = false ∧ t.answeredOk p = true ∧
      t.ring r = (s.ring r).pushed (s.cap r) b ∧ t.ring (otherRing r) = s.ring (otherRing r)) := by
  have e : ∀ r, ({ s with port := p } : State).ring r = s.ring r := by intro r; cases r <;> rfl
  obtain ⟨hi, ⟨d, ha⟩, hf⟩ | ⟨-, hf', ⟨d, ha⟩, hf⟩ | ⟨hi, hf, ⟨d, ha⟩, h1, h2⟩ := exec_enq_cases h
  · exact .inl ⟨hf.rings.1, hf.rings.2, by rw [answeredOk_of p ha]; rfl, .inl (e r ▸ hi)⟩
  · exact .inl ⟨hf.rings.1, hf.rings.2, by rw [answeredOk_of p ha]; rfl, .inr hf'⟩
  · rw [e] at hi h1 h2
    exact .inr ⟨hi, hf, by rw [answeredOk_of p ha]; rfl, h1, h2⟩

/-- Issuing DEQ: refused with the rings as they were, or the byte at `head` taken from its ring. -/
theorem issue_deq {p : Port} {r : RingSel} (h : issue p (.deq r) s = .next t) :
    (t.tx = s.tx ∧ t.rx = s.rx ∧ t.answeredOk p = false ∧
      ((s.ring r).inited = false ∨ ({ s with port := p } : State).seesEmpty r = true)) ∨
    ((s.ring r).inited = true ∧ ({ s with port := p } : State).seesEmpty r = false ∧ t.answeredOk p = true ∧
      t.answeredData p = s.slotByte (Memory.read (s.ring r).data (s.ring r).head) ∧
      t.ring r = (s.ring r).popped (s.cap r) ∧ t.ring (otherRing r) = s.ring (otherRing r)) := by
  have e : ∀ r, ({ s with port := p } : State).ring r = s.ring r := by intro r; cases r <;> rfl
  obtain ⟨hi, ⟨d, ha⟩, hf⟩ | ⟨-, hf', ⟨d, ha⟩, hf⟩ | ⟨hi, hf, ha, h1, h2⟩ := exec_deq_cases h
  · exact .inl ⟨hf.rings.1, hf.rings.2, by rw [answeredOk_of p ha]; rfl, .inl (e r ▸ hi)⟩
  · exact .inl ⟨hf.rings.1, hf.rings.2, by rw [answeredOk_of p ha]; rfl, .inr hf'⟩
  · rw [e] at hi h1 h2
    rw [AnsweredWith, e] at ha
    exact .inr ⟨hi, hf, by rw [answeredOk_of p ha]; rfl, answeredData_of p ha, h1, h2⟩

/-- From a state of the invariant, an operation its port may issue answers a next state. -/
theorem issue_of_inv {p : Port} {i : Instr} (hs : Inv s) (h : PortFits p i = true) :
    ∃ t, issue p i s = .next t :=
  let ⟨t, _, h, _⟩ := exec_of_inv i (hs.onPort p) (.inr h)
  ⟨t, h⟩

/-! The invariant without its clause on the clients' sequences. -/

/-- The parameters are legal and both rings keep their invariant. -/
def RingsInv (s : State) : Prop :=
  s.params.legal = true ∧ RingInv s.params .tx s.tx ∧ RingInv s.params .rx s.rx

theorem Inv.rings (h : Inv s) : RingsInv s := ⟨h.legal, h.tx, h.rx⟩

theorem issue_keeps_rings {p : Port} {i : Instr} (hs : RingsInv s) (h : issue p i s = .next t) : RingsInv t := by
  have hp := (issue_frame h).1
  exact ⟨by rw [hp]; exact hs.1, exec_keeps_ringInv (r := .tx) (s := { s with port := p }) hs.1 hs.2.1 h,
    exec_keeps_ringInv (r := .rx) (s := { s with port := p }) hs.1 hs.2.2 h⟩

/-- The clauses that are the same for every state with the same rings and parameters. -/
theorem RingsInv.of_eq (hs : RingsInv s) (h1 : t.params = s.params) (h2 : t.tx = s.tx) (h3 : t.rx = s.rx) :
    RingsInv t := by
  rw [RingsInv, h1, h2, h3]; exact hs

/-! The ends of the callbacks. -/

theorem finishWrcb_rings (len : Nat) (s : State) : (finishWrcb len s).tx = s.tx ∧ (finishWrcb len s).rx = s.rx := by
  unfold finishWrcb; split <;> exact ⟨rfl, rfl⟩

theorem finishWrcb_frame (len : Nat) (s : State) : (finishWrcb len s).params = s.params ∧
    (finishWrcb len s).lineU = s.lineU ∧ (finishWrcb len s).lineS = s.lineS ∧ (finishWrcb len s).usb = s.usb ∧
    (finishWrcb len s).pumps = s.pumps ∧ (finishWrcb len s).uTask = .idle ∧ (finishWrcb len s).sTask = s.sTask ∧
    (finishWrcb len s).inputs = s.inputs := by
  unfold finishWrcb; split <;> exact ⟨rfl, rfl, rfl, rfl, rfl, rfl, rfl, rfl⟩

/-- What the write-callback's loop leaves alone. -/
theorem runWrcb_frame {len : Nat} {todo : List Byte} (h : runWrcb len todo s = .next t) :
    t.params = s.params ∧ t.rx = s.rx ∧ t.lineU = s.lineU ∧ t.lineS = s.lineS ∧ t.usb = s.usb ∧ t.pumps = s.pumps ∧
    t.uTask = .idle ∧ t.sTask = s.sTask ∧ t.inputs = s.inputs := by
  induction todo generalizing s with
  | nil =>
    cases h
    obtain ⟨h1, h2, h3, h4, h5, h6, h7, h8⟩ := finishWrcb_frame len s
    exact ⟨h1, (finishWrcb_rings len s).2, h2, h3, h4, h5, h6, h7, h8⟩
  | cons b todo ih =>
    obtain ⟨u, hu, hr⟩ := andThen_eq_next h
    obtain ⟨h1, h2, h3, -, -, h6, h7, -, h8, h9, -⟩ := issue_frame hu
    have hrx : u.rx = s.rx := by
      obtain ⟨-, h, -, -⟩ | ⟨-, -, -, -, h⟩ := issue_enq hu
      · exact h
      · exact h
    simpa [h1, hrx, h2, h3, h6, h7, h8, h9] using ih hr

/-- What the read-callback's loop leaves alone. -/
theorem runRdcb_frame {len left : Nat} {got : List Byte} {good : Option Nat} (h : runRdcb len left got good s = .next t) :
    t.params = s.params ∧ t.tx = s.tx ∧ t.lineU = s.lineU ∧ t.lineS = s.lineS ∧ t.usb = s.usb ∧ t.pumps = s.pumps ∧
    t.uTask = .idle ∧ t.sTask = s.sTask ∧ t.inputs = s.inputs := by
  induction left generalizing s got good with
  | zero => cases h; exact ⟨rfl, rfl, rfl, rfl, rfl, rfl, rfl, rfl, rfl⟩
  | succ left ih =>
    obtain ⟨u, hu, hr⟩ := andThen_eq_next h
    obtain ⟨h1, h2, h3, -, -, h6, h7, -, h8, h9, -⟩ := issue_frame hu
    have htx : u.tx = s.tx := by
      obtain ⟨h, -, -, -⟩ | ⟨-, -, -, -, -, h⟩ := issue_deq hu
      · exact h
      · exact h
    simpa [h1, htx, h2, h3, h6, h7, h8, h9] using ih hr

theorem runWrcb_keeps_rings {len : Nat} {todo : List Byte} (hs : RingsInv s) (h : runWrcb len todo s = .next t) :
    RingsInv t := by
  induction todo generalizing s with
  | nil => cases h; exact hs.of_eq (finishWrcb_frame len s).1 (finishWrcb_rings len s).1 (finishWrcb_rings len s).2
  | cons b todo ih =>
    obtain ⟨u, hu, hr⟩ := andThen_eq_next h
    exact ih (issue_keeps_rings hs hu) hr

theorem runRdcb_keeps_rings {len left : Nat} {got : List Byte} {good : Option Nat} (hs : RingsInv s)
    (h : runRdcb len left got good s = .next t) : RingsInv t := by
  induction left generalizing s got good with
  | zero => cases h; exact hs.of_eq rfl rfl rfl
  | succ left ih =>
    obtain ⟨u, hu, hr⟩ := andThen_eq_next h
    exact ih (issue_keeps_rings hs hu) hr

theorem runUTask_keeps_rings (hs : RingsInv s) (h : runUTask s = .next t) :
    RingsInv t ∧ t.uTask = .idle ∧ t.sTask = s.sTask := by
  unfold runUTask at h
  split at h
  · cases h; exact ⟨hs, ‹_›, rfl⟩
  · obtain ⟨-, -, -, -, -, -, h1, h2, -⟩ := runWrcb_frame h
    exact ⟨runWrcb_keeps_rings hs h, h1, h2⟩
  · obtain ⟨-, -, -, -, -, -, h1, h2, -⟩ := runRdcb_frame h
    exact ⟨runRdcb_keeps_rings hs h, h1, h2⟩

/-! The dispatcher takes a request. -/

/-- What a request leaves alone, and the sequence it may begin. -/
theorem beginRequest_frame {q : UsbReq} (h : beginRequest q s = .next t) :
    t.params = s.params ∧ t.lineU = s.lineU ∧ t.lineS = s.lineS ∧ t.usb = s.usb ∧ t.pumps = s.pumps ∧
    t.sTask = s.sTask ∧ t.inputs = s.inputs ∧
    (t.uTask = s.uTask ∨ (∃ todo len, t.uTask = .wrcb todo len) ∨
      ∃ len, 1 ≤ len ∧ t.uTask = .rdcb len (len - 1) []) := by
  unfold beginRequest at h
  split at h
  case h_2 =>
    obtain ⟨u, hu, hr⟩ := andThen_eq_next h
    cases hr
    obtain ⟨h1, h2, h3, -, -, h6, h7, h8, h9, h10, -⟩ := issue_frame hu
    exact ⟨h1, h2, h3, h6, h7, h9, h10, .inl h8⟩
  case h_13 =>
    unfold beginWrcb at h
    split at h
    · split at h
      · cases h
      · cases h; exact ⟨rfl, rfl, rfl, rfl, rfl, rfl, rfl, .inr (.inl ⟨_, _, rfl⟩)⟩
    · cases h
  case h_15 len _ =>
    unfold beginRdcb at h
    split at h
    · rename_i hl
      cases h
      simp only [readLengthOk, Bool.and_eq_true, decide_eq_true_eq] at hl
      exact ⟨rfl, rfl, rfl, rfl, rfl, rfl, rfl, .inr (.inr ⟨len, hl.1, rfl⟩)⟩
    · cases h
  all_goals first
    | (cases h; exact ⟨rfl, rfl, rfl, rfl, rfl, rfl, rfl, .inl rfl⟩)
    | cases h

theorem beginRequest_keeps_rings {q : UsbReq} (hs : RingsInv s) (h : beginRequest q s = .next t) : RingsInv t := by
  unfold beginRequest at h
  split at h
  case h_2 =>
    obtain ⟨u, hu, hr⟩ := andThen_eq_next h
    cases hr
    exact (issue_keeps_rings hs hu).of_eq rfl rfl rfl
  case h_13 =>
    unfold beginWrcb at h
    split at h
    · split at h
      · cases h
      · cases h; exact hs.of_eq rfl rfl rfl
    · cases h
  case h_15 =>
    unfold beginRdcb at h
    split at h
    · cases h; exact hs.of_eq rfl rfl rfl
    · cases h
  all_goals first
    | (cases h; exact hs.of_eq rfl rfl rfl)
    | cases h

/-! The pump. -/

/-- What a pump step, or a half of one, leaves alone. -/
theorem pumpTx_frame {hw : PumpIn} (h : pumpTx hw s = .next t) :
    t.params = s.params ∧ t.lineU = s.lineU ∧ t.lineS = s.lineS ∧ t.mode = s.mode ∧ t.remaining = s.remaining ∧
    t.usb = s.usb ∧ t.pumps = s.pumps ∧ t.uTask = s.uTask ∧ t.sTask = s.sTask ∧ t.inputs = s.inputs := by
  unfold pumpTx at h
  split at h
  · obtain ⟨u, hu, hr⟩ := andThen_eq_next h
    obtain ⟨h1, h2, h3, h4, h5, h6, h7, h8, h9, h10, -⟩ := issue_frame hu
    cases hr
    split <;> exact ⟨h1, h2, h3, h4, h5, h6, h7, h8, h9, h10⟩
  · cases h; exact ⟨rfl, rfl, rfl, rfl, rfl, rfl, rfl, rfl, rfl, rfl⟩

theorem pumpRx_frame {hw : PumpIn} (h : pumpRx hw s = .next t) :
    t.params = s.params ∧ t.lineU = s.lineU ∧ t.lineS = s.lineS ∧ t.mode = s.mode ∧ t.remaining = s.remaining ∧
    t.usb = s.usb ∧ t.pumps = s.pumps ∧ t.uTask = s.uTask ∧ t.sTask = s.sTask ∧ t.inputs = s.inputs := by
  unfold pumpRx at h
  split at h
  · obtain ⟨h1, h2, h3, h4, h5, h6, h7, h8, h9, h10, -⟩ := issue_frame h
    exact ⟨h1, h2, h3, h4, h5, h6, h7, h8, h9, h10⟩
  · cases h; exact ⟨rfl, rfl, rfl, rfl, rfl, rfl, rfl, rfl, rfl, rfl⟩

theorem pumpTx_keeps_rings {hw : PumpIn} (hs : RingsInv s) (h : pumpTx hw s = .next t) : RingsInv t := by
  unfold pumpTx at h
  split at h
  · obtain ⟨u, hu, hr⟩ := andThen_eq_next h
    have := issue_keeps_rings hs hu
    cases hr
    split <;> exact this.of_eq rfl rfl rfl
  · cases h; exact hs

theorem pumpRx_keeps_rings {hw : PumpIn} (hs : RingsInv s) (h : pumpRx hw s = .next t) : RingsInv t := by
  unfold pumpRx at h
  split at h
  · exact issue_keeps_rings (s := s.emit _) (hs.of_eq rfl rfl rfl) h
  · cases h; exact hs

end Sys2Proof.Machine
end

