-- ==== Sys2Proof/Laws/Loops.lean ====
section
/-! SUPPORT. The whole requests and pump steps, and in `COOPERATIVE` the two loops of the callbacks, once each. -/

namespace Sys2Proof.Machine

variable {s t : State} {r : RingSel} {p : Port}

/-- What a request, its sequence included, leaves alone. -/
theorem serveRequest_frame {q : UsbReq} (h : serveRequest q s = .next t) :
    t.params = s.params ∧ t.lineU = s.lineU ∧ t.lineS = s.lineS ∧ t.usb = s.usb ∧ t.pumps = s.pumps ∧
    t.sTask = s.sTask ∧ t.inputs = s.inputs := by
  obtain ⟨u, hu, hr⟩ := andThen_eq_next h
  obtain ⟨a1, a2, a3, a4, a5, a6, a7, -⟩ := beginRequest_frame hu
  unfold runUTask at hr
  split at hr
  · cases hr; exact ⟨a1, a2, a3, a4, a5, a6, a7⟩
  · obtain ⟨b1, -, b2, b3, b4, b5, -, b6, b7⟩ := runWrcb_frame hr
    exact ⟨b1.trans a1, b2.trans a2, b3.trans a3, b4.trans a4, b5.trans a5, b6.trans a6, b7.trans a7⟩
  · obtain ⟨b1, -, b2, b3, b4, b5, -, b6, b7⟩ := runRdcb_frame hr
    exact ⟨b1.trans a1, b2.trans a2, b3.trans a3, b4.trans a4, b5.trans a5, b6.trans a6, b7.trans a7⟩

/-- What a whole pump step leaves alone. -/
theorem runPump_frame {hw : PumpIn} (h : runPump hw s = .next t) :
    t.params = s.params ∧ t.lineU = s.lineU ∧ t.lineS = s.lineS ∧ t.usb = s.usb ∧ t.pumps = s.pumps ∧
    t.uTask = s.uTask ∧ t.sTask = s.sTask ∧ t.inputs = s.inputs := by
  obtain ⟨u, hu, hr⟩ := andThen_eq_next h
  obtain ⟨a1, a2, a3, -, -, a4, a5, a6, a7, a8⟩ := pumpTx_frame hu
  obtain ⟨b1, b2, b3, -, -, b4, b5, b6, b7, b8⟩ := pumpRx_frame hr
  exact ⟨b1.trans a1, b2.trans a2, b3.trans a3, b4.trans a4, b5.trans a5, b6.trans a6, b7.trans a7, b8.trans a8⟩

/-! In `COOPERATIVE` every port sees the pointers themselves. -/

theorem seesFull_coop (hc : s.params.syncMode = .cooperative) :
    ({ s with port := p } : State).seesFull r = (s.ring r).isFull (s.cap r) := by
  cases r <;> simp [State.seesFull, State.view, hc, Ring.isFull, State.cap, State.ring]

theorem seesEmpty_coop (hc : s.params.syncMode = .cooperative) :
    ({ s with port := p } : State).seesEmpty r = (s.ring r).isEmpty := by
  cases r <;> simp [State.seesEmpty, State.view, hc, Ring.isEmpty, State.ring]

theorem RingsInv.ring (h : RingsInv s) (r : RingSel) : RingInv s.params r (s.ring r) := by
  cases r
  · exact h.2.1
  · exact h.2.2

/-- In `COOPERATIVE` every operation answers, on either port. -/
theorem issue_of_rings (h : RingsInv s) (hc : s.params.syncMode = .cooperative) (p : Port) (i : Instr) :
    ∃ t, issue p i s = .next t := by
  have may (q : Port) : ({ s with port := p } : State).mayIssue q = true := mayIssue_coop (s := { s with port := p }) hc q
  have e : ∀ r, ({ s with port := p } : State).ring r = s.ring r := by intro r; cases r <;> rfl
  unfold issue
  cases i with
  | nop => exact ⟨_, rfl⟩
  | rsvd7 => exact ⟨_, rfl⟩
  | isempty r => exact ⟨_, rfl⟩
  | isfull r => exact ⟨_, rfl⟩
  | init r => exact ⟨_, exec_init (may .u)⟩
  | initall => exact ⟨_, exec_initall (may .u)⟩
  | enq r b =>
    rw [exec_enq (may _)]
    cases hi : (s.ring r).inited with
    | false => exact ⟨_, enqueue_uninit (by rw [e]; exact hi)⟩
    | true =>
      cases hf : ({ s with port := p } : State).seesFull r with
      | true => exact ⟨_, enqueue_full (by rw [e]; exact hi) hf⟩
      | false => exact ⟨_, enqueue_ok (by rw [e]; exact hi) hf (by rw [e]; exact (RingsInv.ring h r).tail_lt)⟩
  | deq r =>
    rw [exec_deq (may _)]
    cases hi : (s.ring r).inited with
    | false => exact ⟨_, dequeue_uninit (by rw [e]; exact hi)⟩
    | true =>
      cases hf : ({ s with port := p } : State).seesEmpty r with
      | true => exact ⟨_, dequeue_empty (by rw [e]; exact hi) hf⟩
      | false => exact ⟨_, dequeue_ok (by rw [e]; exact hi) hf (by rw [e]; exact (RingsInv.ring h r).head_lt)⟩

/-- The write-callback's loop: what fits is appended, in order; nothing else around the ring changes before its end. -/
theorem runWrcb_coop (len : Nat) (todo : List Byte) : ∀ {s : State}, RingsInv s → s.params.syncMode = .cooperative →
    ∃ u, runWrcb len todo s = .next (finishWrcb len u) ∧ u.mode = s.mode ∧ u.remaining = s.remaining ∧
      u.out = s.out ∧ u.params = s.params ∧ (s.tx.inited = false → u.tx = s.tx) ∧
      (s.tx.inited = true → u.tx.contents (s.cap .tx) = s.tx.contents (s.cap .tx) ++
        ((todo.take (s.cap .tx - 1 - s.tx.occ (s.cap .tx))).map some)) := by
  induction todo with
  | nil => intro s _ _; exact ⟨s, rfl, rfl, rfl, rfl, rfl, fun _ => rfl, by simp⟩
  | cons b todo ih =>
    intro s hs hc
    obtain ⟨v, hv⟩ := issue_of_rings hs hc .u (.enq .tx b)
    obtain ⟨f1, -, -, f4, f5, -, -, -, -, -, f11⟩ := issue_frame hv
    obtain ⟨u, h1, h2, h3, h4, h5, h6, h7⟩ := ih (issue_keeps_rings hs hv) (by rw [f1]; exact hc)
    refine ⟨u, by simp [runWrcb, hv, h1], h2.trans f4, h3.trans f5, h4.trans f11, h5.trans f1, ?_⟩
    rw [show v.cap .tx = s.cap .tx by simp [State.cap, f1]] at h7
    have hl : legalCap (s.cap .tx) = true := cap_legal hs.1 .tx
    have hh : s.tx.head < s.cap .tx := hs.2.1.head_lt
    have ht : s.tx.tail < s.cap .tx := hs.2.1.tail_lt
    obtain ⟨a, -, -, d⟩ | ⟨a, b', -, d, -⟩ := issue_enq hv
    · rw [a] at h6 h7
      refine ⟨h6, fun hi => ?_⟩
      have hf : s.tx.isFull (s.cap .tx) = true := by
        rw [seesFull_coop hc] at d
        exact d.resolve_left (by simp [State.ring, hi])
      have hz : s.cap .tx - 1 - s.tx.occ (s.cap .tx) = 0 := by
        have := (isFull_iff_occ hl hh ht).mp hf
        omega
      simp [h7 hi, hz]
    · replace a : s.tx.inited = true := a
      replace d : v.tx = s.tx.pushed (s.cap .tx) b := d
      have hf : s.tx.isFull (s.cap .tx) = false := by rw [seesFull_coop hc] at b'; exact b'
      have ho := occ_pushed (b := b) hl hh ht hf
      have := occ_lt (q := s.tx.pushed (s.cap .tx) b) hl
      refine ⟨fun h => by simp [a] at h, fun _ => ?_⟩
      rw [h7 (by rw [d]; exact a), d, contents_pushed hl hh ht hf, ho,
        show s.cap .tx - 1 - s.tx.occ (s.cap .tx) = s.cap .tx - 1 - (s.tx.occ (s.cap .tx) + 1) + 1 by omega]
      simp

/-- The read-callback's loop: with `good` the count if a DEQ has failed before, `m` bytes are taken from the ring. -/
theorem runRdcb_coop (len left : Nat) : ∀ {s : State} (got : List Byte) (good : Option Nat), RingsInv s →
    s.params.syncMode = .cooperative → (good.isSome → s.rx.inited = false ∨ s.rx.isEmpty = true) →
    ∃ u bytes, ∃ k, runRdcb len left got good s = .next (finishRdcb s.params.pkt len k (got ++ bytes) u) ∧
      bytes.length = left ∧ u.mode = s.mode ∧ u.remaining = s.remaining ∧ u.out = s.out ∧ u.params = s.params ∧
      (∃ m, m = (if s.rx.inited then min left (s.rx.occ (s.cap .rx)) else 0) ∧
        k = (match good with | some g => g | none => if m = left then len - 1 else got.length + m) ∧
        (bytes.take m).map some = (s.rx.contents (s.cap .rx)).take m ∧
        u.rx.contents (s.cap .rx) = (s.rx.contents (s.cap .rx)).drop m) ∧
      (s.rx.inited = false → u.rx = s.rx) := by
  induction left with
  | zero =>
    intro s got good _ _ _
    refine ⟨s, [], _, by simp [runRdcb]; rfl, rfl, rfl, rfl, rfl, rfl, ⟨0, by simp, ?_, by simp, by simp⟩, fun _ => rfl⟩
    cases good <;> simp
  | succ left ih =>
    intro s got good hs hc hg
    obtain ⟨v, hv⟩ := issue_of_rings hs hc .u (.deq .rx)
    obtain ⟨f1, -, -, f4, f5, -, -, -, -, -, f11⟩ := issue_frame hv
    have hcap : v.cap .rx = s.cap .rx := by simp [State.cap, f1]
    have hl : legalCap (s.cap .rx) = true := cap_legal hs.1 .rx
    have hh : s.rx.head < s.cap .rx := hs.2.2.head_lt
    have ht : s.rx.tail < s.cap .rx := hs.2.2.tail_lt
    obtain ⟨-, a, c, d⟩ | ⟨a, b', c, dd, d, -⟩ := issue_deq hv
    · have he : s.rx.inited = false ∨ s.rx.isEmpty = true := by rw [seesEmpty_coop hc] at d; exact d
      have h0 : ∀ n, (if s.rx.inited then min n (s.rx.occ (s.cap .rx)) else 0) = 0 := by
        intro n
        obtain h | h := he
        · simp [h]
        · simp [(isEmpty_iff_occ hl hh ht).mp h]
      obtain ⟨u, bytes, k, h1, h2, h3, h4, h5, h6, ⟨m, e1, e2, -, e4⟩, h7⟩ :=
        ih (got ++ [v.answeredData .u]) (some (good.getD got.length)) (issue_keeps_rings hs hv)
          (by rw [f1]; exact hc) (by rw [a]; exact fun _ => he)
      rw [a] at h7
      rw [hcap, a] at e1 e4
      obtain rfl : m = 0 := by rw [e1, h0]
      refine ⟨u, v.answeredData .u :: bytes, k, by simp [runRdcb, hv, c, h1, f1], by simp [h2], h3.trans f4,
        h4.trans f5, h5.trans f11, h6.trans f1, ⟨0, (h0 _).symm, ?_, by simp, e4⟩, h7⟩
      simp only at e2
      cases good <;> simp [e2]
    · replace a : s.rx.inited = true := a
      replace d : v.rx = s.rx.popped (s.cap .rx) := d
      have he : s.rx.isEmpty = false := by rw [seesEmpty_coop hc] at b'; exact b'
      obtain rfl : good = none := by
        cases good with
        | none => rfl
        | some g => simpa [a, he] using hg rfl
      obtain ⟨u, bytes, k, h1, h2, h3, h4, h5, h6, ⟨m, e1, e2, e3, e4⟩, -⟩ :=
        ih (got ++ [v.answeredData .u]) none (issue_keeps_rings hs hv) (by rw [f1]; exact hc) (by simp)
      have ho := occ_popped hl hh ht he
      have hp := contents_popped hl hh ht he
      rw [hcap, d] at e1 e3 e4
      rw [show (s.rx.popped (s.cap .rx)).inited = true from a] at e1
      have hb : Memory.read s.rx.data s.rx.head = some (v.answeredData .u) := by
        have hres := hs.2.2.resident 0 (by change 0 < s.rx.occ (s.cap .rx); omega)
        change (Memory.read s.rx.data (ptrAdvance (s.cap .rx) s.rx.head 0)).isSome = true at hres
        rw [ptrAdvance_eq hl hh (by omega), Nat.add_zero, if_pos hh] at hres
        obtain ⟨x, hx⟩ := Option.isSome_iff_exists.mp hres
        rw [hx, dd]
        simp [State.slotByte, State.ring, hx]
      refine ⟨u, v.answeredData .u :: bytes, k, by simp [runRdcb, hv, c, h1, f1], by simp [h2], h3.trans f4,
        h4.trans f5, h5.trans f11, h6.trans f1, ⟨m + 1, ?_, ?_, ?_, ?_⟩, fun h => by simp [a] at h⟩
      · simp only [a, if_true, e1, ho]; omega
      · simp only at e2 ⊢
        rw [e2]
        simp only [List.length_append, List.length_singleton, Nat.add_right_cancel_iff]
        split <;> omega
      · rw [hp]; simp [e3, hb]
      · rw [hp]; simpa using e4

end Sys2Proof.Machine
end

