-- ==== Sys2Proof/Laws/Crossing.lean ====
section
/-! SUPPORT. What one step of `GRAY_CDC` can do to a ring, and with it to the seen pointers. -/

namespace Sys2Proof.Machine

variable {s t : State} {r : RingSel}

/-- One operation's worth of change to a ring of `GRAY_CDC`, or none. -/
def RingMoved (cap : Nat) (q q' : Ring) : Prop :=
  q' = q ∨ (∃ b, q' = q.pushed cap b) ∨ q' = q.popped cap ∨ q' = initRing .grayCdc q

theorem issue_ringMoved {p : Port} {i : Instr} (hg : s.params.syncMode = .grayCdc) (h : issue p i s = .next t) :
    RingMoved (s.cap r) (s.ring r) (t.ring r) := by
  have e : ({ s with port := p } : State).ring r = s.ring r := by cases r <;> rfl
  have hm := exec_ring_cases h r
  rw [e] at hm
  obtain h | ⟨b, -, -, -, -, -, h⟩ | ⟨-, -, -, -, -, h⟩ | ⟨-, -, h⟩ := hm
  · exact .inl h
  · exact .inr (.inl ⟨b, h⟩)
  · exact .inr (.inr (.inl h))
  · exact .inr (.inr (.inr (by rw [h, hg])))

/-- The rings are as they were: no operation was issued. -/
theorem RingMoved.same {q' : Ring} (h : q' = s.ring r) : RingMoved (s.cap r) (s.ring r) q' := .inl h

theorem ring_of_eq (h1 : t.tx = s.tx) (h2 : t.rx = s.rx) : t.ring r = s.ring r := by
  cases r
  · exact h1
  · exact h2

/-- A request's first part issues at most one operation. -/
theorem beginRequest_ringMoved {q : UsbReq} (hg : s.params.syncMode = .grayCdc) (h : beginRequest q s = .next t) :
    RingMoved (s.cap r) (s.ring r) (t.ring r) := by
  unfold beginRequest at h
  split at h
  case h_2 =>
    obtain ⟨u, hu, hr⟩ := andThen_eq_next h
    cases hr
    have := issue_ringMoved (r := r) hg hu
    cases r <;> exact this
  case h_13 =>
    unfold beginWrcb at h
    split at h
    · split at h
      · cases h
      · cases h; exact .same (ring_of_eq rfl rfl)
    · cases h
  case h_15 =>
    unfold beginRdcb at h
    split at h
    · cases h; exact .same (ring_of_eq rfl rfl)
    · cases h
  all_goals first
    | (cases h; exact .same (ring_of_eq rfl rfl))
    | cases h

/-- One move of the dispatcher issues at most one operation. -/
theorem advanceU_ringMoved (hg : s.params.syncMode = .grayCdc) (h : advanceU s = .next t) :
    RingMoved (s.cap r) (s.ring r) (t.ring r) := by
  have hstep : stepUTask s = .next t → RingMoved (s.cap r) (s.ring r) (t.ring r) := by
    intro h
    unfold stepUTask at h
    split at h
    · cases h; exact .same rfl
    · unfold stepWrcb at h
      split at h
      · cases h; exact .same (ring_of_eq (finishWrcb_rings _ _).1 (finishWrcb_rings _ _).2)
      · obtain ⟨u, hu, hr⟩ := andThen_eq_next h
        cases hr
        have := issue_ringMoved (r := r) hg hu
        cases r <;> exact this
    · unfold stepRdcb at h
      split at h
      · cases h; exact .same (ring_of_eq rfl rfl)
      · obtain ⟨u, hu, hr⟩ := andThen_eq_next h
        have := issue_ringMoved (r := r) hg hu
        split at hr <;> (cases hr; cases r <;> exact this)
  unfold advanceU at h
  split at h
  · split at h
    · cases h; exact .same rfl
    · rename_i rest _
      have := beginRequest_ringMoved (s := { s with usb := rest }) (r := r) hg h
      cases r <;> exact this
  · exact hstep h
  · exact hstep h

/-- One move of the pump issues at most one operation. -/
theorem advanceS_ringMoved (hg : s.params.syncMode = .grayCdc) (h : advanceS s = .next t) :
    RingMoved (s.cap r) (s.ring r) (t.ring r) := by
  unfold advanceS at h
  split at h
  · unfold pumpRx at h
    split at h
    · have := issue_ringMoved (r := r) (by exact hg) h
      cases r <;> exact this
    · cases h; exact .same (ring_of_eq rfl rfl)
  · split at h
    · cases h; exact .same rfl
    · unfold pumpTx at h
      split at h
      · obtain ⟨u, hu, hr⟩ := andThen_eq_next h
        have := issue_ringMoved (r := r) (by exact hg) hu
        cases hr
        split <;> (cases r <;> exact this)
      · cases h; exact .same (ring_of_eq rfl rfl)

theorem syncHead_ring_self (k : Nat) : (syncHead r k s).ring r = { s.ring r with
    headSeen := ptrAdvance (s.cap r) (s.ring r).headSeen (min k ((s.ring r).headLag (s.cap r))) } := by cases r <;> rfl

theorem syncTail_ring_self (k : Nat) : (syncTail r k s).ring r = { s.ring r with
    tailSeen := ptrAdvance (s.cap r) (s.ring r).tailSeen (min k ((s.ring r).tailLag (s.cap r))) } := by cases r <;> rfl

theorem syncHead_ring_other (k : Nat) : (syncHead r k s).ring (otherRing r) = s.ring (otherRing r) := by cases r <;> rfl

theorem syncTail_ring_other (k : Nat) : (syncTail r k s).ring (otherRing r) = s.ring (otherRing r) := by cases r <;> rfl

theorem ring_eq_other {r' : RingSel} (h : r' ≠ r) : r = otherRing r' := by cases r <;> cases r' <;> simp_all [otherRing]

/-- Everything a step of `GRAY_CDC` can do to a ring. -/
theorem step_ring_gray (r : RingSel) (hg : s.params.syncMode = .grayCdc) (h : step s = .next t) :
    RingMoved (s.cap r) (s.ring r) (t.ring r) ∨ t.ring r = Ring.reset ∨
    (∃ k, Takes s (.syncH r k) ∧ t.ring r = { s.ring r with
      headSeen := ptrAdvance (s.cap r) (s.ring r).headSeen (min k ((s.ring r).headLag (s.cap r))) }) ∨
    (∃ k, Takes s (.syncT r k) ∧ t.ring r = { s.ring r with
      tailSeen := ptrAdvance (s.cap r) (s.ring r).tailSeen (min k ((s.ring r).tailLag (s.cap r))) }) := by
  obtain ⟨-, ⟨w, -, h⟩ | ⟨w, -, -, h⟩ | ⟨q, rest, hc, -⟩ | ⟨hw, rest, hc, -⟩ | ⟨-, -, rfl⟩ | ⟨e, rest, ha, hi, h⟩⟩ :=
    step_cases h
  · have := issue_ringMoved (r := r) (by exact hg) h
    left; cases r <;> exact this
  · have := issue_ringMoved (r := r) (by exact hg) h
    left; cases r <;> exact this
  · rw [hg] at hc; cases hc
  · rw [hg] at hc; cases hc
  · exact .inl (.same rfl)
  · have e0 : ({ s with inputs := rest } : State).ring r = s.ring r := by cases r <;> rfl
    have ec : ({ s with inputs := rest } : State).cap r = s.cap r := rfl
    cases e with
    | present => cases h; exact .inl (.same (ring_of_eq rfl rfl))
    | tick => cases h; exact .inl (.same (ring_of_eq rfl rfl))
    | reset => cases h; right; left; cases r <;> rfl
    | syncH r' k =>
      simp only [applyInput, onlyGray, hg, Host.Outcome.next.injEq] at h
      subst h
      by_cases hr : r' = r
      · subst hr
        exact .inr (.inr (.inl ⟨k, ⟨ha, rest, hi⟩, by rw [syncHead_ring_self, e0, ec]⟩))
      · refine .inl (.inl ?_)
        rw [← e0, ring_eq_other hr, syncHead_ring_other]
    | syncT r' k =>
      simp only [applyInput, onlyGray, hg, Host.Outcome.next.injEq] at h
      subst h
      by_cases hr : r' = r
      · subst hr
        exact .inr (.inr (.inr ⟨k, ⟨ha, rest, hi⟩, by rw [syncTail_ring_self, e0, ec]⟩))
      · refine .inl (.inl ?_)
        rw [← e0, ring_eq_other hr, syncTail_ring_other]
    | advance p =>
      simp only [applyInput, onlyGray, hg] at h
      cases p with
      | u =>
        have := advanceU_ringMoved (s := { s with inputs := rest }) (r := r) (by exact hg) h
        rw [e0, ec] at this; exact .inl this
      | s =>
        have := advanceS_ringMoved (s := { s with inputs := rest }) (r := r) (by exact hg) h
        rw [e0, ec] at this; exact .inl this

/-- A move the schedule gives an agent is that agent's move. -/
theorem step_advance {p : Port} {rest : List Input} (hl : s.params.legal = true) (hg : s.params.syncMode = .grayCdc)
    (ha : AwaitsInput s) (hi : s.inputs = .advance p :: rest) : step s = advanceAgent p { s with inputs := rest } := by
  rw [step_input hl ha hi]
  simp [applyInput, onlyGray, hg]

/-- A move of a write-callback under way. -/
theorem advanceU_wrcb {todo : List Byte} {len : Nat} (h : s.uTask = .wrcb todo len) :
    advanceU s = stepWrcb len todo s := by
  unfold advanceU stepUTask
  rw [h]

/-- A move of a read-callback under way. -/
theorem advanceU_rdcb {len left : Nat} {got : List Byte} (h : s.uTask = .rdcb len left got) :
    advanceU s = stepRdcb len left got s := by
  unfold advanceU stepUTask
  rw [h]

end Sys2Proof.Machine
end

