-- ==== Sys2Proof/Laws/PerInstr.lean ====
section
/-! SUPPORT. What holds of every operation as syntax, one lemma per constructor. -/

namespace Sys2Proof.Laws.Canonical

/-- An operation's canonical word carries its own code and has no bit outside those the operation uses
(`30_encoding.md` R51, R64). -/
def Statement (i : Instr) : Prop := opField (encode i) = i.op ∧ encode i &&& i.usedBits = encode i

theorem nop : Statement .nop := ⟨by decide, by decide⟩

theorem init (r : RingSel) : Statement (.init r) := by cases r <;> exact ⟨by decide, by decide⟩

theorem enq (r : RingSel) (b : Byte) : Statement (.enq r b) := by
  refine ⟨?_, BitVec.and_allOnes⟩
  cases r <;> (revert b; decide)

theorem deq (r : RingSel) : Statement (.deq r) := by cases r <;> exact ⟨by decide, by decide⟩

theorem isempty (r : RingSel) : Statement (.isempty r) := by cases r <;> exact ⟨by decide, by decide⟩

theorem isfull (r : RingSel) : Statement (.isfull r) := by cases r <;> exact ⟨by decide, by decide⟩

theorem initall : Statement .initall := ⟨by decide, by decide⟩

theorem rsvd7 : Statement .rsvd7 := ⟨by decide, by decide⟩

end Sys2Proof.Laws.Canonical
end

