-- ==== Sys2Proof/Tests/Slice0.lean ====
section
/-! SUPPORT. Tests from the spec's own encodings, examples and vectors, the smoke tests of the checks, and for every
statement with hypotheses a state that meets them. -/

namespace Sys2Proof.Machine.Tests

/-! Small states. -/

/-- An initialised ring. -/
def ring (head tail headSeen tailSeen : Nat) (data : Memory) : Ring := ⟨true, head, tail, headSeen, tailSeen, data⟩

/-- A `COOPERATIVE` machine with capacities 8. -/
def coop (tx rx : Ring) : State := { State.reset with tx := tx, rx := rx }

/-- A `GRAY_CDC` machine with capacities 8, its operation on port `p`. -/
def crossing (p : Port) (tx rx : Ring) : State :=
  { State.reset with params := { Params.standard with syncMode := .grayCdc }, port := p, tx := tx, rx := rx }

/-- The slots 0 to 6 of vector S1, holding their own index. -/
def seven : Memory := [(0, 0), (1, 1), (2, 2), (3, 3), (4, 4), (5, 5), (6, 6)]

/-- A full ring, as vector S1 leaves it before its row 9. -/
def fullRing : Ring := ring 0 7 0 0 seven

/-- A ring of two bytes, `0x41` and `0x42`. -/
def twoBytes : Ring := ring 0 2 0 0 [(0, 0x41), (1, 0x42)]

/-- A ring whose one byte stands in its last slot, so that its head wraps. -/
def lastSlot : Ring := ring 7 0 0 0 [(7, 0x5A)]

/-- An initialised empty ring. -/
def emptyRing : Ring := ring 0 0 0 0 []

/-- A ring of `GRAY_CDC` with one freed slot not yet seen by the producer, one byte the consumer sees, one it does not. -/
def lagging : Ring := ring 1 3 0 2 [(0, 0x10), (1, 0x11), (2, 0x12)]

/-- A ring's invariant in a form that evaluates. -/
theorem ringInv_of {p : Params} {r : RingSel} {q : Ring}
    (h : q.head < capOf p r ∧ q.tail < capOf p r ∧ q.headSeen < capOf p r ∧ q.tailSeen < capOf p r ∧
      Memory.wf (capOf p r) q.data = true ∧
      (q.inited = false → q.head = 0 ∧ q.tail = 0 ∧ q.headSeen = 0 ∧ q.tailSeen = 0) ∧
      (p.syncMode = .cooperative → q.headSeen = 0 ∧ q.tailSeen = 0) ∧
      (p.syncMode = .grayCdc →
        q.headLag (capOf p r) + q.seenOcc (capOf p r) + q.tailLag (capOf p r) ≤ capOf p r - 1) ∧
      ∀ i < q.occ (capOf p r), (Memory.read q.data (ptrAdvance (capOf p r) q.head i)).isSome) : RingInv p r q :=
  ⟨h.1, h.2.1, h.2.2.1, h.2.2.2.1, h.2.2.2.2.1, h.2.2.2.2.2.1, h.2.2.2.2.2.2.1, h.2.2.2.2.2.2.2.1, h.2.2.2.2.2.2.2.2⟩

theorem emptyRing_inv : RingInv Params.standard .tx emptyRing := ringInv_of (by decide)
theorem twoBytes_inv : RingInv Params.standard .rx twoBytes := ringInv_of (by decide)
theorem uninit_inv (r : RingSel) : RingInv Params.standard r Ring.reset := RingInv.reset (by decide)

/-! Decoding: words written out from the map of `30_encoding.md` R64, one for every operation and ring. -/

theorem test_decode_nop : decode 0b000_0_00000000#12 = .nop ∧ decode 0b000_1_11111111#12 = .nop := by decide
theorem test_decode_init : decode 0b001_0_00000000#12 = .init .tx ∧ decode 0b001_1_10100101#12 = .init .rx := by decide
theorem test_decode_enq :
    decode 0b010_0_01000001#12 = .enq .tx 0x41#8 ∧ decode 0b010_1_11111111#12 = .enq .rx 0xFF#8 := by decide
theorem test_decode_deq : decode 0b011_0_11111111#12 = .deq .tx ∧ decode 0b011_1_00000000#12 = .deq .rx := by decide
theorem test_decode_isempty : decode 0b100_0_00000000#12 = .isempty .tx ∧ decode 0b100_1_00000001#12 = .isempty .rx := by
  decide
theorem test_decode_isfull : decode 0b101_0_00000000#12 = .isfull .tx ∧ decode 0b101_1_10000000#12 = .isfull .rx := by
  decide
theorem test_decode_initall : decode 0b110_0_00000000#12 = .initall ∧ decode 0b110_1_11111111#12 = .initall := by decide
theorem test_decode_rsvd7 : decode 0b111_0_00000000#12 = .rsvd7 ∧ decode 0b111_0_01011010#12 = .rsvd7 := by decide

/-- The canonical words of R64. -/
theorem test_encode : encode .nop = 0x000 ∧ encode (.init .rx) = 0x300 ∧ encode (.enq .rx 0x0D) = 0x50D ∧
    encode (.deq .rx) = 0x700 ∧ encode (.isempty .rx) = 0x900 ∧ encode (.isfull .tx) = 0xA00 ∧ encode .initall = 0xC00 := by
  decide

/-- No thirteenth bit (R50), and rejection by name. -/
theorem test_decode_thirteen_bits : decodeNat 4095 = .ok .rsvd7 ∧ decodeNat 4096 = .error .notTwelveBits ∧
    decodeTableWord 16 4096 = none := by decide

/-- The assembler's forms (R60). -/
theorem test_assemble : assembleWord "ENQ" (some "RX") (some 13) = some 0x50D ∧
    assembleWord "dequeue" (some "tx") none = some 0x600 ∧ assembleWord "INITALL" none none = some 0xC00 ∧
    assembleWord "ENQ" (some "tx") (some 256) = none ∧ assembleWord "DEQ" none none = none := by decide

/-- Lines as the spec writes them (R60 and the conventions of `95_test_vectors.md`), and two that are none. -/
theorem test_assemble_line : assembleLine "U: ENQ tx, 0x55" = some (some .u, 0x455) ∧
    assembleLine "S: DEQ tx" = some (some .s, 0x600) ∧ assembleLine "enqueue RX, 13" = some (none, 0x50D) ∧
    assembleLine "NOP" = some (none, 0x000) ∧ assembleLine "ENQ tx, 256" = none ∧ assembleLine "ENQ tx 1" = none := by decide

/-- Responses as the spec writes them (R60). -/
theorem test_response_text : responseText (.deq .tx) 0x041 = "OK(0x41)" ∧ responseText (.enq .tx 7) 0x1AB = "FULL" ∧
    responseText (.deq .rx) 0x2AB = "EMPTY" ∧ responseText (.isempty .rx) 0x301 = "UNINIT(1)" ∧
    responseText (.isfull .tx) 0x000 = "OK(0)" ∧ responseText .nop 0x0FF = "OK" := by decide

/-- Response words (`95_test_vectors.md`, conventions). -/
theorem test_response : rspWord .ok 0x41 = 0x041#10 ∧ rspWord .full 0 = 0x100#10 ∧ rspWord .empty 0 = 0x200#10 ∧
    rspWord .uninit 1 = 0x301#10 := by decide

/-! The checks of WellFormed, each on an ill-formed term. -/

theorem smoke_capacity_one : legalCap 1 = false := by decide
theorem smoke_capacity_zero : legalCap 0 = false := by decide
theorem smoke_capacity_six : legalCap 6 = false := by decide
theorem smoke_capacity_rx : ({ Params.standard with capRx := 12 } : Params).legal = false := by decide
theorem smoke_one_stage : ({ Params.standard with syncStages := 1 } : Params).legal = false := by decide
theorem smoke_empty_packet : packetOk 8 [] = false := by decide
theorem smoke_prefix_too_large : packetOk 8 [2, 0x41] = false := by decide
theorem smoke_packet_too_long : packetOk 8 [1, 2, 3, 4, 5, 6, 7, 8, 9] = false := by decide
theorem smoke_read_of_nothing : readLengthOk 8 0 = false := by decide
theorem smoke_read_too_long : readLengthOk 8 9 = false := by decide
theorem smoke_legal : legalCap 2 = true ∧ legalCap 8 = true ∧ packetOk 8 [0] = true ∧ readLengthOk 8 8 = true := by decide
/-- No operation is ill formed (R52, R53), so its check refuses none. -/
theorem smoke_every_operation : ∀ i : Instr, i.wellFormed = true := by intro i; cases i <;> rfl

/-- The step refuses what the check refuses (U12). -/
theorem smoke_step : step { State.reset with params := { Params.standard with capTx := 6 } } = .refused .illegalParams :=
  rfl

/-! One step of each operation: the worked examples of `40_ring_ops.md` and `42_gray_cdc_option.md`. -/

/-- R71. -/
theorem test_nop : ∃ t, exec .nop (coop twoBytes lastSlot) = .next t ∧ Answered (coop twoBytes lastSlot) t .ok ∧
    t.tx = twoBytes ∧ t.rx = lastSlot := ⟨_, rfl, ⟨_, rfl⟩, rfl, rfl⟩

/-- R81: the word `0xE5A` on any state. -/
theorem test_rsvd7 : ∃ t, step ((coop fullRing emptyRing).withFetchWord 16 0xE5A) = .next t ∧
    Answered (coop fullRing emptyRing) t .ok ∧ t.tx = fullRing ∧ t.lineU = none := ⟨_, rfl, ⟨_, rfl⟩, rfl, rfl⟩

/-- R72. -/
theorem test_init : ∃ t, exec (.init .tx) (coop (ring 3 6 0 0 seven) twoBytes) = .next t ∧
    t.tx = ring 0 0 0 0 seven ∧ t.rx = twoBytes := ⟨_, rfl, rfl, rfl⟩

/-- R144: the seen pointers too. -/
theorem test_init_gray : ∃ t, exec (.init .rx) (crossing .u twoBytes lagging) = .next t ∧
    t.rx = ring 0 0 0 0 lagging.data ∧ t.tx = twoBytes := ⟨_, rfl, rfl, rfl⟩

/-- R80. -/
theorem test_initall : ∃ t, exec .initall (coop (ring 2 5 0 0 seven) (ring 7 1 0 0 seven)) = .next t ∧
    t.tx = ring 0 0 0 0 seven ∧ t.rx = ring 0 0 0 0 seven := ⟨_, rfl, rfl, rfl⟩

/-- R80 on port S in `GRAY_CDC` (R135). -/
theorem test_initall_port_s : exec .initall (crossing .s twoBytes twoBytes) = .refused .wrongPort := rfl

/-- R73: the eighth byte is refused. -/
theorem test_enq_full : ∃ t, exec (.enq .tx 7) (coop fullRing emptyRing) = .next t ∧
    Answered (coop fullRing emptyRing) t .full ∧ t.tx = fullRing := ⟨_, rfl, ⟨_, rfl⟩, rfl⟩

/-- R74: the slot written is the last, and the tail wraps. -/
theorem test_enq_wraps : ∃ t, exec (.enq .tx 7) (coop (ring 1 7 0 0 seven) emptyRing) = .next t ∧
    Answered (coop (ring 1 7 0 0 seven) emptyRing) t .ok ∧ t.tx = ring 1 0 0 0 (seven ++ [(7, 7)]) :=
  ⟨_, rfl, ⟨_, rfl⟩, rfl⟩

/-- R137: a spurious FULL, and the same ENQ after SYNC_H. -/
theorem test_enq_gray : (∃ t, exec (.enq .tx 0x55) (crossing .u (ring 2 7 0 7 seven) emptyRing) = .next t ∧
      Answered (crossing .u (ring 2 7 0 7 seven) emptyRing) t .full) ∧
    ∃ t, exec (.enq .tx 0x55) (crossing .u (ring 2 7 2 7 seven) emptyRing) = .next t ∧
      t.tx = ring 2 0 2 7 (seven ++ [(7, 0x55)]) := ⟨⟨_, rfl, ⟨_, rfl⟩⟩, _, rfl, rfl⟩

/-- R76. -/
theorem test_deq : ∃ t, exec (.deq .tx) (coop fullRing emptyRing) = .next t ∧
    AnsweredWith (coop fullRing emptyRing) t .ok 0x00 ∧ t.tx = ring 1 7 0 0 seven := ⟨_, rfl, rfl, rfl⟩

/-- R75. -/
theorem test_deq_empty : ∃ t, exec (.deq .rx) (coop fullRing (ring 2 2 0 0 [])) = .next t ∧
    Answered (coop fullRing emptyRing) t .empty ∧ t.rx = ring 2 2 0 0 [] := ⟨_, rfl, ⟨_, rfl⟩, rfl⟩

/-- R138: a spurious EMPTY, and the same DEQ after SYNC_T. -/
theorem test_deq_gray : (∃ t, exec (.deq .rx) (crossing .u emptyRing (ring 3 5 0 3 seven)) = .next t ∧
      Answered (crossing .u emptyRing emptyRing) t .empty) ∧
    ∃ t, exec (.deq .rx) (crossing .u emptyRing (ring 3 5 0 5 seven)) = .next t ∧
      AnsweredWith (crossing .u emptyRing emptyRing) t .ok 3 ∧ t.rx = ring 4 5 0 5 seven :=
  ⟨⟨_, rfl, ⟨_, rfl⟩⟩, _, rfl, rfl, rfl⟩

/-- R77, and on an uninitialised ring. -/
theorem test_isempty : (∃ t, exec (.isempty .rx) (coop fullRing (ring 5 5 0 0 [])) = .next t ∧ t.rspU = some 0x001) ∧
    ∃ t, exec (.isempty .rx) State.reset = .next t ∧ t.rspU = some 0x301 := ⟨⟨_, rfl, rfl⟩, _, rfl, rfl⟩

/-- R77: a full ring. -/
theorem test_isempty_full : ∃ t, exec (.isempty .tx) (coop fullRing emptyRing) = .next t ∧ t.rspU = some 0x000 :=
  ⟨_, rfl, rfl⟩

/-- R78, and on an uninitialised ring. -/
theorem test_isfull : (∃ t, exec (.isfull .tx) (coop fullRing emptyRing) = .next t ∧ t.rspU = some 0x001) ∧
    ∃ t, exec (.isfull .tx) State.reset = .next t ∧ t.rspU = some 0x300 := ⟨⟨_, rfl, rfl⟩, _, rfl, rfl⟩

/-- R139, on the consumer's port: the producer's side answers by `head_seen`, this one by `tail_seen`. -/
theorem test_isfull_gray :
    (∃ t, exec (.isfull .tx) (crossing .u (ring 2 7 0 7 seven) emptyRing) = .next t ∧ t.rspU = some 0x001) ∧
    ∃ t, exec (.isfull .tx) (crossing .s (ring 2 7 0 7 seven) emptyRing) = .next t ∧ t.rspS = some 0x000 :=
  ⟨⟨_, rfl, rfl⟩, _, rfl, rfl⟩

/-! The crossing: the table of R132, the examples of R140 and R142. -/

theorem test_gray_code : (List.range 8).map (fun x => gray (BitVec.ofNat 3 x)) =
    [0b000, 0b001, 0b011, 0b010, 0b110, 0b111, 0b101, 0b100] ∧
    (List.range 8).map (fun x => ungray (gray (BitVec.ofNat 3 x))) = (List.range 8).map (BitVec.ofNat 3) ∧
    (List.range 2).map (fun x => gray (BitVec.ofNat 1 x)) = [0, 1] := by decide

theorem test_sync_head :
    (List.range 5).map (fun k => (syncHead .tx k (crossing .u (ring 5 5 2 5 []) emptyRing)).tx.headSeen) = [2, 3, 4, 5, 5] := by decide

theorem test_sync_tail :
    (List.range 5).map (fun k => (syncTail .rx k (crossing .u emptyRing (ring 6 1 6 6 []))).rx.tailSeen) = [6, 7, 0, 1, 1] := by decide

/-! The clients: the examples of `41_client_sequences.md`. -/

/-- R104, R105 (vector S2): three bytes stored, eight counted. -/
theorem test_write_callback : ∃ t, step { coop emptyRing emptyRing with
      mode := .writeSerial, remaining := 8, usb := [.writeCallback [3, 0x41, 0x42, 0x43, 0, 0, 0, 0]] } = .next t ∧
    t.tx = ring 0 3 0 0 [(0, 0x41), (1, 0x42), (2, 0x43)] ∧ t.remaining = 0 ∧ t.mode = .idle ∧ t.out = [.complete] :=
  ⟨_, rfl, rfl, rfl, rfl, rfl⟩

/-- R106: the count and the packet's first three bytes; the other five are unspecified. -/
theorem test_read_callback : ∃ t a b c d e, step { coop emptyRing twoBytes with
      mode := .readSerial, remaining := 64, usb := [.readCallback 8] } = .next t ∧
    t.out = [.packet [2, 0x41, 0x42, a, b, c, d, e]] := by
  obtain ⟨u, bytes, k, h, hlen, -, -, ho, -, ⟨m, hm, hk, hb, -⟩, -⟩ :=
    runRdcb_coop 8 7 (s := { coop emptyRing twoBytes with mode := .readSerial, remaining := 64, uTask := .rdcb 8 7 [] })
      [] none ⟨by decide, emptyRing_inv, twoBytes_inv⟩ rfl (by decide)
  obtain rfl : m = 2 := hm.trans (by decide)
  obtain rfl : k = 2 := hk
  match bytes, hlen, hb with
  | [x, y, a, b, c, d, e], _, hb =>
    have h2 : List.take 2 (twoBytes.contents 8) = [some 0x41, some 0x42] := by decide
    obtain ⟨rfl, rfl⟩ : x = 0x41 ∧ y = 0x42 := by simpa using hb.trans h2
    exact ⟨_, a, b, c, d, e, h, by simp [finishRdcb, State.emit, ho]; rfl⟩

/-- R110. -/
theorem test_pump : ∃ t, step { coop twoBytes emptyRing with pumps := [⟨true, true, 0x0D⟩] } = .next t ∧
    t.out = [.hwRxRead 0x0D, .hwTx 0x41] ∧ t.tx = { twoBytes with head := 1 } ∧ t.rx = ring 0 1 0 0 [(0, 0x0D)] :=
  ⟨_, rfl, rfl, rfl, rfl⟩

/-- R101. -/
theorem test_configure : ∃ t, step { coop twoBytes lastSlot with usb := [.configure 9 9 9] } = .next t ∧
    t.tx = { twoBytes with tail := 0 } ∧ t.rx = { lastSlot with head := 0 } ∧ t.mode = .idle := ⟨_, rfl, rfl, rfl, rfl⟩

/-! ## Witnesses

For every statement with hypotheses a state and operands that meet them, each clause at a boundary where it has one. -/

/-- The invariant of a `COOPERATIVE` machine with given rings, idle clients and whatever else. -/
theorem inv_coop {s : State} (hp : s.params = Params.standard) (ht : RingInv Params.standard .tx s.tx)
    (hr : RingInv Params.standard .rx s.rx) (h : s.uTask = .idle) (h' : s.sTask = .idle) : Inv s :=
  ⟨by rw [hp]; decide, hp ▸ ht, hp ▸ hr, by simp [TaskInv, hp, Params.standard, h, h']⟩

theorem full_empty_inv : Inv (coop fullRing emptyRing) :=
  inv_coop rfl (ringInv_of (by decide)) (ringInv_of (by decide)) rfl rfl

theorem two_last_inv : Inv (coop twoBytes lastSlot) :=
  inv_coop rfl (ringInv_of (by decide)) (ringInv_of (by decide)) rfl rfl

theorem lagging_inv (p : Port) : Inv (crossing p lagging lagging) :=
  ⟨by cases p <;> decide, by cases p <;> exact ringInv_of (by decide), by cases p <;> exact ringInv_of (by decide),
    trivial⟩

/-- Nothing is presented and no tick is under way. -/
theorem coop_awaits (i : Input) : AwaitsInput { coop fullRing emptyRing with inputs := [i] } :=
  ⟨rfl, rfl, fun _ => ⟨rfl, rfl⟩⟩

theorem crossing_awaits (i : Input) : AwaitsInput { crossing .u lagging lagging with inputs := [i] } :=
  ⟨rfl, rfl, fun h => absurd h (by decide : (crossing .u lagging lagging).params.syncMode ≠ .cooperative)⟩

theorem witness_EncodedInstrDecodesToItself : (Instr.enq .rx 0xFF).wellFormed = true := by decide

theorem witness_DecodeIsTotalByOp : (0x5FF#12 &&& 0xE00#12) = 0x400#12 &&& 0xE00#12 := by decide

theorem witness_StepExecutesPresentedWord :
    ({ State.reset with lineU := some 0x5FF } : State).params.legal = true ∧ decode 0x5FF = .enq .rx 0xFF ∧
    ({ State.reset with lineU := some 0x5FF } : State).lineU = some 0x5FF ∧
    ({ State.reset with lineS := some 0x5FF } : State).lineU = none ∧
    ({ State.reset with lineS := some 0x5FF } : State).lineS = some 0x5FF := by decide

/-- Both ports at once: the byte port U stores is the byte port S takes. -/
theorem witness_PortUExecutesBeforePortS :
    (coop emptyRing emptyRing).params.legal = true ∧
    ∃ t u, step { coop emptyRing emptyRing with lineU := some 0x441, lineS := some 0x600 } = .next t ∧
      step t = .next u ∧ u.rspS = some 0x041 ∧ u.lineS = none := ⟨by decide, _, _, rfl, rfl, rfl, rfl⟩

theorem witness_CapacityIsPowerOfTwo :
    (∀ k, ({ State.reset with params := { Params.standard with capTx := 1 } } : State).cap .tx ≠ 2 ^ (k + 1)) ∧
    (∀ k, ({ State.reset with params := { Params.standard with capRx := 6 } } : State).cap .rx ≠ 2 ^ (k + 1)) ∧
    ({ Params.standard with capTx := 2 } : Params).capTx = 2 ^ (0 + 1) ∧
    ({ Params.standard with capTx := 2 } : Params).capRx = 2 ^ (2 + 1) ∧ 2 ≤ Params.standard.syncStages := by
  refine ⟨fun k => ?_, fun k => ?_, rfl, rfl, by decide⟩
  · show 1 ≠ _
    have := Nat.two_pow_pos k
    omega
  · show 6 ≠ _
    rcases k with _ | _ | k
    · decide
    · decide
    · have := Nat.two_pow_pos k
      omega

theorem witness_StepKeepsParameters : ∃ t, step { State.reset with inputs := [.tick [] ⟨true, true, 0⟩] } = .next t :=
  ⟨_, rfl⟩

theorem witness_ResetLeavesTheStatedState :
    AwaitsInput { coop fullRing emptyRing with inputs := [.reset] } ∧ (coop fullRing emptyRing).params.legal = true ∧
    ({ coop fullRing emptyRing with inputs := [.reset] } : State).inputs = .reset :: [] :=
  ⟨coop_awaits _, by decide, rfl⟩

theorem witness_OnlyResetUninitialises :
    (∃ (s t : State) (r : RingSel), step s = .next t ∧ (s.ring r).inited = true ∧ (t.ring r).inited = false) ∧
    (∃ (s t : State), exec (.enq .tx 7) s = .next t ∧ (s.ring .tx).inited = true) ∧
    ∃ (s t : State), exec (.deq .rx) s = .next t ∧ (s.ring .rx).inited = true :=
  ⟨⟨{ coop fullRing emptyRing with inputs := [.reset] }, _, .tx, rfl, rfl, rfl⟩, ⟨coop fullRing emptyRing, _, rfl, rfl⟩,
    coop fullRing emptyRing, _, rfl, rfl⟩

theorem witness_ResetMeetsInvariant :
    ({ Params.standard with capTx := 2, capRx := 256, syncMode := .grayCdc } : Params).legal = true := by decide

theorem witness_StepKeepsInvariant :
    Inv { crossing .u lagging lagging with inputs := [.syncT .tx 1] } ∧
    ∃ t, step { crossing .u lagging lagging with inputs := [.syncT .tx 1] } = .next t ∧ t.tx.tailSeen = 3 :=
  ⟨⟨(lagging_inv .u).legal, (lagging_inv .u).tx, (lagging_inv .u).rx, trivial⟩, _, rfl, rfl⟩

theorem witness_InvariantStepsNeverFault : Inv (coop twoBytes lastSlot) := two_last_inv

theorem witness_EmptyAndFullNeverBoth :
    ({ coop emptyRing emptyRing with params := { Params.standard with capTx := 2 } } : State).params.legal = true := by
  decide

theorem witness_NopAndReservedAnswerOk : (∃ i : Instr, i = .nop) ∧ ∃ i : Instr, i = .rsvd7 := ⟨⟨_, rfl⟩, _, rfl⟩

theorem witness_InitEmptiesRing :
    (coop fullRing lastSlot).params.legal = true ∧ (coop fullRing lastSlot).params.syncMode = .cooperative := by decide

theorem witness_InitallEmptiesBothRings : (coop fullRing lastSlot).params.syncMode = .cooperative := rfl

theorem witness_InitInGrayClearsSeenPointers :
    (crossing .u lagging lagging).params.syncMode = .grayCdc ∧ (crossing .u lagging lagging).port = .u := ⟨rfl, rfl⟩

theorem witness_EnqRefusals :
    (∃ (s : State) (r : RingSel), s.params.syncMode = .cooperative ∧ (s.ring r).inited = false) ∧
    ∃ (s : State) (r : RingSel), s.params.syncMode = .cooperative ∧ (s.ring r).inited = true ∧
      ((s.ring r).tail + 1) &&& (s.cap r - 1) = (s.ring r).head :=
  ⟨⟨State.reset, .tx, by decide⟩, coop fullRing emptyRing, .tx, by decide⟩

/-- The tail at its last value, one slot free. -/
theorem witness_EnqStoresAtTail : ∃ (s : State) (r : RingSel), s.params.legal = true ∧
    s.params.syncMode = .cooperative ∧ (s.ring r).head < s.cap r ∧ (s.ring r).tail < s.cap r ∧
    (s.ring r).inited = true ∧ ((s.ring r).tail + 1) &&& (s.cap r - 1) ≠ (s.ring r).head ∧
    (s.ring r).tail = s.cap r - 1 := ⟨coop (ring 1 7 0 0 seven) emptyRing, .tx, by decide⟩

theorem witness_DeqRefusals :
    (∃ (s : State) (r : RingSel), s.params.syncMode = .cooperative ∧ (s.ring r).inited = false) ∧
    ∃ (s : State) (r : RingSel), s.params.syncMode = .cooperative ∧ (s.ring r).inited = true ∧
      (s.ring r).head = (s.ring r).tail := ⟨⟨State.reset, .rx, by decide⟩, coop fullRing emptyRing, .rx, by decide⟩

/-- The head at its last value, one byte resident. -/
theorem witness_DeqReturnsByteAtHead : ∃ (s : State) (r : RingSel), s.params.legal = true ∧
    s.params.syncMode = .cooperative ∧ (s.ring r).head < s.cap r ∧ (s.ring r).tail < s.cap r ∧
    (s.ring r).inited = true ∧ (s.ring r).head ≠ (s.ring r).tail ∧ (s.ring r).head = s.cap r - 1 ∧
    Memory.read (s.ring r).data (s.ring r).head = some 0x5A := ⟨coop twoBytes lastSlot, .rx, by decide⟩

theorem witness_IsemptyAnswersPredicate :
    RingInv State.reset.params .tx (State.reset.ring .tx) ∧ (State.reset.ring .tx).inited = false ∧
    ((coop twoBytes lastSlot).ring .rx).head < (coop twoBytes lastSlot).cap .rx ∧
    ∃ t, exec (.isempty .rx) (coop twoBytes lastSlot) = .next t ∧ AnsweredWith (coop twoBytes lastSlot) t .ok 0 :=
  ⟨ringInv_of (by decide), rfl, by decide, _, rfl, rfl⟩

theorem witness_IsfullAnswersPredicate :
    RingInv State.reset.params .tx (State.reset.ring .tx) ∧ (State.reset.ring .tx).inited = false ∧
    (coop (ring 1 7 0 0 seven) emptyRing).params.legal = true ∧
    ((coop (ring 1 7 0 0 seven) emptyRing).ring .tx).tail < (coop (ring 1 7 0 0 seven) emptyRing).cap .tx ∧
    ∃ t, exec (.isfull .tx) (coop (ring 1 7 0 0 seven) emptyRing) = .next t ∧
      AnsweredWith (coop (ring 1 7 0 0 seven) emptyRing) t .ok 0 :=
  ⟨ringInv_of (by decide), rfl, by decide, by decide, _, rfl, rfl⟩

/-- A state for each arm: uninitialised, seen full, one slot seen free at the tail's last value. -/
theorem witness_EnqInGrayTestsHeadSeen :
    (∃ (s : State) (r : RingSel), s.params.syncMode = .grayCdc ∧ s.port = producer r ∧ (s.ring r).inited = false) ∧
    (∃ (s : State) (r : RingSel), s.params.syncMode = .grayCdc ∧ s.port = producer r ∧ (s.ring r).inited = true ∧
      ((s.ring r).tail + 1) &&& (s.cap r - 1) = (s.ring r).headSeen) ∧
    ∃ (s : State) (r : RingSel), s.params.syncMode = .grayCdc ∧ s.port = producer r ∧ (s.ring r).inited = true ∧
      ((s.ring r).tail + 1) &&& (s.cap r - 1) ≠ (s.ring r).headSeen ∧ (s.ring r).tail < s.cap r ∧
      (s.ring r).tail = s.cap r - 1 :=
  ⟨⟨crossing .u Ring.reset lagging, .tx, by decide⟩, ⟨crossing .u (ring 2 7 0 7 seven) emptyRing, .tx, by decide⟩,
    crossing .s emptyRing (ring 2 7 2 7 seven), .rx, by decide⟩

/-- A state for each arm: uninitialised, seen empty, a byte seen at the head's last value. -/
theorem witness_DeqInGrayTestsTailSeen :
    (∃ (s : State) (r : RingSel), s.params.syncMode = .grayCdc ∧ s.port = consumer r ∧ (s.ring r).inited = false) ∧
    (∃ (s : State) (r : RingSel), s.params.syncMode = .grayCdc ∧ s.port = consumer r ∧ (s.ring r).inited = true ∧
      (s.ring r).head = (s.ring r).tailSeen) ∧
    ∃ (s : State) (r : RingSel), s.params.syncMode = .grayCdc ∧ s.port = consumer r ∧ (s.ring r).inited = true ∧
      (s.ring r).head ≠ (s.ring r).tailSeen ∧ (s.ring r).head < s.cap r ∧ (s.ring r).head = s.cap r - 1 ∧
      Memory.read (s.ring r).data (s.ring r).head = some 9 :=
  ⟨⟨crossing .u lagging Ring.reset, .rx, by decide⟩, ⟨crossing .u emptyRing (ring 3 5 0 3 seven), .rx, by decide⟩,
    crossing .s (ring 7 1 7 0 [(0, 2), (7, 9)]) emptyRing, .tx, by decide⟩

theorem witness_PredicatesInGrayAnswerByView :
    (crossing .u lagging lagging).params.syncMode = .grayCdc ∧ (crossing .u lagging lagging).port = producer .tx ∧
    (crossing .s lagging lagging).port = consumer .tx := ⟨rfl, rfl, rfl⟩

theorem witness_WrongPortRefusedInGray :
    (crossing .s lagging lagging).params.syncMode = .grayCdc ∧ PortFits .s (.enq .tx 0) = false ∧
    PortFits .s (.deq .rx) = false ∧ PortFits .s .initall = false ∧ PortFits .s (.deq .tx) = true := by decide

theorem witness_PortsPolicedOnlyInGray :
    (∃ t, exec (.enq .tx 7) { coop twoBytes lastSlot with port := .s } = .next t ∧ t.tx.tail = 3) ∧
    (crossing .s lagging lagging).params.syncMode = .grayCdc ∧ PortFits (crossing .s lagging lagging).port (.init .tx) = false :=
  ⟨⟨_, rfl, rfl⟩, rfl, rfl⟩

theorem witness_RefusedOperationChangesNothing :
    ∃ t d, exec (.enq .tx 7) (coop fullRing emptyRing) = .next t ∧ AnsweredWith (coop fullRing emptyRing) t .full d ∧
      Status.full ≠ .ok := ⟨_, _, rfl, rfl, by decide⟩

theorem witness_EveryOperationCompletes :
    Inv (coop fullRing emptyRing) ∧ (coop fullRing emptyRing).params.syncMode = .cooperative ∧
    Inv (crossing .s lagging lagging) ∧ PortFits .s (.deq .tx) = true := ⟨full_empty_inv, rfl, lagging_inv .s, rfl⟩

theorem witness_OperationKeepsToItsRing :
    namedRing (.deq .rx) = some .rx ∧ ∃ t, exec (.deq .rx) (coop twoBytes lastSlot) = .next t := ⟨rfl, _, rfl⟩

theorem witness_SlotsChangeOnlyByEnqAtTail :
    ∃ t, exec (.enq .tx 7) (coop (ring 1 7 0 0 seven) emptyRing) = .next t ∧
      Memory.read (t.ring .tx).data 7 ≠ Memory.read ((coop (ring 1 7 0 0 seven) emptyRing).ring .tx).data 7 := by
  refine ⟨_, rfl, ?_⟩
  decide

theorem witness_PointersChangeOnlyAsNamed :
    (∃ t, exec (.deq .rx) (coop twoBytes lastSlot) = .next t ∧ t.rx.head ≠ lastSlot.head) ∧
    (∃ t, exec (.enq .tx 1) (coop twoBytes lastSlot) = .next t ∧ t.tx.tail ≠ twoBytes.tail) ∧
    ∃ t, exec .initall (coop twoBytes lastSlot) = .next t ∧ t.rx.head ≠ lastSlot.head ∧ t.tx.tail ≠ twoBytes.tail := by
  refine ⟨⟨_, rfl, ?_⟩, ⟨_, rfl, ?_⟩, _, rfl, ?_, ?_⟩ <;> decide

theorem witness_PayloadDoesNotSteerControl : ∃ t, exec (.deq .tx) (coop fullRing emptyRing) = .next t := ⟨_, rfl⟩

theorem witness_PointerIncrementIsModular : State.reset.params.legal = true ∧ 7 < State.reset.cap .tx ∧
    6 < State.reset.cap .tx - 1 := by decide

/-- One byte short of empty, and one byte short of full. -/
theorem witness_EnqAndDeqCommute : ∀ r : RingSel, ∃ s : State, s.params.legal = true ∧
    s.params.syncMode = .cooperative ∧ (s.ring r).head < s.cap r ∧ (s.ring r).tail < s.cap r ∧
    (s.ring r).inited = true ∧ (s.ring r).isEmpty = false ∧ (s.ring r).isFull (s.cap r) = false ∧
    (Memory.read (s.ring r).data (s.ring r).head).isSome = true := by
  intro r
  cases r
  · exact ⟨coop (ring 1 7 0 0 seven) lastSlot, by decide⟩
  · exact ⟨coop (ring 1 7 0 0 seven) lastSlot, by decide⟩

theorem witness_RingRefinesBoundedQueue :
    Inv (coop twoBytes lastSlot) ∧ (∃ t, exec (.deq .rx) (coop twoBytes lastSlot) = .next t) ∧
    Inv (crossing .u lagging lagging) ∧ ∃ t, exec (.enq .tx 1) (crossing .u lagging lagging) = .next t :=
  ⟨two_last_inv, ⟨_, rfl⟩, lagging_inv .u, _, rfl⟩

theorem witness_HistoryIsFirstInFirstOut :
    Inv (coop twoBytes lastSlot) ∧ (∃ t, exec (.init .tx) (coop twoBytes lastSlot) = .next t) ∧
    Inv (crossing .u lagging lagging) ∧ ∃ t, exec (.init .rx) (crossing .u lagging lagging) = .next t :=
  ⟨two_last_inv, ⟨_, rfl⟩, lagging_inv .u, _, rfl⟩

/-- The wrap, and the narrowest ring. -/
theorem witness_GrayStepChangesOneBit :
    State.reset.params.legal = true ∧ 7 < State.reset.cap .tx ∧
    ({ Params.standard with capTx := 2 } : Params).legal = true ∧ 1 < capOf { Params.standard with capTx := 2 } .tx := by
  decide

/-- Either synchroniser, with the whole lag of one. -/
theorem witness_SynchronisersMoveWithinLag :
    (∃ s : State, Inv s ∧ s.params.syncMode = .grayCdc ∧ AwaitsInput s ∧ s.inputs = .syncH .tx 1 :: [] ∧
      1 ≤ ptrDist (s.cap .tx) (s.ring .tx).headSeen (s.ring .tx).head ∧ 1 = (s.ring .tx).headLag (s.cap .tx)) ∧
    ∃ s : State, Inv s ∧ s.params.syncMode = .grayCdc ∧ AwaitsInput s ∧ s.inputs = .syncT .rx 1 :: [] ∧
      1 ≤ ptrDist (s.cap .rx) (s.ring .rx).tailSeen (s.ring .rx).tail ∧ 1 = (s.ring .rx).tailLag (s.cap .rx) :=
  ⟨⟨{ crossing .u lagging lagging with inputs := [.syncH .tx 1] },
      ⟨(lagging_inv .u).legal, (lagging_inv .u).tx, (lagging_inv .u).rx, trivial⟩, rfl, crossing_awaits _, rfl, by decide⟩,
    { crossing .u lagging lagging with inputs := [.syncT .rx 1] },
    ⟨(lagging_inv .u).legal, (lagging_inv .u).tx, (lagging_inv .u).rx, trivial⟩, rfl, crossing_awaits _, rfl, by decide⟩

/-- The ring `lagging`, its seen pointers at the given values. -/
def laggingAt (headSeen tailSeen : Nat) : Ring := { lagging with headSeen := headSeen, tailSeen := tailSeen }

/-- The run from `lagging` on both sides in which the synchronisers take turns: each catches up at its first move. -/
def turns (n : Nat) : State :=
  crossing .u (laggingAt (if 0 < n then 1 else 0) (if 1 < n then 3 else 2))
    (laggingAt (if 2 < n then 1 else 0) (if 3 < n then 3 else 2))

/-- Whose turn it is. -/
def turn : Nat → Input
  | 0 => .syncH .tx 1
  | 1 => .syncT .tx 1
  | 2 => .syncH .rx 1
  | _ => .syncT .rx 1

theorem turns_late (n : Nat) : turns (n + 4) = turns 4 := by
  have (k : Nat) (h : k < 4) : k < n + 4 := by omega
  simp [turns, this]

theorem turns_isRun : IsRun (fun n => [turn (n % 4)]) turns := by
  intro n
  rcases n with _ | _ | _ | _ | n
  · rfl
  · rfl
  · rfl
  · rfl
  · rw [turns_late, show n + 1 + 1 + 1 + 1 + 1 = n + 1 + 4 from rfl, turns_late]
    have h : ∀ k < 4, step ((turns 4).feed [turn k]) = .next (turns 4) := by
      intro k hk
      rcases k with _ | _ | _ | _ | k
      · rfl
      · rfl
      · rfl
      · rfl
      · omega
    exact h _ (Nat.mod_lt _ (by decide))

theorem turns_awaits (n : Nat) (es : List Input) : AwaitsInput ((turns n).feed es) :=
  ⟨rfl, rfl, fun h => absurd h (by decide : SyncMode.grayCdc ≠ .cooperative)⟩

theorem turns_keepsMoving : KeepsMoving (fun n => [turn (n % 4)]) turns := by
  have h (n k : Nat) (hk : k < 4) : ∃ m, n ≤ m ∧ Takes ((turns m).feed [turn (m % 4)]) (turn k) :=
    ⟨4 * n + k, by omega, turns_awaits _ _, [], by
      rw [show (4 * n + k) % 4 = k by omega]
      rfl⟩
  intro r n
  cases r
  · exact ⟨let ⟨m, a, b⟩ := h n 0 (by decide); ⟨m, 0, a, b⟩, let ⟨m, a, b⟩ := h n 1 (by decide); ⟨m, 0, a, b⟩⟩
  · exact ⟨let ⟨m, a, b⟩ := h n 2 (by decide); ⟨m, 0, a, b⟩, let ⟨m, a, b⟩ := h n 3 (by decide); ⟨m, 0, a, b⟩⟩

theorem turns_fair : WeaklyFair turns := by
  intro r
  constructor
  · intro n v h
    have hv : ((turns (n + 4)).ring r).head = v := h (n + 4) (by omega)
    refine ⟨n + 4, by omega, ?_⟩
    rw [← hv, turns_late]
    cases r <;> rfl
  · intro n v h
    have hv : ((turns (n + 4)).ring r).tail = v := h (n + 4) (by omega)
    refine ⟨n + 4, by omega, ?_⟩
    rw [← hv, turns_late]
    cases r <;> rfl

/-- A run whose synchronisers go on moving and are fair, its pointers at rest from the start, neither ring full or empty,
its seen pointers behind at first. -/
theorem witness_FairSynchronisersCatchUp :
    IsRun (fun n => [turn (n % 4)]) turns ∧ Inv (turns 0) ∧ (turns 0).params.syncMode = .grayCdc ∧
    KeepsMoving (fun n => [turn (n % 4)]) turns ∧ WeaklyFair turns ∧
    KeepsFrom (fun m => ((turns m).ring .tx).head) 0 1 ∧ KeepsFrom (fun m => ((turns m).ring .rx).tail) 0 3 ∧
    (∀ m, ((turns m).ring .tx).isFull ((turns m).cap .tx) = false ∧ ((turns m).ring .rx).isEmpty = false) ∧
    ((turns 0).ring .tx).headSeen ≠ 1 ∧ ((turns 0).ring .rx).tailSeen ≠ 3 :=
  ⟨turns_isRun, lagging_inv .u, rfl, turns_keepsMoving, turns_fair, fun _ _ => rfl, fun _ _ => rfl,
    fun _ => ⟨(by decide : decide ((3 + 1) &&& (8 - 1) = 1) = false), (by decide : decide (1 = 3) = false)⟩, by decide⟩

theorem witness_GrayCountsMoveAsStated :
    Inv (crossing .u lagging lagging) ∧ lagging.inited = true ∧
    (∃ t, exec (.enq .tx 1) (crossing .u lagging lagging) = .next t ∧ Answered (crossing .u lagging lagging) t .ok) ∧
    (∃ t, exec (.deq .rx) (crossing .u lagging lagging) = .next t ∧ Answered (crossing .u lagging lagging) t .ok) ∧
    ∃ t, exec .initall (crossing .u lagging lagging) = .next t :=
  ⟨lagging_inv .u, rfl, ⟨_, rfl, _, rfl⟩, ⟨_, rfl, _, rfl⟩, _, rfl⟩

theorem witness_GrayErrsTowardRefusal :
    Inv (crossing .u lagging lagging) ∧ (crossing .u lagging lagging).port = producer .tx ∧
    (crossing .u lagging lagging).seesFull .tx = false ∧ (crossing .u lagging lagging).port = consumer .rx ∧
    (crossing .u lagging lagging).seesEmpty .rx = false ∧
    ∃ t, exec (.deq .rx) (crossing .u lagging lagging) = .next t ∧ Answered (crossing .u lagging lagging) t .ok :=
  ⟨lagging_inv .u, rfl, by decide, rfl, by decide, _, rfl, _, rfl⟩

theorem witness_TickServesRequestsThenPumps : ∀ (q : List UsbReq) (w : List PumpIn) (e : List Input),
    (q = [.unknown] ∧ w = [⟨true, true, 0⟩] ∧ e = []) ∨ (q = [] ∧ w = [⟨true, true, 0⟩] ∧ e = []) ∨
      (q = [] ∧ w = [] ∧ e = [.tick [.unknown] ⟨true, true, 0⟩]) →
    ∃ s t : State, s.params.legal = true ∧ s.params.syncMode = .cooperative ∧ s.lineU = none ∧ s.lineS = none ∧
      s.usb = q ∧ s.pumps = w ∧ s.inputs = e ∧ step s = .next t := by
  rintro q w e (⟨rfl, rfl, rfl⟩ | ⟨rfl, rfl, rfl⟩ | ⟨rfl, rfl, rfl⟩)
  · exact ⟨{ coop twoBytes lastSlot with usb := [.unknown], pumps := [⟨true, true, 0⟩] }, _, by decide, rfl, rfl, rfl,
      rfl, rfl, rfl, rfl⟩
  · exact ⟨{ coop twoBytes lastSlot with pumps := [⟨true, true, 0⟩] }, _, by decide, rfl, rfl, rfl, rfl, rfl, rfl, rfl⟩
  · exact ⟨{ coop twoBytes lastSlot with inputs := [.tick [.unknown] ⟨true, true, 0⟩] }, _, by decide, rfl, rfl, rfl,
      rfl, rfl, rfl, rfl⟩

theorem witness_ConfigureReinitialisesRings : ∃ s : State, s.params.legal = true ∧ s.params.syncMode = .cooperative ∧
    s.lineU = none ∧ s.lineS = none ∧ s.mode = .idle ∧ s.uTask = .idle ∧ s.usb = .configure 9 9 9 :: [] :=
  ⟨{ coop twoBytes lastSlot with usb := [.configure 9 9 9] }, by decide⟩

theorem witness_SerialRequestStartsTransfer : ∀ q : UsbReq, ∃ s : State, s.params.legal = true ∧
    s.params.syncMode = .cooperative ∧ s.lineU = none ∧ s.lineS = none ∧ s.mode = .idle ∧ s.uTask = .idle ∧
    s.usb = q :: [] := fun q => ⟨{ coop twoBytes lastSlot with usb := [q] }, (by decide : Params.standard.legal = true), rfl, rfl, rfl, rfl, rfl, rfl⟩

theorem witness_UnfitRequestTouchesNoRing : ∀ q : UsbReq, q = .configure 0 8 0 ∨ q = .write 8 ∨ q = .unknown →
    ∃ s : State, s.params.legal = true ∧ s.params.syncMode = .cooperative ∧ s.lineU = none ∧ s.lineS = none ∧
      s.uTask = .idle ∧ s.usb = q :: [] ∧ (MismatchedRequest s.mode q = true ∨ q = .unknown) := by
  rintro q (rfl | rfl | rfl)
  · exact ⟨{ coop twoBytes lastSlot with mode := .writeSerial, usb := [.configure 0 8 0] }, by decide⟩
  · exact ⟨{ coop twoBytes lastSlot with mode := .readSerial, usb := [.write 8] }, by decide⟩
  · exact ⟨{ coop twoBytes lastSlot with mode := .readSerial, usb := [.unknown] }, by decide⟩

/-- A write-callback under way in a machine with two bytes in TxRing, or with TxRing uninitialised. -/
theorem writing (q : Ring) (hq : q = twoBytes ∨ q = Ring.reset) (n : Nat) (p : List Byte) : ∃ s : State, Inv s ∧
    s.params = Params.standard ∧ s.lineU = none ∧ s.lineS = none ∧ s.mode = .writeSerial ∧ s.remaining = n ∧
    s.usb = .writeCallback p :: [] ∧ s.tx = q := by
  refine ⟨{ coop q lastSlot with mode := .writeSerial, remaining := n, usb := [.writeCallback p] }, ?_, rfl, rfl, rfl,
    rfl, rfl, rfl, rfl⟩
  obtain rfl | rfl := hq
  · exact inv_coop rfl two_last_inv.tx two_last_inv.rx rfl rfl
  · exact inv_coop rfl (uninit_inv .tx) two_last_inv.rx rfl rfl

/-- A payload of seven where five fit, on an uninitialised ring, a prefix one too large, a packet one too long. -/
theorem witness_WriteCallbackStoresWhatFits :
    (∃ s : State, Inv s ∧ s.params = Params.standard ∧ s.lineU = none ∧ s.lineS = none ∧ s.mode = .writeSerial ∧
      s.remaining = 8 ∧ s.usb = .writeCallback (7 :: [1, 2, 3, 4, 5, 6, 7]) :: [] ∧ s.tx = twoBytes) ∧
    (∃ s : State, Inv s ∧ s.params = Params.standard ∧ s.lineU = none ∧ s.lineS = none ∧ s.mode = .writeSerial ∧
      s.remaining = 8 ∧ s.usb = .writeCallback (7 :: [1, 2, 3, 4, 5, 6, 7]) :: [] ∧ s.tx = Ring.reset) ∧
    (7#8).toNat ≤ [1#8, 2, 3, 4, 5, 6, 7].length ∧ [1#8, 2, 3, 4, 5, 6, 7].length + 1 ≤ Params.standard.pkt ∧
    twoBytes.inited = true ∧ Ring.reset.inited = false ∧
    (∃ s : State, Inv s ∧ s.params = Params.standard ∧ s.lineU = none ∧ s.lineS = none ∧ s.mode = .writeSerial ∧
      s.remaining = 8 ∧ s.usb = .writeCallback (2 :: [1]) :: [] ∧ s.tx = twoBytes) ∧
    [1#8].length < (2#8).toNat ∧
    (∃ s : State, Inv s ∧ s.params = Params.standard ∧ s.lineU = none ∧ s.lineS = none ∧ s.mode = .writeSerial ∧
      s.remaining = 8 ∧ s.usb = .writeCallback (1 :: [1, 2, 3, 4, 5, 6, 7, 8]) :: [] ∧ s.tx = twoBytes) ∧
    Params.standard.pkt < [1#8, 2, 3, 4, 5, 6, 7, 8].length + 1 :=
  ⟨writing _ (.inl rfl) _ _, writing _ (.inr rfl) _ _, by decide, by decide, rfl, rfl, writing _ (.inl rfl) _ _,
    by decide, writing _ (.inl rfl) _ _, by decide⟩

/-- The counter reaching zero exactly, and staying one above it. -/
theorem witness_WriteCallbackCountsRawBytes : ∀ n, n = 8 ∨ n = 9 →
    (∃ s : State, Inv s ∧ s.params = Params.standard ∧ s.lineU = none ∧ s.lineS = none ∧ s.mode = .writeSerial ∧
      s.remaining = n ∧ s.usb = .writeCallback (3 :: [0x41, 0x42, 0x43, 0, 0, 0, 0]) :: [] ∧ s.tx = twoBytes) ∧
    (3#8).toNat ≤ [0x41#8, 0x42, 0x43, 0, 0, 0, 0].length ∧
    [0x41#8, 0x42, 0x43, 0, 0, 0, 0].length + 1 ≤ Params.standard.pkt ∧
    [0x41#8, 0x42, 0x43, 0, 0, 0, 0].length + 1 ≤ n := by
  rintro n (rfl | rfl)
  · exact ⟨writing _ (.inl rfl) _ _, by decide⟩
  · exact ⟨writing _ (.inl rfl) _ _, by decide⟩

/-- A read-callback under way in a machine with two bytes in RxRing, or with RxRing uninitialised. -/
theorem reading (q : Ring) (hq : q = twoBytes ∨ q = Ring.reset) (len : Nat) : ∃ s : State, Inv s ∧
    s.params.syncMode = .cooperative ∧ s.params.pkt = 8 ∧ s.lineU = none ∧ s.lineS = none ∧ s.mode = .readSerial ∧
    s.usb = .readCallback len :: [] ∧ s.rx = q := by
  refine ⟨{ coop emptyRing q with mode := .readSerial, usb := [.readCallback len] }, ?_, rfl, rfl, rfl, rfl, rfl, rfl,
    rfl⟩
  obtain rfl | rfl := hq
  · exact inv_coop rfl emptyRing_inv twoBytes_inv rfl rfl
  · exact inv_coop rfl emptyRing_inv (uninit_inv .rx) rfl rfl

/-- Sizes 1, 3 and 8 against two bytes, and an uninitialised ring. -/
theorem witness_ReadCallbackReturnsWhatIsHeld : ∀ len q, 1 ≤ len → len ≤ 8 → q = twoBytes ∨ q = Ring.reset →
    ∃ s : State, Inv s ∧ s.params.syncMode = .cooperative ∧ s.params.pkt = 8 ∧ s.lineU = none ∧ s.lineS = none ∧
      s.mode = .readSerial ∧ s.usb = .readCallback len :: [] ∧ s.rx = q := fun len q _ _ h => reading q h len

theorem witness_ShortPacketEndsReadTransfer : ∀ len, len = 7 ∨ len = 8 →
    (∃ s : State, Inv s ∧ s.params.syncMode = .cooperative ∧ s.params.pkt = 8 ∧ s.lineU = none ∧ s.lineS = none ∧
      s.mode = .readSerial ∧ s.usb = .readCallback len :: [] ∧ s.rx = twoBytes) ∧ 1 ≤ len ∧ len ≤ 8 := by
  rintro len (rfl | rfl)
  · exact ⟨reading _ (.inl rfl) _, by decide⟩
  · exact ⟨reading _ (.inl rfl) _, by decide⟩

/-- Both halves with work, both ready with none to do: bytes both ways, then an empty TxRing and a full RxRing. -/
theorem witness_PumpMovesOneByteEachWay :
    (∃ (s : State) (hw : PumpIn), Inv s ∧ s.params.syncMode = .cooperative ∧ s.lineU = none ∧ s.lineS = none ∧
      s.usb = [] ∧ s.pumps = hw :: [] ∧ (hw.txReady = true ∧ s.tx.inited = true ∧ s.tx.isEmpty = false) ∧
      hw.rxReady = true ∧ s.rx.inited = true ∧ s.rx.isFull (s.cap .rx) = false) ∧
    ∃ (s : State) (hw : PumpIn), Inv s ∧ s.params.syncMode = .cooperative ∧ s.lineU = none ∧ s.lineS = none ∧
      s.usb = [] ∧ s.pumps = hw :: [] ∧ ¬ (hw.txReady = true ∧ s.tx.inited = true ∧ s.tx.isEmpty = false) ∧
      ¬ (hw.rxReady = true ∧ s.rx.inited = true ∧ s.rx.isFull (s.cap .rx) = false) :=
  ⟨⟨{ coop twoBytes lastSlot with pumps := [⟨true, true, 0x0D⟩] }, ⟨true, true, 0x0D⟩,
      inv_coop rfl two_last_inv.tx two_last_inv.rx rfl rfl, by decide⟩,
    { coop emptyRing fullRing with pumps := [⟨true, true, 0x0D⟩] }, ⟨true, true, 0x0D⟩,
      inv_coop rfl (ringInv_of (by decide)) (ringInv_of (by decide)) rfl rfl, by decide⟩

/-- A payload of seven on the write side, which fills TxRing; two bytes in a packet of eight on the read side. -/
theorem witness_FramingRoundTrip :
    (∃ s : State, Inv s ∧ s.params.syncMode = .cooperative ∧ s.lineU = none ∧ s.lineS = none ∧ s.mode = .writeSerial ∧
      s.usb = .writeCallback (7 :: ([1, 2, 3, 4, 5, 6, 7] ++ [])) :: [] ∧ (7#8).toNat = [1#8, 2, 3, 4, 5, 6, 7].length ∧
      ([1#8, 2, 3, 4, 5, 6, 7] ++ []).length + 1 ≤ s.params.pkt ∧ s.tx.inited = true ∧ s.tx.isEmpty = true ∧
      [1#8, 2, 3, 4, 5, 6, 7].length ≤ s.cap .tx - 1) ∧
    ∃ s : State, Inv s ∧ s.params.syncMode = .cooperative ∧ s.lineU = none ∧ s.lineS = none ∧ s.mode = .readSerial ∧
      s.usb = .readCallback 8 :: [] ∧ 8 ≤ s.params.pkt ∧ s.rx.inited = true ∧
      s.rx.contents (s.cap .rx) = [0x41#8, 0x42#8].map some ∧ [0x41#8, 0x42#8].length ≤ 8 - 1 :=
  ⟨⟨{ coop emptyRing lastSlot with mode := .writeSerial, usb := [.writeCallback [7, 1, 2, 3, 4, 5, 6, 7]] },
      inv_coop rfl emptyRing_inv two_last_inv.rx rfl rfl, by decide⟩,
    { coop emptyRing twoBytes with mode := .readSerial, usb := [.readCallback 8] },
      inv_coop rfl emptyRing_inv twoBytes_inv rfl rfl, by decide⟩

/-- A `GRAY_CDC` machine with the dispatcher or the pump somewhere in its work, and port `p`'s agent to move next. -/
def moving (p : Port) (tx rx : Ring) (u : UTask) (q : STask) : State :=
  { crossing .u tx rx with uTask := u, sTask := q, inputs := [.advance p] }

theorem moving_inv (p : Port) {tx rx : Ring} (u : UTask) (q : STask) (ht : RingInv (crossing .u tx rx).params .tx tx)
    (hr : RingInv (crossing .u tx rx).params .rx rx) (h : TaskInv (moving p tx rx u q)) : Inv (moving p tx rx u q) :=
  ⟨(lagging_inv .u).legal, ht, hr, h⟩

theorem moving_awaits (p : Port) (tx rx : Ring) (u : UTask) (q : STask) : AwaitsInput (moving p tx rx u q) :=
  ⟨rfl, rfl, fun h => absurd h (by decide : SyncMode.grayCdc ≠ .cooperative)⟩

/-- A ring of two bytes of which the consumer sees none. -/
def unseen : Ring := ring 3 5 0 3 seven

/-- A ring with room of which the producer sees none. -/
def crowded : Ring := ring 1 7 0 7 seven

theorem unseen_inv (r : RingSel) : RingInv (crossing .u unseen unseen).params r unseen := by
  cases r <;> exact ringInv_of (by decide)

theorem crowded_inv (r : RingSel) : RingInv (crossing .u crowded crowded).params r crowded := by
  cases r <;> exact ringInv_of (by decide)

/-- A read-callback of size 8 with two bytes stored and five slots to fill: one byte seen, and none seen; and one of size 3
with no slot left. -/
theorem witness_ReadCallbackInGrayStopsAtFailure :
    (∃ s : State, Inv s ∧ s.params.syncMode = .grayCdc ∧ AwaitsInput s ∧ s.inputs = .advance .u :: [] ∧
      s.uTask = .rdcb 8 (4 + 1) [0x68, 0x69] ∧ s.rx.inited = true ∧ s.rx.head ≠ s.rx.tailSeen) ∧
    (∃ s : State, Inv s ∧ s.params.syncMode = .grayCdc ∧ AwaitsInput s ∧ s.inputs = .advance .u :: [] ∧
      s.uTask = .rdcb 8 (4 + 1) [0x68, 0x69] ∧ s.rx.head = s.rx.tailSeen) ∧
    ∃ s : State, Inv s ∧ s.params.syncMode = .grayCdc ∧ AwaitsInput s ∧ s.inputs = .advance .u :: [] ∧
      s.uTask = .rdcb 3 0 [0x68, 0x69] ∧ 3 < s.params.pkt :=
  ⟨⟨moving .u lagging lagging (.rdcb 8 5 [0x68, 0x69]) .idle,
      moving_inv _ _ _ (lagging_inv .u).tx (lagging_inv .u).rx rfl, rfl, moving_awaits _ _ _ _ _, by decide⟩,
    ⟨moving .u lagging unseen (.rdcb 8 5 [0x68, 0x69]) .idle,
      moving_inv _ _ _ (lagging_inv .u).tx (unseen_inv .rx) rfl, rfl, moving_awaits _ _ _ _ _, by decide⟩,
    moving .u lagging lagging (.rdcb 3 0 [0x68, 0x69]) .idle,
    moving_inv _ _ _ (lagging_inv .u).tx (lagging_inv .u).rx rfl, rfl, moving_awaits _ _ _ _ _, by decide⟩

/-- R148: with no slot left the packet counts them all, and a packet shorter than `PKT` ends the transfer. -/
theorem test_rdcb_gray_last : ∃ t, step { moving .u lagging lagging (.rdcb 3 0 [0x68, 0x69]) .idle with
      mode := .readSerial, remaining := 40 } = .next t ∧
    t.out = [.packet [2, 0x68, 0x69]] ∧ t.mode = .idle ∧ t.uTask = .idle := ⟨_, rfl, rfl, rfl, rfl⟩

/-- The callbacks begin at their boundary sizes: a read-callback of 1 and of 8, a full packet of eight. -/
theorem witness_WriteCallbackAndPumpMoveInGray_begin : ∀ q m, (q = .readCallback 1 ∧ m = .readSerial) ∨
      (q = .readCallback 8 ∧ m = .readSerial) ∨ (q = .writeCallback (7 :: [1, 2, 3, 4, 5, 6, 7]) ∧ m = .writeSerial) →
    (∃ s : State, Inv s ∧ s.params = { Params.standard with syncMode := .grayCdc } ∧ AwaitsInput s ∧
      s.inputs = .advance .u :: [] ∧ s.uTask = .idle ∧ s.usb = q :: [] ∧ s.mode = m) ∧
    (7#8).toNat ≤ [1#8, 2, 3, 4, 5, 6, 7].length ∧ [1#8, 2, 3, 4, 5, 6, 7].length + 1 ≤ Params.standard.pkt ∧
    8 ≤ Params.standard.pkt :=
  fun q m _ => ⟨⟨{ moving .u lagging lagging .idle .idle with usb := [q], mode := m },
    ⟨(lagging_inv .u).legal, (lagging_inv .u).tx, (lagging_inv .u).rx, trivial⟩, rfl,
    ⟨rfl, rfl, fun h => absurd h (by decide : SyncMode.grayCdc ≠ .cooperative)⟩, rfl, rfl, rfl, rfl⟩, by decide⟩

/-- A write-callback's move with room seen and with none seen, and its end with the counter at zero and at one above. -/
theorem witness_WriteCallbackAndPumpMoveInGray_write :
    (∀ tx, tx = lagging ∨ tx = crowded → ∃ s : State, Inv s ∧ s.params.syncMode = .grayCdc ∧ AwaitsInput s ∧
      s.inputs = .advance .u :: [] ∧ s.uTask = .wrcb (0x41 :: []) 8 ∧ s.cap .tx = 8 ∧ s.tx = tx) ∧
    (lagging.inited = true ∧ (lagging.tail + 1) &&& (8 - 1) ≠ lagging.headSeen) ∧
    ¬ (crowded.inited = true ∧ (crowded.tail + 1) &&& (8 - 1) ≠ crowded.headSeen) ∧
    ∀ n, 8 ≤ n → ∃ s : State, Inv s ∧ s.params.syncMode = .grayCdc ∧ AwaitsInput s ∧ s.inputs = .advance .u :: [] ∧
      s.uTask = .wrcb [] 8 ∧ s.remaining = n := by
  refine ⟨?_, by decide, by decide, fun n _ => ?_⟩
  · rintro tx (rfl | rfl)
    · exact ⟨_, moving_inv .u (.wrcb [0x41] 8) .idle (lagging_inv .u).tx (lagging_inv .u).rx trivial, rfl,
        moving_awaits _ _ _ _ _, rfl, rfl, rfl, rfl⟩
    · exact ⟨_, moving_inv .u (tx := crowded) (rx := lagging) (.wrcb [0x41] 8) .idle (crowded_inv .tx)
        (lagging_inv .u).rx trivial, rfl,
        moving_awaits _ _ _ _ _, rfl, rfl, rfl, rfl⟩
  · exact ⟨{ moving .u lagging lagging (.wrcb [] 8) .idle with remaining := n },
      ⟨(lagging_inv .u).legal, (lagging_inv .u).tx, (lagging_inv .u).rx, trivial⟩, rfl,
      ⟨rfl, rfl, fun h => absurd h (by decide : SyncMode.grayCdc ≠ .cooperative)⟩, rfl, rfl, rfl⟩

/-- The pump's two halves: a byte seen and none seen to transmit, room seen and none seen to receive into. -/
theorem witness_WriteCallbackAndPumpMoveInGray_pump :
    (∀ tx, tx = lagging ∨ tx = unseen → ∃ s : State, Inv s ∧ s.params.syncMode = .grayCdc ∧ AwaitsInput s ∧
      s.inputs = .advance .s :: [] ∧ s.sTask = .idle ∧ s.pumps = ⟨true, true, 0x0D⟩ :: [] ∧ s.tx = tx) ∧
    (lagging.inited = true ∧ lagging.head ≠ lagging.tailSeen) ∧
    ¬ (unseen.inited = true ∧ unseen.head ≠ unseen.tailSeen) ∧
    (∀ rx, rx = lagging ∨ rx = crowded → ∃ s : State, Inv s ∧ s.params.syncMode = .grayCdc ∧ AwaitsInput s ∧
      s.inputs = .advance .s :: [] ∧ s.sTask = .rxHalf ⟨true, true, 0x0D⟩ ∧ s.cap .rx = 8 ∧ s.rx = rx) := by
  have tx_case (tx : Ring) (h : RingInv (crossing .u tx lagging).params .tx tx) : ∃ s : State, Inv s ∧
      s.params.syncMode = .grayCdc ∧ AwaitsInput s ∧ s.inputs = .advance .s :: [] ∧ s.sTask = .idle ∧
      s.pumps = ⟨true, true, 0x0D⟩ :: [] ∧ s.tx = tx :=
    ⟨{ moving .s tx lagging .idle .idle with pumps := [⟨true, true, 0x0D⟩] },
      ⟨(lagging_inv .u).legal, h, (lagging_inv .u).rx, trivial⟩, rfl,
      ⟨rfl, rfl, fun h => absurd h (by decide : SyncMode.grayCdc ≠ .cooperative)⟩, rfl, rfl, rfl, rfl⟩
  refine ⟨?_, by decide, by decide, ?_⟩
  · rintro tx (rfl | rfl)
    · exact tx_case _ (lagging_inv .u).tx
    · exact tx_case _ (unseen_inv .tx)
  · rintro rx (rfl | rfl)
    · exact ⟨_, moving_inv .s .idle (.rxHalf ⟨true, true, 0x0D⟩) (lagging_inv .u).tx (lagging_inv .u).rx trivial, rfl,
        moving_awaits _ _ _ _ _, rfl, rfl, rfl, rfl⟩
    · exact ⟨_, moving_inv .s (rx := crowded) .idle (.rxHalf ⟨true, true, 0x0D⟩) (lagging_inv .u).tx (crowded_inv .rx)
        trivial, rfl, moving_awaits _ _ _ _ _, rfl, rfl, rfl, rfl⟩

/-- R147: the transmit half alone, then the receive half alone. -/
theorem test_pump_gray : ∃ t u, step { moving .s lagging lagging .idle .idle with
      pumps := [⟨true, true, 0x0D⟩], inputs := [.advance .s, .advance .s] } = .next t ∧ step t = .next u ∧
    t.out = [.hwTx 0x11] ∧ t.rx = lagging ∧ u.out = [.hwRxRead 0x0D, .hwTx 0x11] ∧ u.rx.tail = 4 :=
  ⟨_, _, rfl, rfl, rfl, rfl, rfl, rfl⟩

theorem witness_CooperativeRefusesOverlap : ∀ e : Input, ∃ s : State, s.params.legal = true ∧
    s.params.syncMode = .cooperative ∧ AwaitsInput s ∧ s.inputs = e :: [] :=
  fun e => ⟨{ coop fullRing emptyRing with inputs := [e] }, (by decide : Params.standard.legal = true), rfl, coop_awaits e,
    rfl⟩

theorem witness_MachineRestsWithoutInput : State.reset.params.legal = true ∧ AwaitsInput State.reset ∧
    State.reset.inputs = [] := ⟨by decide, ⟨rfl, rfl, fun _ => ⟨rfl, rfl⟩⟩, rfl⟩

end Sys2Proof.Machine.Tests
end

section
/-! PROOFS. The parameters: which capacities are legal (`00_scope.md` R5), and that no step changes them (R6). -/

namespace Sys2Proof.Machine

variable {s t : State}

/-! Legal capacities. -/

/-- The legal capacities are the powers of two from 2 on. -/
theorem legalCap_iff_two_pow_succ {cap : Nat} : legalCap cap = true ↔ ∃ k, cap = 2 ^ (k + 1) := by
  rw [legalCap_iff]
  constructor
  · rintro ⟨two_le, pow_log⟩
    have log_pos : 0 < cap.log2 := (Nat.le_log2 (by omega)).mpr two_le
    exact ⟨cap.log2 - 1, by rw [Nat.sub_add_cancel log_pos, pow_log]⟩
  · rintro ⟨k, rfl⟩
    exact ⟨Nat.le_self_pow k.succ_ne_zero 2, by rw [Nat.log2_two_pow]⟩

theorem params_legal_iff {p : Params} :
    p.legal = true ↔ legalCap p.capTx = true ∧ legalCap p.capRx = true ∧ 2 ≤ p.syncStages := by
  simp [Params.legal, and_assoc]

/-! What one move of an agent in `GRAY_CDC` does to the parameters. -/

theorem stepWrcb_params {len : Nat} {todo : List Byte} (h : stepWrcb len todo s = .next t) : t.params = s.params := by
  cases todo with
  | nil => cases h; exact (finishWrcb_frame len s).1
  | cons b rest =>
    obtain ⟨u, issued, h⟩ := andThen_eq_next h
    cases h
    exact (issue_frame issued).1

theorem stepRdcb_params {len left : Nat} {got : List Byte} (h : stepRdcb len left got s = .next t) :
    t.params = s.params := by
  cases left with
  | zero => cases h; rfl
  | succ left =>
    obtain ⟨u, issued, h⟩ := andThen_eq_next h
    have kept : u.params = s.params := (issue_frame issued).1
    split at h
    · cases h; exact kept
    · cases h; exact kept

theorem stepUTask_params (h : stepUTask s = .next t) : t.params = s.params := by
  unfold stepUTask at h
  split at h
  · cases h; rfl
  · exact stepWrcb_params h
  · exact stepRdcb_params h

theorem advanceU_params (h : advanceU s = .next t) : t.params = s.params := by
  unfold advanceU at h
  split at h
  · split at h
    · cases h; rfl
    · exact (beginRequest_frame h).1
  · exact stepUTask_params h
  · exact stepUTask_params h

theorem advanceS_params (h : advanceS s = .next t) : t.params = s.params := by
  unfold advanceS at h
  split at h
  · exact (pumpRx_frame h).1
  · split at h
    · cases h; rfl
    · exact (pumpTx_frame h).1

/-! What an input, and with it a step, does to the parameters. -/

@[simp] theorem syncHead_params (r : RingSel) (k : Nat) (s : State) : (syncHead r k s).params = s.params :=
  setRing_params s r _

@[simp] theorem syncTail_params (r : RingSel) (k : Nat) (s : State) : (syncTail r k s).params = s.params :=
  setRing_params s r _

theorem onlyGray_eq_next {why : Refusal} {k : State → Host.Outcome State Fault Refusal}
    (h : onlyGray why k s = .next t) : s.params.syncMode = .grayCdc ∧ k s = .next t := by
  cases mode : s.params.syncMode with
  | cooperative => simp [onlyGray, mode] at h
  | grayCdc => simpa [onlyGray, mode] using h

theorem applyInput_params {e : Input} (h : applyInput e s = .next t) : t.params = s.params := by
  cases e with
  | present u v => cases h; rfl
  | tick requests hw => cases h; rfl
  | reset => cases h; rfl
  | advance p =>
    obtain ⟨-, moved⟩ := onlyGray_eq_next h
    cases p with
    | u => exact advanceU_params moved
    | s => exact advanceS_params moved
  | syncH r k =>
    obtain ⟨-, moved⟩ := onlyGray_eq_next (k := fun u => .next (syncHead r k u)) h
    cases moved
    exact syncHead_params r k s
  | syncT r k =>
    obtain ⟨-, moved⟩ := onlyGray_eq_next (k := fun u => .next (syncTail r k u)) h
    cases moved
    exact syncTail_params r k s

theorem step_params (h : step s = .next t) : t.params = s.params := by
  obtain ⟨-, ⟨_, -, issued⟩ | ⟨_, -, -, issued⟩ | ⟨_, _, -, -, -, -, served⟩ | ⟨_, _, -, -, -, -, -, pumped⟩ |
    ⟨-, -, rfl⟩ | ⟨_, rest, -, -, applied⟩⟩ := step_cases h
  · exact (issue_frame issued).1
  · exact (issue_frame issued).1
  · exact (serveRequest_frame served).1
  · exact (runPump_frame pumped).1
  · rfl
  · exact applyInput_params (s := { s with inputs := rest }) applied

/-! The obligations. -/

/-- Settles O8: a legal choice of parameters has a power of two from 2 on as either capacity, so with any other capacity
the step refuses; two such powers are legal capacities. -/
theorem capacityIsPowerOfTwo : Obligations.CapacityIsPowerOfTwo := by
  refine ⟨fun s r no_pow => step_illegal (Bool.eq_false_iff.mpr fun legal => ?_), fun p j k htx hrx stages => ?_⟩
  · obtain ⟨k, hk⟩ := legalCap_iff_two_pow_succ.mp (cap_legal legal r)
    exact no_pow k hk
  · exact params_legal_iff.mpr
      ⟨legalCap_iff_two_pow_succ.mpr ⟨j, htx⟩, legalCap_iff_two_pow_succ.mpr ⟨k, hrx⟩, stages⟩

/-- Settles O9: whatever a step takes up (a presented word, a request, a pump step, an input) keeps the parameters. -/
theorem stepKeepsParameters : Obligations.StepKeepsParameters := fun _ _ => step_params

end Sys2Proof.Machine
end

section
/-! PROOFS. The invariant: it holds after reset, and every step keeps it (`10_state.md` R17, R23, R24;
`42_gray_cdc_option.md` R145). -/

namespace Sys2Proof.Machine

variable {s t : State}

/-! The clause on the clients' sequences, by profile. -/

theorem taskInv_coop_iff (hc : s.params.syncMode = .cooperative) :
    TaskInv s ↔ s.uTask = .idle ∧ s.sTask = .idle := by simp [TaskInv, hc]

theorem taskInv_gray_iff (hg : s.params.syncMode = .grayCdc) :
    TaskInv s ↔ ∀ len left got, s.uTask = .rdcb len left got → got.length + left + 1 = len := by
  cases task : s.uTask <;> simp [TaskInv, hg, task]

theorem TaskInv.of_eq (hs : TaskInv s) (hp : t.params = s.params) (hu : t.uTask = s.uTask) (hq : t.sTask = s.sTask) :
    TaskInv t := by
  simpa [TaskInv, hp, hu, hq] using hs

theorem RingsInv.inv (hs : RingsInv s) (tasks : TaskInv s) : Inv s := ⟨hs.1, hs.2.1, hs.2.2, tasks⟩

/-- The invariant speaks of the parameters, the rings and the sequences only. -/
theorem Inv.of_eq (hs : Inv s) (hp : t.params = s.params) (htx : t.tx = s.tx) (hrx : t.rx = s.rx)
    (hu : t.uTask = s.uTask) (hq : t.sTask = s.sTask) : Inv t :=
  (hs.rings.of_eq hp htx hrx).inv (hs.tasks.of_eq hp hu hq)

/-! After reset. -/

theorem reset_ring (r : RingSel) : State.reset.ring r = Ring.reset := by cases r <;> rfl

theorem resetEvent_ring (s : State) (r : RingSel) : (resetEvent s).ring r = Ring.reset := by cases r <;> rfl

theorem inv_reset_params {p : Params} (legal : p.legal = true) : Inv { State.reset with params := p } where
  legal := legal
  tx := .reset legal
  rx := .reset legal
  tasks := by cases mode : p.syncMode <;> simp [TaskInv, State.reset, mode]

theorem Inv.resetEvent (hs : Inv s) : Inv (resetEvent s) :=
  (inv_reset_params hs.legal).of_eq rfl rfl rfl rfl rfl

/-! `COOPERATIVE`: a whole sequence a step. -/

theorem serveRequest_keeps_inv {q : UsbReq} (hc : s.params.syncMode = .cooperative) (hs : Inv s)
    (h : serveRequest q s = .next t) : Inv t := by
  obtain ⟨params, -, -, -, -, sTask, -⟩ := serveRequest_frame h
  obtain ⟨u, begun, ran⟩ := andThen_eq_next h
  obtain ⟨rings, uTask, -⟩ := runUTask_keeps_rings (beginRequest_keeps_rings hs.rings begun) ran
  have idle : s.sTask = .idle := ((taskInv_coop_iff hc).mp hs.tasks).2
  exact rings.inv ((taskInv_coop_iff (by rw [params, hc])).mpr ⟨uTask, by rw [sTask, idle]⟩)

theorem runPump_keeps_inv {hw : PumpIn} (hs : Inv s) (h : runPump hw s = .next t) : Inv t := by
  obtain ⟨params, -, -, -, -, uTask, sTask, -⟩ := runPump_frame h
  obtain ⟨u, sent, received⟩ := andThen_eq_next h
  exact (pumpRx_keeps_rings (pumpTx_keeps_rings hs.rings sent) received).inv (hs.tasks.of_eq params uTask sTask)

/-! `GRAY_CDC`: one move of an agent, or of a synchroniser. -/

theorem stepWrcb_keeps_rings {len : Nat} {todo : List Byte} (hs : RingsInv s) (h : stepWrcb len todo s = .next t) :
    RingsInv t := by
  cases todo with
  | nil => cases h; exact hs.of_eq (finishWrcb_frame len s).1 (finishWrcb_rings len s).1 (finishWrcb_rings len s).2
  | cons b rest =>
    obtain ⟨u, issued, h⟩ := andThen_eq_next h
    cases h
    exact (issue_keeps_rings hs issued).of_eq rfl rfl rfl

theorem stepWrcb_uTask {len : Nat} {todo : List Byte} (h : stepWrcb len todo s = .next t) :
    t.uTask = .idle ∨ ∃ rest, t.uTask = .wrcb rest len := by
  cases todo with
  | nil =>
    cases h
    obtain ⟨-, -, -, -, -, uTask, -⟩ := finishWrcb_frame len s
    exact .inl uTask
  | cons b rest =>
    obtain ⟨u, -, h⟩ := andThen_eq_next h
    cases h
    exact .inr ⟨rest, rfl⟩

theorem stepRdcb_keeps_rings {len left : Nat} {got : List Byte} (hs : RingsInv s)
    (h : stepRdcb len left got s = .next t) : RingsInv t := by
  cases left with
  | zero => cases h; exact hs.of_eq rfl rfl rfl
  | succ left =>
    obtain ⟨u, issued, h⟩ := andThen_eq_next h
    have kept := issue_keeps_rings hs issued
    split at h
    · cases h; exact kept.of_eq rfl rfl rfl
    · cases h; exact kept.of_eq rfl rfl rfl

/-- A read-callback's move ends it or fills one of its slots (R148). -/
theorem stepRdcb_uTask {len left : Nat} {got : List Byte} (h : stepRdcb len left got s = .next t) :
    t.uTask = .idle ∨ ∃ left' v, left = left' + 1 ∧ t.uTask = .rdcb len left' (got ++ [v]) := by
  cases left with
  | zero => cases h; exact .inl rfl
  | succ left =>
    obtain ⟨u, -, h⟩ := andThen_eq_next h
    split at h
    · cases h; exact .inr ⟨left, _, rfl, rfl⟩
    · cases h; exact .inl rfl

theorem advanceU_rest (idle : s.uTask = .idle) (none_left : s.usb = []) : advanceU s = .next s := by
  simp only [advanceU, idle, none_left]

theorem advanceU_request {q : UsbReq} {rest : List UsbReq} (idle : s.uTask = .idle) (first : s.usb = q :: rest) :
    advanceU s = beginRequest q { s with usb := rest } := by
  simp only [advanceU, idle, first]

/-- A read-callback begins with nothing filled and one slot fewer to fill than its size (R148). -/
theorem beginRequest_keeps_inv {q : UsbReq} (hg : s.params.syncMode = .grayCdc) (hs : Inv s)
    (h : beginRequest q s = .next t) : Inv t := by
  obtain ⟨params, -, -, -, -, -, -, kept | ⟨_, _, wrcb⟩ | ⟨size, one_le, begun⟩⟩ := beginRequest_frame h <;>
    refine (beginRequest_keeps_rings hs.rings h).inv ((taskInv_gray_iff (by rw [params, hg])).mpr ?_)
  · rw [kept]
    exact (taskInv_gray_iff hg).mp hs.tasks
  · simp [wrcb]
  · intro len left got rdcb
    obtain ⟨rfl, rfl, rfl⟩ := UTask.rdcb.inj (rdcb.symm.trans begun)
    simp only [List.length_nil]
    omega

theorem stepWrcb_keeps_inv {len : Nat} {todo : List Byte} (hg : s.params.syncMode = .grayCdc) (hs : Inv s)
    (h : stepWrcb len todo s = .next t) : Inv t := by
  refine (stepWrcb_keeps_rings hs.rings h).inv ((taskInv_gray_iff (by rw [stepWrcb_params h, hg])).mpr ?_)
  obtain idle | ⟨_, wrcb⟩ := stepWrcb_uTask h
  · simp [idle]
  · simp [wrcb]

theorem stepRdcb_keeps_inv {size todo : Nat} {filled : List Byte} (hg : s.params.syncMode = .grayCdc) (hs : Inv s)
    (fits : filled.length + todo + 1 = size) (h : stepRdcb size todo filled s = .next t) : Inv t := by
  refine (stepRdcb_keeps_rings hs.rings h).inv ((taskInv_gray_iff (by rw [stepRdcb_params h, hg])).mpr ?_)
  obtain idle | ⟨_, _, rfl, next⟩ := stepRdcb_uTask h
  · simp [idle]
  · intro len left got rdcb
    obtain ⟨rfl, rfl, rfl⟩ := UTask.rdcb.inj (rdcb.symm.trans next)
    rw [List.length_append, List.length_singleton]
    omega

theorem advanceU_keeps_inv (hg : s.params.syncMode = .grayCdc) (hs : Inv s) (h : advanceU s = .next t) : Inv t := by
  cases task : s.uTask with
  | idle =>
    cases requests : s.usb with
    | nil => rw [advanceU_rest task requests] at h; cases h; exact hs
    | cons q rest =>
      rw [advanceU_request task requests] at h
      exact beginRequest_keeps_inv (s := { s with usb := rest }) hg (hs.of_eq rfl rfl rfl rfl rfl) h
  | wrcb todo len => exact stepWrcb_keeps_inv hg hs (advanceU_wrcb task ▸ h)
  | rdcb len left got =>
    exact stepRdcb_keeps_inv hg hs ((taskInv_gray_iff hg).mp hs.tasks _ _ _ task) (advanceU_rdcb task ▸ h)

theorem advanceS_keeps_rings (hs : RingsInv s) (h : advanceS s = .next t) : RingsInv t := by
  unfold advanceS at h
  split at h
  · exact pumpRx_keeps_rings (s := { s with sTask := .idle }) (hs.of_eq rfl rfl rfl) h
  · split at h
    · cases h; exact hs
    · rename_i hw rest _
      exact pumpTx_keeps_rings (s := { s with pumps := rest, sTask := .rxHalf hw }) (hs.of_eq rfl rfl rfl) h

theorem advanceS_uTask (h : advanceS s = .next t) : t.uTask = s.uTask := by
  unfold advanceS at h
  split at h
  · obtain ⟨-, -, -, -, -, -, -, uTask, -⟩ := pumpRx_frame h
    exact uTask
  · split at h
    · cases h; rfl
    · obtain ⟨-, -, -, -, -, -, -, uTask, -⟩ := pumpTx_frame h
      exact uTask

theorem advanceS_keeps_inv (hg : s.params.syncMode = .grayCdc) (hs : Inv s) (h : advanceS s = .next t) : Inv t := by
  refine (advanceS_keeps_rings hs.rings h).inv ((taskInv_gray_iff (by rw [advanceS_params h, hg])).mpr ?_)
  rw [advanceS_uTask h]
  exact (taskInv_gray_iff hg).mp hs.tasks

theorem Inv.setRing {r : RingSel} {q : Ring} (hs : Inv s) (hq : RingInv s.params r q) : Inv (s.setRing r q) := by
  cases r
  · exact ⟨hs.legal, hq, hs.rx, hs.tasks⟩
  · exact ⟨hs.legal, hs.tx, hq, hs.tasks⟩

theorem syncHead_keeps_inv (r : RingSel) (k : Nat) (hg : s.params.syncMode = .grayCdc) (hs : Inv s) :
    Inv (syncHead r k s) :=
  hs.setRing ((hs.ring r).syncHead hs.legal hg (Nat.min_le_right _ _)).1

theorem syncTail_keeps_inv (r : RingSel) (k : Nat) (hg : s.params.syncMode = .grayCdc) (hs : Inv s) :
    Inv (syncTail r k s) :=
  hs.setRing ((hs.ring r).syncTail hs.legal hg (Nat.min_le_right _ _)).1

/-! One step. -/

theorem applyInput_keeps_inv {e : Input} (hs : Inv s) (h : applyInput e s = .next t) : Inv t := by
  cases e with
  | present u v => cases h; exact hs.of_eq rfl rfl rfl rfl rfl
  | tick requests hw => cases h; exact hs.of_eq rfl rfl rfl rfl rfl
  | reset => cases h; exact hs.resetEvent
  | advance p =>
    obtain ⟨hg, moved⟩ := onlyGray_eq_next h
    cases p with
    | u => exact advanceU_keeps_inv hg hs moved
    | s => exact advanceS_keeps_inv hg hs moved
  | syncH r k =>
    obtain ⟨hg, moved⟩ := onlyGray_eq_next (k := fun u => .next (syncHead r k u)) h
    cases moved
    exact syncHead_keeps_inv r k hg hs
  | syncT r k =>
    obtain ⟨hg, moved⟩ := onlyGray_eq_next (k := fun u => .next (syncTail r k u)) h
    cases moved
    exact syncTail_keeps_inv r k hg hs

theorem step_keeps_inv (hs : Inv s) (h : step s = .next t) : Inv t := by
  obtain ⟨-, ⟨_, -, issued⟩ | ⟨_, -, -, issued⟩ | ⟨_, rest, hc, -, -, -, served⟩ | ⟨_, rest, -, -, -, -, -, pumped⟩ |
    ⟨-, -, rfl⟩ | ⟨_, rest, -, -, applied⟩⟩ := step_cases h
  · exact issue_keeps_inv (s := { s with lineU := none }) (hs.of_eq rfl rfl rfl rfl rfl) issued
  · exact issue_keeps_inv (s := { s with lineS := none }) (hs.of_eq rfl rfl rfl rfl rfl) issued
  · exact serveRequest_keeps_inv (s := { s with usb := rest }) hc (hs.of_eq rfl rfl rfl rfl rfl) served
  · exact runPump_keeps_inv (s := { s with pumps := rest }) (hs.of_eq rfl rfl rfl rfl rfl) pumped
  · exact hs
  · exact applyInput_keeps_inv (s := { s with inputs := rest }) (hs.of_eq rfl rfl rfl rfl rfl) applied

/-! The obligations. -/

/-- Settles O13: whatever a step takes up (a presented word, a request, a pump step, an input) keeps the invariant. -/
theorem stepKeepsInvariant : Obligations.StepKeepsInvariant := fun _ _ => step_keeps_inv

/-- Settles O12: a ring after reset meets the ring invariant for any legal parameters, and no sequence is under way. -/
theorem resetMeetsInvariant : Obligations.ResetMeetsInvariant :=
  ⟨inv_reset_params (p := Params.standard) (by decide), fun _ => inv_reset_params⟩

/-- Settles O10: `State.reset` has the stated values, and the reset event puts them back but for the parameters, the
inputs, the outputs and the count of free values. -/
theorem resetLeavesTheStatedState : Obligations.ResetLeavesTheStatedState := by
  refine ⟨fun r => ?_, rfl, fun s rest legal awaits next => ⟨_, step_input legal awaits next, rfl, rfl, fun r => ?_⟩⟩
  · rw [reset_ring]
    exact ⟨rfl, rfl, rfl, rfl, rfl⟩
  · rw [resetEvent_ring]
    exact ⟨rfl, rfl, rfl, rfl, rfl⟩

end Sys2Proof.Machine
end

section
/-! PROOFS. The rings under one operation: the bounded queue (`10_state.md` R20), which tests exclude each other (R22),
what an operation changes (R11, R12, R16) and what it depends on (R21). -/

namespace Sys2Proof.Machine

variable {s t : State} {r : RingSel} {i : Instr} {cap : Nat}

/-! Empty and Full, of the same pair of pointers. -/

theorem ptrNext_ne_self (hl : legalCap cap = true) (x : Nat) : ptrNext cap x ≠ x := by
  intro fixed
  have two_le := two_le_cap hl
  have x_lt : x < cap := fixed ▸ ptrNext_lt hl x
  rw [ptrNext_eq hl x_lt] at fixed
  split at fixed <;> omega

theorem not_viewEmpty_and_viewFull (hl : legalCap cap = true) (v : Nat × Nat) :
    ¬ (viewEmpty v = true ∧ viewFull cap v = true) := by
  simp only [viewEmpty, viewFull, decide_eq_true_eq]
  rintro ⟨empty, full⟩
  exact ptrNext_ne_self hl v.2 (full.trans empty)

/-! The contents under a test passed by the issuing port, and under INIT. -/

@[simp] theorem initRing_head (m : SyncMode) (q : Ring) : (initRing m q).head = 0 := by cases m <;> rfl
@[simp] theorem initRing_tail (m : SyncMode) (q : Ring) : (initRing m q).tail = 0 := by cases m <;> rfl
@[simp] theorem initRing_data (m : SyncMode) (q : Ring) : (initRing m q).data = q.data := by cases m <;> rfl

theorem contents_initRing (hl : legalCap cap = true) (m : SyncMode) (q : Ring) : (initRing m q).contents cap = [] := by
  simp [Ring.contents, Ring.occ, ptrDist_self hl]

theorem RingInv.head_resident {p : Params} {q : Ring} (hq : RingInv p r q) (legal : p.legal = true)
    (nonempty : q.isEmpty = false) : ∃ v, Memory.read q.data q.head = some v := by
  rw [← Option.isSome_iff_exists]
  apply resident_iff.mp hq.resident
  rw [contents_popped (cap_legal legal r) hq.head_lt hq.tail_lt nonempty]
  exact List.mem_cons_self

/-! What an operation that changes a ring does to it, and that it answers OK (`60_exceptions.md` R165). -/

theorem exec_ring_changes (h : exec i s = .next t) (r : RingSel) :
    t.ring r = s.ring r ∨
    (∃ b, i = .enq r b ∧ Answered s t .ok ∧ t.ring r = (s.ring r).pushed (s.cap r) b) ∨
    (i = .deq r ∧ Answered s t .ok ∧ t.ring r = (s.ring r).popped (s.cap r)) ∨
    ((i = .init r ∨ i = .initall) ∧ t.ring r = initRing s.params.syncMode (s.ring r)) := by
  obtain same | ⟨b, rfl, -⟩ | ⟨rfl, -⟩ | ⟨named, -, ring⟩ := exec_ring_cases h r
  · exact .inl same
  · obtain ⟨-, -, kept⟩ | ⟨-, -, -, kept⟩ | ⟨-, -, ok, ring, -⟩ := exec_enq_cases h
    · exact .inl (kept.ring r)
    · exact .inl (kept.ring r)
    · exact .inr (.inl ⟨b, rfl, ok, ring⟩)
  · obtain ⟨-, -, kept⟩ | ⟨-, -, -, kept⟩ | ⟨-, -, ok, ring, -⟩ := exec_deq_cases h
    · exact .inl (kept.ring r)
    · exact .inl (kept.ring r)
    · exact .inr (.inr (.inl ⟨rfl, ⟨_, ok⟩, ring⟩))
  · exact .inr (.inr (.inr ⟨named, ring⟩))

theorem mayIssue_of_exec_init (h : exec (.init r) s = .next t) : s.mayIssue .u = true :=
  (boundTo_eq_next (show boundTo .u (fun u => respondDraw .ok (u.initAt r)) s = _ from h)).1

theorem mayIssue_of_exec_initall (h : exec .initall s = .next t) : s.mayIssue .u = true :=
  (boundTo_eq_next (show boundTo .u (fun u => respondDraw .ok ((u.initAt .tx).initAt .rx)) s = _ from h)).1

theorem exec_init_ring (named : i = .init r ∨ i = .initall) (h : exec i s = .next t) :
    t.ring r = initRing s.params.syncMode (s.ring r) := by
  obtain rfl | rfl := named
  · rw [exec_init (mayIssue_of_exec_init h)] at h
    cases h
    simp [State.initAt]
  · rw [exec_initall (mayIssue_of_exec_initall h)] at h
    cases h
    cases r <;> simp [State.initAt]

/-! The bounded queue. -/

theorem Answered.not_of_ne {st st' : Status} (h : Answered s t st) (ne : st ≠ st') : ¬ Answered s t st' :=
  fun h' => ne (h.unique h')

theorem exec_enq_contents {b : Byte} (hs : Inv s) (h : exec (.enq r b) s = .next t) :
    (¬ Answered s t .ok ∧ t.ring r = s.ring r) ∨
    (Answered s t .ok ∧ (t.ring r).contents (s.cap r) = (s.ring r).contents (s.cap r) ++ [some b]) := by
  have hq := hs.ring r
  have hl : legalCap (s.cap r) = true := cap_legal hs.legal r
  obtain ⟨-, refused, kept⟩ | ⟨-, -, refused, kept⟩ | ⟨-, room, ok, ring, -⟩ := exec_enq_cases h
  · exact .inl ⟨refused.not_of_ne (by decide), kept.ring r⟩
  · exact .inl ⟨refused.not_of_ne (by decide), kept.ring r⟩
  · have not_full := hq.isFull_false hs.legal (room_of_seesFull room (boundTo_eq_next h).1)
    exact .inr ⟨ok, by rw [ring]; exact contents_pushed hl hq.head_lt hq.tail_lt not_full⟩

theorem exec_deq_contents (hs : Inv s) (h : exec (.deq r) s = .next t) :
    (¬ Answered s t .ok ∧ t.ring r = s.ring r) ∨
    ∃ v, AnsweredWith s t .ok v ∧ (s.ring r).contents (s.cap r) = some v :: (t.ring r).contents (s.cap r) := by
  have hq := hs.ring r
  have hl : legalCap (s.cap r) = true := cap_legal hs.legal r
  obtain ⟨-, refused, kept⟩ | ⟨-, -, refused, kept⟩ | ⟨-, byte, ok, ring, -⟩ := exec_deq_cases h
  · exact .inl ⟨refused.not_of_ne (by decide), kept.ring r⟩
  · exact .inl ⟨refused.not_of_ne (by decide), kept.ring r⟩
  · have nonempty := hq.isEmpty_false hs.legal (byte_of_seesEmpty byte (boundTo_eq_next h).1)
    obtain ⟨v, read⟩ := hq.head_resident hs.legal nonempty
    refine .inr ⟨v, by simpa [State.slotByte, read] using ok, ?_⟩
    rw [ring, contents_popped hl hq.head_lt hq.tail_lt nonempty, read]

theorem exec_queueEffect (hs : Inv s) (r : RingSel) (h : exec i s = .next t) : QueueEffect r i s t := by
  have cap : t.cap r = s.cap r := (exec_frame h).cap r
  constructor <;> rw [cap]
  case emptied =>
    intro named
    rw [exec_init_ring named h]
    exact contents_initRing (cap_legal hs.legal r) _ _
  case appended =>
    rintro b rfl ok
    obtain ⟨not_ok, -⟩ | ⟨-, contents⟩ := exec_enq_contents hs h
    · exact absurd ok not_ok
    · exact contents
  case refusedEnq =>
    rintro b rfl not_ok
    obtain ⟨-, same⟩ | ⟨ok, -⟩ := exec_enq_contents hs h
    · rw [same]
    · exact absurd ok not_ok
  case removed =>
    rintro rfl ok
    obtain ⟨not_ok, -⟩ | removed := exec_deq_contents hs h
    · exact absurd ok not_ok
    · exact removed
  case refusedDeq =>
    rintro rfl not_ok
    obtain ⟨-, same⟩ | ⟨v, ok, -⟩ := exec_deq_contents hs h
    · rw [same]
    · exact absurd ⟨v, ok⟩ not_ok
  case untouched =>
    intro not_init not_initall not_enq not_deq
    obtain same | ⟨b, enq, -⟩ | ⟨deq, -⟩ | ⟨init | initall, -⟩ := exec_ring_changes h r
    · rw [same]
    · exact absurd enq (not_enq b)
    · exact absurd deq not_deq
    · exact absurd init not_init
    · exact absurd initall not_initall

/-! An operation that names one ring, with another ring put in the place of the other. -/

section OtherRing

variable (q : Ring)

theorem ring_setRing_other : (s.setRing (otherRing r) q).ring r = s.ring r := by cases r <;> rfl

theorem setRing_setRing_other (q' : Ring) :
    (s.setRing (otherRing r) q).setRing r q' = (s.setRing r q').setRing (otherRing r) q := by cases r <;> rfl

theorem answer_setRing (r : RingSel) (st : Status) (d : Byte) :
    (s.setRing r q).answer st d = (s.answer st d).setRing r q := by
  cases r <;> cases port : s.port <;> simp [State.answer, State.setRing, State.setRsp, port]

theorem answerDraw_setRing (r : RingSel) (st : Status) :
    (s.setRing r q).answerDraw st = (s.answerDraw st).setRing r q := by
  cases r <;> cases port : s.port <;> simp [State.answerDraw, State.answer, State.setRing, State.setRsp, port]

theorem answeredSlot_setRing (r : RingSel) (v : Option Byte) :
    (s.setRing r q).answeredSlot v = (s.answeredSlot v).setRing r q := by
  cases v with
  | none => exact answerDraw_setRing q r .ok
  | some v => exact answer_setRing q r .ok v

theorem mayIssue_setRing (r : RingSel) (p : Port) : (s.setRing r q).mayIssue p = s.mayIssue p := by
  simp [State.mayIssue]

theorem seesFull_setRing_other : (s.setRing (otherRing r) q).seesFull r = s.seesFull r := by
  simp [State.seesFull, State.view, ring_setRing_other]

theorem seesEmpty_setRing_other : (s.setRing (otherRing r) q).seesEmpty r = s.seesEmpty r := by
  simp [State.seesEmpty, State.view, ring_setRing_other]

theorem enqueue_setRing_other {b : Byte} (h : enqueue r b s = .next t) :
    enqueue r b (s.setRing (otherRing r) q) = .next (t.setRing (otherRing r) q) := by
  have ring := ring_setRing_other (s := s) (r := r) q
  have sees := seesFull_setRing_other (s := s) (r := r) q
  obtain ⟨uninit, rfl⟩ | ⟨inited, full, rfl⟩ | ⟨inited, room, tail_lt, rfl⟩ := enqueue_cases h
  · rw [enqueue_uninit (ring ▸ uninit), answerDraw_setRing]
  · rw [enqueue_full (ring ▸ inited) (sees ▸ full), answerDraw_setRing]
  · rw [enqueue_ok (ring ▸ inited) (sees ▸ room) (by rw [ring, setRing_cap]; exact tail_lt), ring, setRing_cap,
      setRing_setRing_other, answerDraw_setRing]

theorem dequeue_setRing_other (h : dequeue r s = .next t) :
    dequeue r (s.setRing (otherRing r) q) = .next (t.setRing (otherRing r) q) := by
  have ring := ring_setRing_other (s := s) (r := r) q
  have sees := seesEmpty_setRing_other (s := s) (r := r) q
  obtain ⟨uninit, rfl⟩ | ⟨inited, empty, rfl⟩ | ⟨inited, byte, head_lt, rfl⟩ := dequeue_cases h
  · rw [dequeue_uninit (ring ▸ uninit), answerDraw_setRing]
  · rw [dequeue_empty (ring ▸ inited) (sees ▸ empty), answerDraw_setRing]
  · rw [dequeue_ok (ring ▸ inited) (sees ▸ byte) (by rw [ring, setRing_cap]; exact head_lt), ring, setRing_cap,
      setRing_setRing_other, answeredSlot_setRing]

/-- An operation that names a ring commutes with replacing the other one (R21). -/
theorem exec_setRing_other (named : namedRing i = some r) (h : exec i s = .next t) :
    exec i (s.setRing (otherRing r) q) = .next (t.setRing (otherRing r) q) := by
  have may (p : Port) (hp : s.mayIssue p = true) : (s.setRing (otherRing r) q).mayIssue p = true :=
    (mayIssue_setRing q _ p).trans hp
  cases i with
  | nop => cases named
  | initall => cases named
  | rsvd7 => cases named
  | init r =>
    cases named
    have issued := mayIssue_of_exec_init h
    rw [exec_init issued] at h
    cases h
    rw [exec_init (may _ issued), State.initAt, ring_setRing_other, setRing_params, setRing_setRing_other,
      answerDraw_setRing, ← State.initAt]
  | enq r b =>
    cases named
    obtain ⟨issued, h⟩ := boundTo_eq_next h
    rw [exec_enq (may _ issued), enqueue_setRing_other q h]
  | deq r =>
    cases named
    obtain ⟨issued, h⟩ := boundTo_eq_next h
    rw [exec_deq (may _ issued), dequeue_setRing_other q h]
  | isempty r =>
    cases named
    cases h
    simp only [exec, execIsempty, respond, ring_setRing_other, seesEmpty_setRing_other, answer_setRing]
  | isfull r =>
    cases named
    cases h
    simp only [exec, execIsfull, respond, ring_setRing_other, seesFull_setRing_other, answer_setRing]

end OtherRing

theorem exec_keeps_other_ring (named : namedRing i = some r) (h : exec i s = .next t) :
    t.ring (otherRing r) = s.ring (otherRing r) := by
  have replaced := exec_setRing_other (s.ring (otherRing r)) named h
  rw [setRing_same, h] at replaced
  rw [Host.Outcome.next.inj replaced, setRing_ring_self]

/-! The obligations. -/

/-- Settles O39: the bounds and the two tests are facts about the masked difference of the pointers, and each operation
acts on the contents as on a queue because a port that sees room, or a byte, is right (`42_gray_cdc_option.md` R146). -/
theorem ringRefinesBoundedQueue : Obligations.RingRefinesBoundedQueue := by
  intro s r hs
  have hq := hs.ring r
  have hl : legalCap (s.cap r) = true := cap_legal hs.legal r
  have := occ_lt (q := s.ring r) hl
  exact ⟨contents_length, by omega, isEmpty_iff_occ hl hq.head_lt hq.tail_lt, isFull_iff_occ hl hq.head_lt hq.tail_lt,
    fun _ _ => exec_queueEffect hs r⟩

/-- Settles O15: the pointers of a ring, and those a port sees, are one pair each, and no pointer is its own successor. -/
theorem emptyAndFullNeverBoth : Obligations.EmptyAndFullNeverBoth := fun _ r legal =>
  ⟨not_viewEmpty_and_viewFull (cap_legal legal r) _, not_viewEmpty_and_viewFull (cap_legal legal r) _⟩

/-- Settles O33: the operation commutes with replacing the other ring; replacing it by itself shows it unchanged. -/
theorem operationKeepsToItsRing : Obligations.OperationKeepsToItsRing := fun _ t _ r named h =>
  ⟨exec_keeps_other_ring named h, fun q =>
    ⟨t.setRing (otherRing r) q, exec_setRing_other q named h, ring_setRing_other q, setRing_rsp t _ q _⟩⟩

/-- Settles O34: of the changes an operation can make to a ring only a push writes a slot. -/
theorem slotsChangeOnlyByEnqAtTail : Obligations.SlotsChangeOnlyByEnqAtTail := by
  intro s t i r j h changed
  obtain same | ⟨b, rfl, ok, ring⟩ | ⟨-, -, ring⟩ | ⟨-, ring⟩ := exec_ring_changes h r
  · exact absurd (by rw [same]) changed
  · rw [ring, Ring.pushed, read_write] at changed ⊢
    have at_tail : j = (s.ring r).tail := by
      by_contra off_tail
      exact changed (if_neg off_tail)
    exact ⟨b, rfl, ok, at_tail, if_pos at_tail⟩
  · exact absurd (by rw [ring, Ring.popped]) changed
  · exact absurd (by rw [ring, initRing_data]) changed

/-- Settles O35: a push moves `tail` only, a pop `head` only, and INIT and INITALL clear both. -/
theorem pointersChangeOnlyAsNamed : Obligations.PointersChangeOnlyAsNamed := by
  intro s t i r h
  obtain same | ⟨b, rfl, ok, ring⟩ | ⟨rfl, ok, ring⟩ | ⟨named, ring⟩ := exec_ring_changes h r
  · rw [same]
    exact ⟨fun moved => absurd rfl moved, fun moved => absurd rfl moved⟩
  · rw [ring]
    exact ⟨fun moved => absurd rfl moved, fun _ => .inl ⟨⟨b, rfl⟩, ok, rfl⟩⟩
  · rw [ring]
    exact ⟨fun _ => .inl ⟨rfl, ok, rfl⟩, fun moved => absurd rfl moved⟩
  · rw [ring]
    exact ⟨fun _ => .inr ⟨named, initRing_head _ _⟩, fun _ => .inr ⟨named, initRing_tail _ _⟩⟩

end Sys2Proof.Machine
end

section
/-! PROOFS. Memory: the order of two words presented at once (`20_memory.md` R44), every slot access in range (R34), and
that what the slots hold steers nothing (R43). -/

namespace Sys2Proof.Machine

variable {s s' t t' u u' : State} {r : RingSel} {i : Instr} {b : Byte}

/-! Outcomes that are no fault. -/

/-- The outcome is a next state or a refusal. -/
def NoFault (o : Host.Outcome State Fault Refusal) : Prop := ∀ f, o ≠ .fault f

@[simp] theorem noFault_next (s : State) : NoFault (.next s) := by rintro _ ⟨⟩

@[simp] theorem noFault_refused (why : Refusal) : NoFault (.refused why) := by rintro _ ⟨⟩

theorem NoFault.andThen {o : Host.Outcome State Fault Refusal} {k : State → Host.Outcome State Fault Refusal}
    (first : NoFault o) (rest : ∀ u, o = .next u → NoFault (k u)) : NoFault (andThen o k) := by
  cases o with
  | next u => exact rest u rfl
  | fault f => exact absurd rfl (first f)
  | refused why => exact noFault_refused why

theorem boundTo_noFault {p : Port} {k : State → Host.Outcome State Fault Refusal} (h : NoFault (k s)) :
    NoFault (boundTo p k s) := by
  unfold boundTo
  split
  · exact h
  · exact noFault_refused _

/-! Operations: the slot an ENQ writes is `tail`, the one a DEQ reads is `head`. -/

theorem enqueue_noFault (tail_lt : (s.ring r).tail < s.cap r) : NoFault (enqueue r b s) := by
  cases inited : (s.ring r).inited with
  | false => rw [enqueue_uninit inited]; exact noFault_next _
  | true =>
    cases sees : s.seesFull r with
    | true => rw [enqueue_full inited sees]; exact noFault_next _
    | false => rw [enqueue_ok inited sees tail_lt]; exact noFault_next _

theorem dequeue_noFault (head_lt : (s.ring r).head < s.cap r) : NoFault (dequeue r s) := by
  cases inited : (s.ring r).inited with
  | false => rw [dequeue_uninit inited]; exact noFault_next _
  | true =>
    cases sees : s.seesEmpty r with
    | true => rw [dequeue_empty inited sees]; exact noFault_next _
    | false => rw [dequeue_ok inited sees head_lt]; exact noFault_next _

theorem exec_noFault (hs : RingsInv s) (i : Instr) : NoFault (exec i s) := by
  cases i with
  | nop => exact noFault_next _
  | rsvd7 => exact noFault_next _
  | isempty r => exact noFault_next _
  | isfull r => exact noFault_next _
  | init r => exact boundTo_noFault (k := fun u => respondDraw .ok (u.initAt r)) (noFault_next _)
  | initall => exact boundTo_noFault (k := fun u => respondDraw .ok ((u.initAt .tx).initAt .rx)) (noFault_next _)
  | enq r b => exact boundTo_noFault (enqueue_noFault (hs.ring r).tail_lt)
  | deq r => exact boundTo_noFault (dequeue_noFault (hs.ring r).head_lt)

theorem issue_noFault (hs : RingsInv s) (p : Port) (i : Instr) : NoFault (issue p i s) :=
  exec_noFault (by exact hs) i

/-! The dispatcher's sequences: every operation of a loop is issued with the rings still in their invariant. -/

theorem runWrcb_noFault (hs : RingsInv s) (len : Nat) (todo : List Byte) : NoFault (runWrcb len todo s) := by
  induction todo generalizing s with
  | nil => exact noFault_next _
  | cons b todo ih => exact (issue_noFault hs _ _).andThen fun u issued => ih (issue_keeps_rings hs issued)

theorem stepWrcb_noFault (hs : RingsInv s) (len : Nat) (todo : List Byte) : NoFault (stepWrcb len todo s) := by
  cases todo with
  | nil => exact noFault_next _
  | cons b rest => exact (issue_noFault hs _ _).andThen fun u _ => noFault_next _

theorem runRdcb_noFault (hs : RingsInv s) (len left : Nat) (got : List Byte) (good : Option Nat) :
    NoFault (runRdcb len left got good s) := by
  induction left generalizing s got good with
  | zero => exact noFault_next _
  | succ left ih => exact (issue_noFault hs _ _).andThen fun u issued => ih (issue_keeps_rings hs issued) _ _

theorem stepRdcb_noFault (hs : RingsInv s) (len left : Nat) (got : List Byte) :
    NoFault (stepRdcb len left got s) := by
  cases left with
  | zero => exact noFault_next _
  | succ left =>
    refine (issue_noFault hs _ _).andThen fun u _ => ?_
    split <;> exact noFault_next _

theorem runUTask_noFault (hs : RingsInv s) : NoFault (runUTask s) := by
  unfold runUTask
  split
  · exact noFault_next _
  · exact runWrcb_noFault hs _ _
  · exact runRdcb_noFault hs _ _ _ _

theorem stepUTask_noFault (hs : RingsInv s) : NoFault (stepUTask s) := by
  unfold stepUTask
  split
  · exact noFault_next _
  · exact stepWrcb_noFault hs _ _
  · exact stepRdcb_noFault hs _ _ _

theorem configure_noFault (hs : RingsInv s) : NoFault (configure s) :=
  (issue_noFault hs _ _).andThen fun _ _ => noFault_next _

theorem beginWrcb_noFault (packet : List Byte) (s : State) : NoFault (beginWrcb packet s) := by
  unfold beginWrcb
  split
  · split <;> simp
  · exact noFault_refused _

theorem beginRdcb_noFault (len : Nat) (s : State) : NoFault (beginRdcb len s) := by
  unfold beginRdcb
  split <;> simp

/-- Of the requests, only a configure-line request issues an operation at once. -/
theorem beginRequest_noFault (hs : RingsInv s) (q : UsbReq) : NoFault (beginRequest q s) := by
  unfold beginRequest
  split <;> simp [configure_noFault hs, beginWrcb_noFault, beginRdcb_noFault]

theorem serveRequest_noFault (hs : RingsInv s) (q : UsbReq) : NoFault (serveRequest q s) :=
  (beginRequest_noFault hs q).andThen fun _ begun => runUTask_noFault (beginRequest_keeps_rings hs begun)

/-! The pump. -/

theorem pumpTx_noFault (hs : RingsInv s) (hw : PumpIn) : NoFault (pumpTx hw s) := by
  unfold pumpTx
  split
  · exact (issue_noFault hs _ _).andThen fun _ _ => noFault_next _
  · exact noFault_next _

theorem pumpRx_noFault (hs : RingsInv s) (hw : PumpIn) : NoFault (pumpRx hw s) := by
  unfold pumpRx
  split
  · exact issue_noFault (by exact hs) _ _
  · exact noFault_next _

theorem runPump_noFault (hs : RingsInv s) (hw : PumpIn) : NoFault (runPump hw s) :=
  (pumpTx_noFault hs hw).andThen fun _ pumped => pumpRx_noFault (pumpTx_keeps_rings hs pumped) hw

/-! What a step takes up. -/

theorem advanceU_noFault (hs : RingsInv s) : NoFault (advanceU s) := by
  unfold advanceU
  split
  · split
    · exact noFault_next _
    · exact beginRequest_noFault (by exact hs) _
  · exact stepUTask_noFault hs
  · exact stepUTask_noFault hs

theorem advanceS_noFault (hs : RingsInv s) : NoFault (advanceS s) := by
  unfold advanceS
  split
  · exact pumpRx_noFault (by exact hs) _
  · split
    · exact noFault_next _
    · exact pumpTx_noFault (by exact hs) _

theorem onlyGray_noFault {why : Refusal} {k : State → Host.Outcome State Fault Refusal} (h : NoFault (k s)) :
    NoFault (onlyGray why k s) := by
  unfold onlyGray
  split
  · exact noFault_refused _
  · exact h

theorem applyInput_noFault (hs : RingsInv s) (e : Input) : NoFault (applyInput e s) := by
  cases e with
  | present => exact noFault_next _
  | tick => exact noFault_next _
  | reset => exact noFault_next _
  | syncH r k => exact onlyGray_noFault (k := fun u => .next (syncHead r k u)) (noFault_next _)
  | syncT r k => exact onlyGray_noFault (k := fun u => .next (syncTail r k u)) (noFault_next _)
  | advance p =>
    cases p with
    | u => exact onlyGray_noFault (advanceU_noFault hs)
    | s => exact onlyGray_noFault (advanceS_noFault hs)

theorem takeInput_noFault (hs : RingsInv s) : NoFault (takeInput s) := by
  unfold takeInput
  split
  · exact noFault_next _
  · exact applyInput_noFault (by exact hs) _

theorem cooperativeStep_noFault (hs : RingsInv s) : NoFault (cooperativeStep s) := by
  unfold cooperativeStep
  split
  · exact serveRequest_noFault (by exact hs) _
  · split
    · exact runPump_noFault (by exact hs) _
    · exact takeInput_noFault hs

theorem agentStep_noFault (hs : RingsInv s) : NoFault (agentStep s) := by
  unfold agentStep
  split
  · exact cooperativeStep_noFault hs
  · exact takeInput_noFault hs

theorem step_noFault (hs : RingsInv s) : NoFault (step s) := by
  cases wordU : s.lineU with
  | some w =>
    rw [step_lineU hs.1 wordU]
    exact issue_noFault (by exact hs) _ _
  | none =>
    cases wordS : s.lineS with
    | some w =>
      rw [step_lineS hs.1 wordU wordS]
      exact issue_noFault (by exact hs) _ _
    | none =>
      rw [show step s = agentStep s by simp [step, machineStep, hs.1, legalStep, wordU, wordS]]
      exact agentStep_noFault hs

/-! Rings, and states, that may differ in what the slots hold. -/

/-- The second ring is the first with some slot array in place of its own. -/
def SameButSlots (q q' : Ring) : Prop := ∃ m, q' = { q with data := m }

theorem SameButSlots.pushed {q q' : Ring} (h : SameButSlots q q') (cap : Nat) (b : Byte) :
    SameButSlots (q.pushed cap b) (q'.pushed cap b) := by
  obtain ⟨m, rfl⟩ := h
  exact ⟨_, rfl⟩

theorem SameButSlots.popped {q q' : Ring} (h : SameButSlots q q') (cap : Nat) :
    SameButSlots (q.popped cap) (q'.popped cap) := by
  obtain ⟨m, rfl⟩ := h
  exact ⟨m, rfl⟩

theorem SameButSlots.init {q q' : Ring} (h : SameButSlots q q') (mode : SyncMode) :
    SameButSlots (initRing mode q) (initRing mode q') := by
  obtain ⟨m, rfl⟩ := h
  cases mode <;> exact ⟨m, rfl⟩

/-- All that an operation's control reads is alike in two states: the parameters, the issuing port and the rings but for
their slots. -/
structure SteeredAlike (s s' : State) : Prop where
  params : s'.params = s.params
  port : s'.port = s.port
  rings : ∀ r, SameButSlots (s.ring r) (s'.ring r)

section Alike

variable (h : SteeredAlike s s')
include h

theorem SteeredAlike.cap (r : RingSel) : s'.cap r = s.cap r := by rw [State.cap, State.cap, h.params]

theorem SteeredAlike.mayIssue (p : Port) : s'.mayIssue p = s.mayIssue p := by
  rw [State.mayIssue, State.mayIssue, h.params, h.port]

theorem SteeredAlike.inited (r : RingSel) : (s'.ring r).inited = (s.ring r).inited := by
  obtain ⟨m, ring⟩ := h.rings r
  rw [ring]

theorem SteeredAlike.head (r : RingSel) : (s'.ring r).head = (s.ring r).head := by
  obtain ⟨m, ring⟩ := h.rings r
  rw [ring]

theorem SteeredAlike.tail (r : RingSel) : (s'.ring r).tail = (s.ring r).tail := by
  obtain ⟨m, ring⟩ := h.rings r
  rw [ring]

theorem SteeredAlike.view (r : RingSel) : s'.view r = s.view r := by
  obtain ⟨m, ring⟩ := h.rings r
  rw [State.view, State.view, h.params, h.port, ring]

theorem SteeredAlike.seesFull (r : RingSel) : s'.seesFull r = s.seesFull r := by
  rw [State.seesFull, State.seesFull, h.cap, h.view]

theorem SteeredAlike.seesEmpty (r : RingSel) : s'.seesEmpty r = s.seesEmpty r := by
  rw [State.seesEmpty, State.seesEmpty, h.view]

theorem SteeredAlike.setRing (r : RingSel) {q q' : Ring} (hq : SameButSlots q q') :
    SteeredAlike (s.setRing r q) (s'.setRing r q') where
  params := by simpa using h.params
  port := by simpa using h.port
  rings r' := by
    rw [setRing_ring, setRing_ring]
    split
    · exact hq
    · exact h.rings r'

theorem SteeredAlike.initAt (r : RingSel) : SteeredAlike (s.initAt r) (s'.initAt r) := by
  rw [State.initAt, State.initAt, h.params]
  exact h.setRing r ((h.rings r).init _)

end Alike

/-- Two next states of an operation issued in `s`: one status, whatever the data, and the rings alike but for their
slots. -/
def AnsweredAlike (s t t' : State) : Prop :=
  (∃ st, Answered s t st ∧ Answered s t' st) ∧ ∀ r, SameButSlots (t.ring r) (t'.ring r)

/-- Answering one status in each of two states alike. -/
theorem SteeredAlike.answered {st : Status} (hu : SteeredAlike u u') (port : u.port = s.port) (kept : AnsweredFrom u t)
    (kept' : AnsweredFrom u' t') (ans : Answered u t st) (ans' : Answered u' t' st) : AnsweredAlike s t t' := by
  unfold Answered at ans ans'
  rw [hu.port, port] at ans'
  rw [port] at ans
  refine ⟨⟨st, ans, ans'⟩, fun r => ?_⟩
  rw [kept.ring, kept'.ring]
  exact hu.rings r

theorem SteeredAlike.answer (hu : SteeredAlike u u') (port : u.port = s.port) (st : Status) (d d' : Byte) :
    AnsweredAlike s (u.answer st d) (u'.answer st d') :=
  hu.answered port (answeredFrom_answer u st d) (answeredFrom_answer u' st d') ⟨d, answer_rsp_self u st d⟩
    ⟨d', answer_rsp_self u' st d'⟩

theorem SteeredAlike.answerDraw (hu : SteeredAlike u u') (port : u.port = s.port) (st : Status) :
    AnsweredAlike s (u.answerDraw st) (u'.answerDraw st) :=
  hu.answered port (answeredFrom_draw u st) (answeredFrom_draw u' st) (answered_draw u st) (answered_draw u' st)

theorem SteeredAlike.answeredSlot (hu : SteeredAlike u u') (port : u.port = s.port) (v v' : Option Byte) :
    AnsweredAlike s (u.answeredSlot v) (u'.answeredSlot v') :=
  hu.answered port (answeredFrom_slot u v) (answeredFrom_slot u' v') ⟨_, answeredWith_slot u v⟩
    ⟨_, answeredWith_slot u' v'⟩

theorem enqueue_alike (h : SteeredAlike s s') (answers : enqueue r b s = .next t) :
    ∃ t', enqueue r b s' = .next t' ∧ AnsweredAlike s t t' := by
  obtain ⟨uninit, rfl⟩ | ⟨inited, full, rfl⟩ | ⟨inited, room, tail_lt, rfl⟩ := enqueue_cases answers
  · exact ⟨_, enqueue_uninit ((h.inited r).trans uninit), h.answerDraw rfl .uninit⟩
  · exact ⟨_, enqueue_full ((h.inited r).trans inited) ((h.seesFull r).trans full), h.answerDraw rfl .full⟩
  · refine ⟨_, enqueue_ok ((h.inited r).trans inited) ((h.seesFull r).trans room) (by rwa [h.tail, h.cap]), ?_⟩
    rw [h.cap]
    exact (h.setRing r ((h.rings r).pushed _ b)).answerDraw (by simp) .ok

theorem dequeue_alike (h : SteeredAlike s s') (answers : dequeue r s = .next t) :
    ∃ t', dequeue r s' = .next t' ∧ AnsweredAlike s t t' := by
  obtain ⟨uninit, rfl⟩ | ⟨inited, empty, rfl⟩ | ⟨inited, byte, head_lt, rfl⟩ := dequeue_cases answers
  · exact ⟨_, dequeue_uninit ((h.inited r).trans uninit), h.answerDraw rfl .uninit⟩
  · exact ⟨_, dequeue_empty ((h.inited r).trans inited) ((h.seesEmpty r).trans empty), h.answerDraw rfl .empty⟩
  · refine ⟨_, dequeue_ok ((h.inited r).trans inited) ((h.seesEmpty r).trans byte) (by rwa [h.head, h.cap]), ?_⟩
    rw [h.cap]
    exact (h.setRing r ((h.rings r).popped _)).answeredSlot (by simp) _ _

/-- An operation that answers in one of two states alike answers alike in the other. -/
theorem exec_alike (h : SteeredAlike s s') (answers : exec i s = .next t) :
    ∃ t', exec i s' = .next t' ∧ AnsweredAlike s t t' := by
  cases i with
  | nop => cases answers; exact ⟨_, rfl, h.answerDraw rfl .ok⟩
  | rsvd7 => cases answers; exact ⟨_, rfl, h.answerDraw rfl .ok⟩
  | isempty r =>
    cases answers
    refine ⟨_, rfl, ?_⟩
    rw [h.inited]
    exact h.answer rfl _ _ _
  | isfull r =>
    cases answers
    refine ⟨_, rfl, ?_⟩
    rw [h.inited]
    exact h.answer rfl _ _ _
  | init r =>
    have issued := mayIssue_of_exec_init answers
    rw [exec_init issued] at answers
    cases answers
    exact ⟨_, exec_init ((h.mayIssue _).trans issued), (h.initAt r).answerDraw (by simp [State.initAt]) .ok⟩
  | initall =>
    have issued := mayIssue_of_exec_initall answers
    rw [exec_initall issued] at answers
    cases answers
    exact ⟨_, exec_initall ((h.mayIssue _).trans issued),
      ((h.initAt .tx).initAt .rx).answerDraw (by simp [State.initAt]) .ok⟩
  | enq r b =>
    obtain ⟨issued, answers⟩ := boundTo_eq_next answers
    rw [exec_enq ((h.mayIssue _).trans issued)]
    exact enqueue_alike h answers
  | deq r =>
    obtain ⟨issued, answers⟩ := boundTo_eq_next answers
    rw [exec_deq ((h.mayIssue _).trans issued)]
    exact dequeue_alike h answers

theorem steeredAlike_slots (s : State) (m n : Memory) :
    SteeredAlike s { s with tx := { s.tx with data := m }, rx := { s.rx with data := n } } where
  params := rfl
  port := rfl
  rings r := by
    cases r
    · exact ⟨m, rfl⟩
    · exact ⟨n, rfl⟩

/-! The obligations. -/

/-- Settles O7: the first step takes port U's word and leaves port S's presented, so the second takes that one. -/
theorem portUExecutesBeforePortS : Obligations.PortUExecutesBeforePortS := by
  intro s t w v legal wordU wordS first
  rw [step_lineU legal wordU] at first
  obtain ⟨params, lineU, lineS, -⟩ := issue_frame first
  exact ⟨first, step_lineS (params ▸ legal) lineU (lineS.trans wordS)⟩

/-- Settles O14: an operation accesses the slot at `tail` or at `head`, which are below the capacity in every state a
step passes through, since every operation keeps the invariant of the rings. -/
theorem invariantStepsNeverFault : Obligations.InvariantStepsNeverFault := fun _ f hs => step_noFault hs.rings f

/-- Settles O36: an operation's control reads the parameters, the port, and the pointers and `inited` bits only. -/
theorem payloadDoesNotSteerControl : Obligations.PayloadDoesNotSteerControl := by
  intro s t i m n answers
  obtain ⟨t', answers', ⟨st, ⟨d, ans⟩, ⟨d', ans'⟩⟩, rings⟩ := exec_alike (steeredAlike_slots s m n) answers
  refine ⟨t', st, d, d', answers', ans, ans', fun r => ?_⟩
  obtain ⟨_, ring⟩ := rings r
  rw [ring]
  exact ⟨rfl, rfl, rfl, rfl, rfl⟩

end Sys2Proof.Machine
end

section
/-! PROOFS. The encoding (`30_encoding.md` R50 to R56, R64): the fields of the operation word, the encoder and the
decoder by these fields, and the fields of the response word. -/

namespace Sys2Proof

/-! The operation word put together from its fields `OP`, `RING` and `DATA` (R50). -/

/-- The operation word with the given fields (R50). -/
def packWord (op : BitVec 3) (ring : Bool) (byte : Byte) : Opw := op ++ BitVec.ofBool ring ++ byte

section Fields

variable (op : BitVec 3) (ring : Bool) (byte : Byte) (w : Opw) (i : Instr)

theorem getLsbD_packWord (k : Nat) : (packWord op ring byte).getLsbD k =
    if k < 8 then byte.getLsbD k else if k = 8 then ring else op.getLsbD (k - 9) := by
  have bit : (packWord op ring byte).getLsbD k =
      (op ++ BitVec.ofBool ring ++ byte : BitVec (3 + 1 + 8)).getLsbD k := rfl
  rw [bit, BitVec.getLsbD_append, BitVec.getLsbD_append]
  grind

@[simp] theorem opField_packWord : opField (packWord op ring byte) = op :=
  (BitVec.extractLsb'_append_eq_of_le (xhi := op ++ BitVec.ofBool ring) (start := 9) (by decide)).trans
    BitVec.extractLsb'_append_eq_left

@[simp] theorem ringField_packWord : ringField (packWord op ring byte) = RingSel.ofBit ring :=
  congrArg RingSel.ofBit (getLsbD_packWord op ring byte 8)

@[simp] theorem dataField_packWord : dataField (packWord op ring byte) = byte := BitVec.extractLsb'_append_eq_right

@[simp] theorem ofBit_toBit (r : RingSel) : RingSel.ofBit r.toBit = r := by cases r <;> rfl

@[simp] theorem toBit_ofBit : (RingSel.ofBit ring).toBit = ring := by cases ring <;> rfl

theorem toBit_ringField : (ringField w).toBit = w.getLsbD 8 := toBit_ofBit _

/-- Masking a word masks each of its fields. -/
theorem and_packWord : w &&& packWord op ring byte =
    packWord (opField w &&& op) ((ringField w).toBit && ring) (dataField w &&& byte) := by
  apply BitVec.eq_of_getLsbD_eq
  intro k hk
  simp only [BitVec.getLsbD_and, getLsbD_packWord, opField, toBit_ringField, dataField, BitVec.getLsbD_extractLsb']
  grind

/-! The three masks of R51 and R54: the bits that every, a ring's and a byte's operation reads. -/

theorem and_opMask : w &&& 0xE00#12 = packWord (opField w) false 0#8 := by
  have masked := and_packWord (BitVec.allOnes 3) false 0#8 w
  rwa [Bool.and_false, BitVec.and_zero, BitVec.and_allOnes] at masked

theorem and_ringMask : w &&& 0xF00#12 = packWord (opField w) (ringField w).toBit 0#8 := by
  have masked := and_packWord (BitVec.allOnes 3) true 0#8 w
  rwa [Bool.and_true, BitVec.and_zero, BitVec.and_allOnes] at masked

theorem and_byteMask : w &&& 0xFFF#12 = packWord (opField w) (ringField w).toBit (dataField w) := by
  have masked := and_packWord (BitVec.allOnes 3) true (BitVec.allOnes 8) w
  rwa [Bool.and_true, BitVec.and_allOnes, BitVec.and_allOnes] at masked

theorem opField_and_opMask : opField (w &&& 0xE00#12) = opField w := by rw [and_opMask, opField_packWord]

/-! The encoder and the decoder. -/

theorem encode_eq_packWord : encode i = packWord i.op i.ringBit i.dataByte := rfl

theorem decode_encode : decode (encode i) = i := by
  rw [encode_eq_packWord, decode, opField_packWord, ringField_packWord, dataField_packWord]
  cases i <;> simp [Instr.op, Instr.ringBit, Instr.dataByte]

theorem op_decode : (decode w).op = opField w := by
  apply BitVec.eq_of_toNat_eq
  unfold decode
  split
  case h_8 =>
    -- the last row stands for every other code, and seven is the only one left
    have below_eight := (opField w).isLt
    change 7 = (opField w).toNat
    grind
  all_goals symm; assumption

theorem encode_decode : encode (decode w) = w &&& (decode w).usedBits := by
  rw [encode_eq_packWord, op_decode]
  unfold decode
  split
  · exact (and_opMask w).symm
  · exact (and_ringMask w).symm
  · exact (and_byteMask w).symm
  · exact (and_ringMask w).symm
  · exact (and_ringMask w).symm
  · exact (and_ringMask w).symm
  · exact (and_opMask w).symm
  · exact (and_opMask w).symm

theorem decodeNat_toNat : decodeNat w.toNat = .ok (decode w) := by
  rw [decodeNat, if_pos w.isLt, BitVec.ofNat_toNat, BitVec.setWidth_eq]

theorem decodeTableWord_toNat (nbits : Nat) : decodeTableWord nbits w.toNat = some (decode w) := by
  rw [decodeTableWord, decodeNat_toNat]

end Fields

end Sys2Proof

namespace Sys2Proof.Machine

/-! The response word (R55, R56). -/

theorem toNat_rspWord (st : Status) (d : Byte) : (rspWord st d).toNat = (statusCode st).toNat * 256 + d.toNat := by
  have joined : (rspWord st d).toNat = (statusCode st).toNat <<< 8 ||| d.toNat := BitVec.toNat_append _ _
  rw [joined, ← Nat.shiftLeft_add_eq_or_of_lt d.isLt, Nat.shiftLeft_eq]

/-! The obligations. -/

/-- Settles O2: the encoder's word has the operation's own fields, and the decoder reads an operation off its fields. -/
theorem encodedInstrDecodesToItself : Obligations.EncodedInstrDecodesToItself := fun i _ =>
  ⟨decode_encode i, by rw [decodeTableWord_toNat, decode_encode]⟩

/-- Settles O1, by evaluating the decoder on the fourteen words. -/
theorem canonicalWordsDecode : Obligations.CanonicalWordsDecode := by
  unfold Obligations.CanonicalWordsDecode
  decide

/-- Settles O3: the canonical word keeps the fields the operation reads and clears the others, as the mask does. -/
theorem ignoredBitsCarryNothing : Obligations.IgnoredBitsCarryNothing := encode_decode

/-- Settles O4: decoding never rejects a word, and the mask `0xE00` keeps the `OP` field, the operation's code. -/
theorem decodeIsTotalByOp : Obligations.DecodeIsTotalByOp := fun w =>
  ⟨decodeNat_toNat w, op_decode w, fun v same_op => by
    rw [op_decode, op_decode, ← opField_and_opMask v, same_op, opField_and_opMask]⟩

/-- Settles O5: the status's code stands above the byte. -/
theorem responseWordHasItsFields : Obligations.ResponseWordHasItsFields :=
  ⟨fun st d => ⟨rspStatus_rspWord st d, rspData_rspWord st d⟩, fun d =>
    ⟨(toNat_rspWord .ok d).trans (Nat.zero_add _), toNat_rspWord .full d, toNat_rspWord .empty d,
      toNat_rspWord .uninit d⟩⟩

end Sys2Proof.Machine
end

section
/-! PROOFS. The step that takes a presented word (`30_encoding.md` R50, `20_memory.md` R44), and in `COOPERATIVE` the
write-callback served in one step (`41_client_sequences.md` R104). -/

namespace Sys2Proof.Machine

variable {s : State} {n : Byte} {bytes : List Byte}

/-- Presenting a word's own number presents the word on port U. -/
theorem withFetchWord_toNat (s : State) (nbits : Nat) (w : Opw) :
    s.withFetchWord nbits w.toNat = { s with lineU := some w } := by
  rw [State.withFetchWord, presentWord, BitVec.ofNat_toNat, BitVec.setWidth_eq]

/-! The framing of a write packet (`30_encoding.md` R62). -/

theorem packetOk_cons_iff {size : Nat} :
    packetOk size (n :: bytes) = true ↔ bytes.length + 1 ≤ size ∧ n.toNat ≤ bytes.length := by
  simp [packetOk]

theorem serveRequest_writeCallback (writing : s.mode = .writeSerial)
    (framed : packetOk s.params.pkt (n :: bytes) = true) :
    serveRequest (.writeCallback (n :: bytes)) s =
      runWrcb (bytes.length + 1) (bytes.take n.toNat)
        { s with uTask := .wrcb (bytes.take n.toNat) (bytes.length + 1) } := by
  simp [serveRequest, beginRequest, writing, beginWrcb, framed, runUTask]

theorem serveRequest_malformed {packet : List Byte} (writing : s.mode = .writeSerial)
    (malformed : packetOk s.params.pkt packet = false) :
    serveRequest (.writeCallback packet) s = .refused .malformedPacket := by
  simp [serveRequest, beginRequest, writing, beginWrcb, malformed, andThen]

/-! The obligations. -/

/-- Settles O51: the request runs the loop of R104 on the payload, which appends what fits; ending the callback touches
no ring. -/
theorem writeCallbackStoresWhatFits : Obligations.WriteCallbackStoresWhatFits := by
  intro s n bytes rest hs coop lineU lineS writing request
  rw [step_request hs.legal coop lineU lineS request]
  refine ⟨fun count_fits packet_fits => ?_, fun broken => ?_⟩
  · rw [serveRequest_writeCallback (s := { s with usb := rest }) writing
      (packetOk_cons_iff.mpr ⟨packet_fits, count_fits⟩)]
    have rings : RingsInv { s with usb := rest, uTask := .wrcb (bytes.take n.toNat) (bytes.length + 1) } :=
      hs.rings.of_eq rfl rfl rfl
    obtain ⟨u, run, -, -, -, -, uninit, stored⟩ := runWrcb_coop (bytes.length + 1) (bytes.take n.toNat) rings coop
    obtain ⟨params, rx, -, -, usb, -⟩ := runWrcb_frame run
    have cap : (finishWrcb (bytes.length + 1) u).cap .tx = s.cap .tx := congrArg (capOf · .tx) params
    refine ⟨_, run, rx, usb, ?_, ?_⟩
    · rw [(finishWrcb_rings _ u).1]
      exact uninit
    · rw [(finishWrcb_rings _ u).1, cap]
      exact stored
  · refine serveRequest_malformed writing (Bool.eq_false_iff.mpr fun framed => ?_)
    obtain ⟨packet_fits, count_fits⟩ := packetOk_cons_iff.mp framed
    exact broken.elim count_fits.not_gt packet_fits.not_gt

/-- Settles O6: a presented word is issued on its port, port U's first, and the number placed is port U's word. -/
theorem stepExecutesPresentedWord : Obligations.StepExecutesPresentedWord := by
  rintro s w _ legal rfl
  refine ⟨step_lineU legal, step_lineS legal, fun nbits => ?_⟩
  rw [withFetchWord_toNat, step_lineU (s := { s with lineU := some w }) legal rfl]
  rfl

end Sys2Proof.Machine
end

section
/-! PROOFS. A ring's history from INIT on (`40_ring_ops.md` R86, `42_gray_cdc_option.md` R145): it delivers the bytes it
accepted, in order, and its pointers count them. -/

namespace Sys2Proof.Machine

variable {s t : State} {r : RingSel} {h : History} {p : Params} {port : Port}

/-! The ring of an operation issued on one of the ports. -/

@[simp] theorem ring_onPort (s : State) (port : Port) (r : RingSel) : ({ s with port } : State).ring r = s.ring r := by
  cases r <;> rfl

/-- A producer that sees room has room, in either profile (R146). -/
theorem Inv.isFull_false (hs : Inv s) (room : ({ s with port := producer r } : State).seesFull r = false) :
    (s.ring r).isFull (s.cap r) = false := by
  have seen := room_of_seesFull room (mayIssue_port _ rfl)
  rw [ring_onPort] at seen
  exact (hs.ring r).isFull_false hs.legal seen

/-- A consumer that sees a byte has one, in either profile (R146). -/
theorem Inv.isEmpty_false (hs : Inv s) (byte : ({ s with port := consumer r } : State).seesEmpty r = false) :
    (s.ring r).isEmpty = false := by
  have seen := byte_of_seesEmpty byte (mayIssue_port _ rfl)
  rw [ring_onPort] at seen
  exact (hs.ring r).isEmpty_false hs.legal seen

/-! The pointers as counts. -/

/-- The increment of a pointer that holds a count modulo the capacity (R85). -/
theorem ptrNext_mod {cap : Nat} (hl : legalCap cap = true) (n : Nat) : ptrNext cap (n % cap) = (n + 1) % cap := by
  rw [ptrNext, and_mask hl, Nat.mod_add_mod]

/-! What an operation's outcome is noted as. -/

theorem note_ok {acc : List Byte} {del : State → List Byte} (ok : t.answeredOk port = true) :
    h.note (.next t) port acc del =
      { state := t, accepted := h.accepted ++ acc, delivered := h.delivered ++ del t } := if_pos ok

theorem note_refused {acc : List Byte} {del : State → List Byte} (refused : t.answeredOk port = false) :
    h.note (.next t) port acc del = { h with state := t } := if_neg (Bool.eq_false_iff.mp refused)

/-! The invariant of a history. -/

/-- With the parameters `p`: the accepted bytes are the delivered ones followed by the contents of ring `r`, and its
pointers are the two counts modulo the capacity. -/
structure History.InOrder (p : Params) (r : RingSel) (h : History) : Prop where
  inv : Inv h.state
  params : h.state.params = p
  queue : ∃ pending, h.accepted = h.delivered ++ pending ∧
    (h.state.ring r).contents (capOf p r) = pending.map some
  tail : (h.state.ring r).tail = h.accepted.length % capOf p r
  head : (h.state.ring r).head = h.delivered.length % capOf p r

namespace History.InOrder

theorem cap (hh : h.InOrder p r) : h.state.cap r = capOf p r := by rw [State.cap, hh.params]

theorem legal_cap (hh : h.InOrder p r) : legalCap (capOf p r) = true := hh.params ▸ cap_legal hh.inv.legal r

/-- Nothing is accepted or delivered and the ring keeps its contents and pointers. -/
theorem of_same (hh : h.InOrder p r) (inv : Inv t) (params : t.params = h.state.params)
    (contents : (t.ring r).contents (capOf p r) = (h.state.ring r).contents (capOf p r))
    (tail : (t.ring r).tail = (h.state.ring r).tail) (head : (t.ring r).head = (h.state.ring r).head) :
    ({ h with state := t } : History).InOrder p r where
  inv := inv
  params := params.trans hh.params
  queue := by
    obtain ⟨pending, accepted, resident⟩ := hh.queue
    exact ⟨pending, accepted, contents.trans resident⟩
  tail := tail.trans hh.tail
  head := head.trans hh.head

theorem of_ring_eq (hh : h.InOrder p r) (inv : Inv t) (params : t.params = h.state.params)
    (ring : t.ring r = h.state.ring r) : ({ h with state := t } : History).InOrder p r :=
  hh.of_same inv params (by rw [ring]) (by rw [ring]) (by rw [ring])

/-- A successful ENQ: one more byte accepted, and pending. -/
theorem pushed {b : Byte} (hh : h.InOrder p r) (inv : Inv t) (params : t.params = h.state.params)
    (not_full : (h.state.ring r).isFull (capOf p r) = false)
    (ring : t.ring r = (h.state.ring r).pushed (capOf p r) b) :
    History.InOrder p r { state := t, accepted := h.accepted ++ [b], delivered := h.delivered } where
  inv := inv
  params := params.trans hh.params
  queue := by
    obtain ⟨pending, accepted, resident⟩ := hh.queue
    have hq := hh.params ▸ hh.inv.ring r
    refine ⟨pending ++ [b], by simp [accepted], ?_⟩
    simp [ring, contents_pushed hh.legal_cap hq.head_lt hq.tail_lt not_full, resident]
  tail := by
    rw [List.length_append, List.length_singleton, ← ptrNext_mod hh.legal_cap, ← hh.tail, ring, Ring.pushed]
  head := by rw [ring, Ring.pushed, hh.head]

/-- A successful DEQ: the oldest pending byte is delivered. -/
theorem popped (hh : h.InOrder p r) (inv : Inv t) (params : t.params = h.state.params)
    (not_empty : (h.state.ring r).isEmpty = false) (ring : t.ring r = (h.state.ring r).popped (capOf p r)) :
    History.InOrder p r { state := t, accepted := h.accepted, delivered :=
      h.delivered ++ [h.state.slotByte (Memory.read (h.state.ring r).data (h.state.ring r).head)] } where
  inv := inv
  params := params.trans hh.params
  queue := by
    obtain ⟨pending, accepted, resident⟩ := hh.queue
    have hq := hh.params ▸ hh.inv.ring r
    rw [contents_popped hh.legal_cap hq.head_lt hq.tail_lt not_empty, eq_comm, List.map_eq_cons_iff] at resident
    obtain ⟨oldest, rest, rfl, read, remaining⟩ := resident
    exact ⟨rest, by simp [accepted, ← read, State.slotByte], by rw [ring, remaining]⟩
  tail := by rw [ring, Ring.popped, hh.tail]
  head := by
    rw [List.length_append, List.length_singleton, ← ptrNext_mod hh.legal_cap, ← hh.head, ring, Ring.popped]

/-! Each event keeps it. -/

theorem enq (hh : h.InOrder p r) (b : Byte) : (h.extend r (.enq b)).InOrder p r := by
  obtain ⟨t, issued⟩ := issue_of_inv (p := producer r) (i := .enq r b) hh.inv (decide_eq_true rfl)
  have inv := issue_keeps_inv hh.inv issued
  have params := (issue_frame issued).1
  rw [History.extend, issued]
  obtain ⟨tx, rx, refused, -⟩ | ⟨-, room, ok, ring, -⟩ := issue_enq issued
  · rw [note_refused refused]
    exact hh.of_ring_eq inv params (ring_of_eq tx rx)
  · rw [note_ok ok, List.append_nil]
    exact hh.pushed inv params (hh.cap ▸ hh.inv.isFull_false room) (hh.cap ▸ ring)

theorem deq (hh : h.InOrder p r) : (h.extend r .deq).InOrder p r := by
  obtain ⟨t, issued⟩ := issue_of_inv (p := consumer r) (i := .deq r) hh.inv (decide_eq_true rfl)
  have inv := issue_keeps_inv hh.inv issued
  have params := (issue_frame issued).1
  rw [History.extend, issued]
  obtain ⟨tx, rx, refused, -⟩ | ⟨-, byte, ok, data, ring, -⟩ := issue_deq issued
  · rw [note_refused refused]
    exact hh.of_ring_eq inv params (ring_of_eq tx rx)
  · rw [note_ok ok, List.append_nil, data]
    exact hh.popped inv params (hh.inv.isEmpty_false byte) (hh.cap ▸ ring)

theorem syncHead (hh : h.InOrder p r) (k : Nat) : (h.extend r (.syncHead k)).InOrder p r := by
  rw [History.extend]
  split
  · exact hh
  · rename_i gray
    refine hh.of_same (syncHead_keeps_inv r k gray hh.inv) (syncHead_params r k _) ?_ ?_ ?_ <;>
      rw [syncHead_ring_self]
    rfl

theorem syncTail (hh : h.InOrder p r) (k : Nat) : (h.extend r (.syncTail k)).InOrder p r := by
  rw [History.extend]
  split
  · exact hh
  · rename_i gray
    refine hh.of_same (syncTail_keeps_inv r k gray hh.inv) (syncTail_params r k _) ?_ ?_ ?_ <;>
      rw [syncTail_ring_self]
    rfl

theorem extend (hh : h.InOrder p r) (e : RingEvent) : (h.extend r e).InOrder p r := by
  cases e with
  | enq b => exact hh.enq b
  | deq => exact hh.deq
  | syncHead k => exact hh.syncHead k
  | syncTail k => exact hh.syncTail k

theorem foldl_extend (es : List RingEvent) (hh : h.InOrder p r) : (es.foldl (History.extend r) h).InOrder p r := by
  induction es generalizing h with
  | nil => exact hh
  | cons e es ih => exact ih (hh.extend e)

end History.InOrder

/-- Just after INIT the ring is empty and both counts are 0. -/
theorem inOrder_init {s₀ : State} (hs : Inv s₀) (initialised : exec (.init r) s₀ = .next s) :
    History.InOrder s.params r { state := s, accepted := [], delivered := [] } where
  inv := exec_keeps_inv hs initialised
  params := rfl
  queue := ⟨[], rfl, (exec_queueEffect hs r initialised).emptied (.inl rfl)⟩
  tail := by rw [exec_init_ring (.inl rfl) initialised, initRing_tail, List.length_nil, Nat.zero_mod]
  head := by rw [exec_init_ring (.inl rfl) initialised, initRing_head, List.length_nil, Nat.zero_mod]

/-- Settles O40, by induction on the events: a history is in order after INIT and every event keeps it so. -/
theorem historyIsFirstInFirstOut : Obligations.HistoryIsFirstInFirstOut := by
  intro s₀ s r es hs initialised
  have ordered : (historyFrom r s es).InOrder s.params r := (inOrder_init hs initialised).foldl_extend es
  obtain ⟨pending, accepted, resident⟩ := ordered.queue
  refine ⟨pending, accepted, resident, ?_, ordered.tail, ordered.head⟩
  rw [← pending.length_map (f := some), ← resident, contents_length]
  exact Nat.le_sub_one_of_lt (occ_lt ordered.legal_cap)

end Sys2Proof.Machine
end

section
/-! PROOFS. The operations one at a time (`40_ring_ops.md` R70 to R87), in `COOPERATIVE` unless said otherwise. -/

namespace Sys2Proof.Machine

variable {s t : State} {r : RingSel} {b : Byte} {st st' : Status} {d d' : Byte} {q : Ring} {p : Params} {cap : Nat}

/-! Empty and Full as the rules write them (R14, R15). -/

theorem isEmpty_eq_true_iff : q.isEmpty = true ↔ q.head = q.tail := decide_eq_true_iff

theorem isEmpty_eq_false_iff : q.isEmpty = false ↔ q.head ≠ q.tail := decide_eq_false_iff_not

theorem isFull_eq_true_iff : q.isFull cap = true ↔ (q.tail + 1) &&& (cap - 1) = q.head := decide_eq_true_iff

theorem isFull_eq_false_iff : q.isFull cap = false ↔ (q.tail + 1) &&& (cap - 1) ≠ q.head := decide_eq_false_iff_not

theorem isFull_eq_false_of_isEmpty (hl : legalCap cap = true) (empty : q.isEmpty = true) : q.isFull cap = false :=
  Bool.eq_false_iff.mpr fun full => not_viewEmpty_and_viewFull hl _ ⟨empty, full⟩

/-- An uninitialised ring is as reset left it (R23). -/
theorem RingInv.isEmpty_of_uninit (hq : RingInv p r q) (uninit : q.inited = false) : q.isEmpty = true := by
  obtain ⟨head, tail, -⟩ := hq.uninit uninit
  exact isEmpty_eq_true_iff.mpr (head.trans tail.symm)

/-- Every port sees the pointers themselves. -/
theorem seesEmpty_eq_isEmpty (coop : s.params.syncMode = .cooperative) : s.seesEmpty r = (s.ring r).isEmpty :=
  seesEmpty_coop (p := s.port) coop

theorem seesFull_eq_isFull (coop : s.params.syncMode = .cooperative) : s.seesFull r = (s.ring r).isFull (s.cap r) :=
  seesFull_coop (p := s.port) coop

/-! Responses. -/

/-- An operation that only answers changes nothing else. -/
theorem changes_nothing_of_answerDraw {o : Host.Outcome State Fault Refusal} (h : o = .next (s.answerDraw st)) :
    ∃ t, o = .next t ∧ Answered s t st ∧ SameRings s t ∧ SameAround s t :=
  have only_answered := answeredFrom_draw s st
  ⟨_, h, answered_draw s st, only_answered.rings, only_answered.around⟩

theorem answeredWith_answer_iff : AnsweredWith s (s.answer st d) st' d' ↔ st = st' ∧ d = d' := by
  refine ⟨fun h => AnsweredWith.unique (answer_rsp_self s st d) h, ?_⟩
  rintro ⟨rfl, rfl⟩
  exact answer_rsp_self s st d

theorem predicateByte_eq_one_iff {holds : Bool} : predicateByte holds = 1#8 ↔ holds = true := by
  cases holds <;> decide

theorem predicateByte_eq_zero_iff {holds : Bool} : predicateByte holds = 0#8 ↔ holds = false := by
  cases holds <;> decide

theorem predicateStatus_eq_ok_iff {inited : Bool} : predicateStatus inited = .ok ↔ inited = true := by
  cases inited <;> decide

theorem sameRings_of_ring (named : t.ring r = s.ring r) (other : t.ring (otherRing r) = s.ring (otherRing r)) :
    SameRings s t := by
  cases r
  · exact ⟨named, other⟩
  · exact ⟨other, named⟩

/-! INIT (R72, R80). -/

theorem initRing_coop (coop : s.params.syncMode = .cooperative) :
    initRing s.params.syncMode q = { q with head := 0, tail := 0, inited := true } := by rw [coop]; rfl

theorem isEmpty_initRing (m : SyncMode) (q : Ring) : (initRing m q).isEmpty = true :=
  isEmpty_eq_true_iff.mpr ((initRing_head m q).trans (initRing_tail m q).symm)

theorem answered_exec_init (h : exec (.init r) s = .next t) : Answered s t .ok := by
  rw [exec_init (mayIssue_of_exec_init h)] at h
  cases h
  exact answered_draw_setRing s _ .ok

theorem answered_exec_initall (h : exec .initall s = .next t) : Answered s t .ok := by
  rw [exec_initall (mayIssue_of_exec_initall h)] at h
  cases h
  simpa [Answered, State.initAt] using answered_draw ((s.initAt .tx).initAt .rx) .ok

/-! ENQ and DEQ (R74, R76). -/

theorem exec_enq_ok (coop : s.params.syncMode = .cooperative) (inited : (s.ring r).inited = true)
    (not_full : (s.ring r).isFull (s.cap r) = false) (tail_lt : (s.ring r).tail < s.cap r) (b : Byte) :
    ∃ t, exec (.enq r b) s = .next t ∧ Answered s t .ok ∧ SameAround s t ∧
      t.ring r = (s.ring r).pushed (s.cap r) b ∧ t.ring (otherRing r) = s.ring (otherRing r) := by
  have issued := (exec_enq (mayIssue_coop coop _)).trans
    (enqueue_ok (b := b) inited ((seesFull_eq_isFull coop).trans not_full) tail_lt)
  exact ⟨_, issued, answered_draw_setRing s _ .ok, exec_frame issued, by simp, by simp⟩

theorem exec_deq_ok (coop : s.params.syncMode = .cooperative) (inited : (s.ring r).inited = true)
    (not_empty : (s.ring r).isEmpty = false) (head_lt : (s.ring r).head < s.cap r) :
    ∃ t, exec (.deq r) s = .next t ∧
      AnsweredWith s t .ok (s.slotByte (Memory.read (s.ring r).data (s.ring r).head)) ∧ SameAround s t ∧
      t.ring r = (s.ring r).popped (s.cap r) ∧ t.ring (otherRing r) = s.ring (otherRing r) := by
  have issued := (exec_deq (mayIssue_coop coop _)).trans
    (dequeue_ok inited ((seesEmpty_eq_isEmpty coop).trans not_empty) head_lt)
  have only_answered := answeredFrom_slot (s.setRing r ((s.ring r).popped (s.cap r)))
    (Memory.read (s.ring r).data (s.ring r).head)
  exact ⟨_, issued, answeredWith_slot_setRing s _ _, exec_frame issued, by simp [only_answered.ring],
    by simp [only_answered.ring]⟩

/-- A DEQ is refused exactly on an empty ring, an uninitialised one being empty. -/
theorem deq_refused_iff_isEmpty (coop : s.params.syncMode = .cooperative) (hq : RingInv s.params r (s.ring r))
    (h : exec (.deq r) s = .next t) : Answered s t .empty ∨ Answered s t .uninit ↔ (s.ring r).isEmpty = true := by
  obtain ⟨uninit, refused, -⟩ | ⟨-, empty, refused, -⟩ | ⟨-, byte, ok, -⟩ := exec_deq_cases h
  · exact iff_of_true (.inr refused) (hq.isEmpty_of_uninit uninit)
  · exact iff_of_true (.inl refused) ((seesEmpty_eq_isEmpty coop).symm.trans empty)
  · have ok : Answered s t .ok := ⟨_, ok⟩
    refine iff_of_false ?_ (Bool.eq_false_iff.mp ((seesEmpty_eq_isEmpty coop).symm.trans byte))
    exact not_or_intro (ok.not_of_ne (by decide)) (ok.not_of_ne (by decide))

/-! On a ring neither empty nor full (R87). -/

theorem isEmpty_pushed (hl : legalCap cap = true) (head_lt : q.head < cap) (tail_lt : q.tail < cap)
    (not_full : q.isFull cap = false) : (q.pushed cap b).isEmpty = false := by
  rw [Bool.eq_false_iff, ne_eq, isEmpty_iff_occ hl (q := q.pushed cap b) head_lt (ptrNext_lt hl _),
    occ_pushed hl head_lt tail_lt not_full]
  exact Nat.succ_ne_zero _

theorem isFull_popped (hl : legalCap cap = true) (head_lt : q.head < cap) (tail_lt : q.tail < cap)
    (not_empty : q.isEmpty = false) : (q.popped cap).isFull cap = false := by
  have one_less := occ_popped hl head_lt tail_lt not_empty
  have below := occ_lt (q := q) hl
  rw [Bool.eq_false_iff, ne_eq, isFull_iff_occ hl (q := q.popped cap) (ptrNext_lt hl _) tail_lt]
  omega

/-- The slot at `head` of a ring that holds a byte is not the one an ENQ writes. -/
theorem read_head_pushed (not_empty : q.isEmpty = false) :
    Memory.read (q.pushed cap b).data (q.pushed cap b).head = Memory.read q.data q.head :=
  read_write_other _ _ (isEmpty_eq_false_iff.mp not_empty)

/-! The predicates (R77, R78). -/

theorem exec_isempty (coop : s.params.syncMode = .cooperative) : exec (.isempty r) s =
    .next (s.answer (predicateStatus (s.ring r).inited) (predicateByte (s.ring r).isEmpty)) := by
  rw [← seesEmpty_eq_isEmpty coop]
  rfl

theorem exec_isfull (coop : s.params.syncMode = .cooperative) : exec (.isfull r) s =
    .next (s.answer (predicateStatus (s.ring r).inited) (predicateByte ((s.ring r).isFull (s.cap r)))) := by
  rw [← seesFull_eq_isFull coop]
  rfl

section Predicate

variable {holds inited : Bool}

theorem answered_predicate_one_iff :
    (∃ st, AnsweredWith s (s.answer (predicateStatus inited) (predicateByte holds)) st 1#8) ↔ holds = true := by
  simp [answeredWith_answer_iff, predicateByte_eq_one_iff]

theorem answered_predicate_ok_zero_iff :
    AnsweredWith s (s.answer (predicateStatus inited) (predicateByte holds)) .ok 0#8 ↔
      inited = true ∧ holds = false := by
  rw [answeredWith_answer_iff, predicateStatus_eq_ok_iff, predicateByte_eq_zero_iff]

theorem answered_predicate_decide (P : Prop) [Decidable P] (inited : Bool) :
    AnsweredWith s (s.answer (predicateStatus inited) (predicateByte (decide P)))
      (if inited then .ok else .uninit) (if P then 1#8 else 0#8) := by
  rw [answeredWith_answer_iff, predicateByte_eq, predicateStatus]
  simp

end Predicate

/-! The obligations. -/

/-- Settles O21: the ring is pushed, and the contents of a pushed ring with room are one byte longer. -/
theorem enqStoresAtTail : Obligations.EnqStoresAtTail := by
  intro s r b legal coop head_lt tail_lt inited room
  have hl : legalCap (s.cap r) = true := cap_legal legal r
  have not_full : (s.ring r).isFull (s.cap r) = false := isFull_eq_false_iff.mpr room
  obtain ⟨t, issued, ok, around, ring, other⟩ := exec_enq_ok coop inited not_full tail_lt b
  refine ⟨t, issued, ok, around, other, ?_⟩
  rw [ring, around.cap r]
  exact ⟨rfl, inited, rfl, rfl, rfl, fun j => read_write _ _ j b, rfl, contents_pushed hl head_lt tail_lt not_full,
    occ_pushed hl head_lt tail_lt not_full⟩

/-- Settles O23: the ring is popped, which leaves its contents without the byte answered. -/
theorem deqReturnsByteAtHead : Obligations.DeqReturnsByteAtHead := by
  intro s r legal coop head_lt tail_lt inited byte
  have not_empty : (s.ring r).isEmpty = false := isEmpty_eq_false_iff.mpr byte
  obtain ⟨t, issued, ok, around, ring, other⟩ := exec_deq_ok coop inited not_empty head_lt
  refine ⟨t, issued, ⟨_, ok⟩, fun v read => by simpa [State.slotByte, read] using ok, around, other, ring, ?_⟩
  rw [ring, around.cap r]
  exact contents_popped (cap_legal legal r) head_lt tail_lt not_empty

/-- Settles O32: the pointers of a state of the invariant are in range, so no operation a port may issue is stopped. -/
theorem everyOperationCompletes : Obligations.EveryOperationCompletes := by
  intro s i hs may
  obtain ⟨t, w, answers, response⟩ := exec_of_inv i hs may
  exact ⟨t, w, answers, response, exec_frame answers, exec_keeps_inv hs answers⟩

/-- Settles O37: the mask of a power of two is the remainder, and the remainder wraps at the last value only. -/
theorem pointerIncrementIsModular : Obligations.PointerIncrementIsModular := by
  intro s r x legal x_lt
  have hl : legalCap (s.cap r) = true := cap_legal legal r
  have two_le := two_le_cap hl
  refine ⟨rfl, and_mask hl _, fun below_last => ?_, ?_⟩
  · rw [ptrNext_eq hl x_lt, if_neg (by omega)]
  · rw [ptrNext_eq hl (by omega), if_pos (by omega)]

/-- Settles O38: ENQ touches `tail` and the slot there, DEQ touches `head` and reads the slot there, and on a ring that
holds a byte these are two slots. -/
theorem enqAndDeqCommute : Obligations.EnqAndDeqCommute := by
  intro s r b legal coop head_lt tail_lt inited not_empty not_full
  have hl : legalCap (s.cap r) = true := cap_legal legal r
  obtain ⟨t, enq, enq_ok, t_around, t_ring, t_other⟩ := exec_enq_ok coop inited not_full tail_lt b
  obtain ⟨t', deq, deq_ok, t'_around, t'_ring, t'_other⟩ := exec_deq_ok coop inited not_empty head_lt
  have t_cap := t_around.cap r
  have t'_cap := t'_around.cap r
  obtain ⟨u, then_deq, then_deq_ok, -, u_ring, u_other⟩ :=
    exec_deq_ok (s := t) (r := r) (t_around.1 ▸ coop) (by rw [t_ring]; exact inited)
      (by rw [t_ring]; exact isEmpty_pushed hl head_lt tail_lt not_full) (by rw [t_ring, t_cap]; exact head_lt)
  obtain ⟨u', then_enq, then_enq_ok, -, u'_ring, u'_other⟩ :=
    exec_enq_ok (s := t') (r := r) (t'_around.1 ▸ coop) (by rw [t'_ring]; exact inited)
      (by rw [t'_ring, t'_cap]; exact isFull_popped hl head_lt tail_lt not_empty)
      (by rw [t'_ring, t'_cap]; exact tail_lt) b
  refine ⟨t, u, t', u', enq, then_deq, deq, then_enq, ?_, enq_ok, then_enq_ok, ⟨_, then_deq_ok⟩, ⟨_, deq_ok⟩,
    fun v read => ⟨?_, ?_⟩⟩
  · refine sameRings_of_ring (r := r) ?_ (by rw [u_other, u'_other, t_other, t'_other])
    rw [u_ring, u'_ring, t_ring, t'_ring, t_cap, t'_cap]
    rfl
  · rw [t_ring, read_head_pushed not_empty, read] at then_deq_ok
    exact then_deq_ok
  · rw [read] at deq_ok
    exact deq_ok

/-- Settles O16: both operations only answer. -/
theorem nopAndReservedAnswerOk : Obligations.NopAndReservedAnswerOk := by
  rintro s i (rfl | rfl)
  · exact changes_nothing_of_answerDraw rfl
  · exact changes_nothing_of_answerDraw rfl

/-- Settles O17: both pointers become 0, and equal pointers mean an empty ring. -/
theorem initEmptiesRing : Obligations.InitEmptiesRing := by
  intro s r legal coop
  have issued := exec_init (r := r) (mayIssue_coop coop .u)
  have ring := exec_init_ring (r := r) (.inl rfl) issued
  have around := exec_frame issued
  have hl : legalCap (s.cap r) = true := cap_legal legal r
  refine ⟨_, issued, answered_exec_init issued, around, ring.trans (initRing_coop coop),
    exec_keeps_other_ring rfl issued, ?_⟩
  rw [ring, around.cap r]
  exact ⟨contents_initRing hl _ _, isEmpty_initRing _ _, isFull_eq_false_of_isEmpty hl (isEmpty_initRing _ _)⟩

/-- Settles O18: INITALL, and INIT of one ring after the other, leave each ring initialised. -/
theorem initallEmptiesBothRings : Obligations.InitallEmptiesBothRings := by
  intro s coop
  obtain ⟨t, both⟩ : ∃ t, exec .initall s = .next t := ⟨_, exec_initall (mayIssue_coop coop .u)⟩
  obtain ⟨u, first⟩ : ∃ u, exec (.init .tx) s = .next u := ⟨_, exec_init (mayIssue_coop coop .u)⟩
  have params : u.params = s.params := (exec_frame first).1
  obtain ⟨v, second⟩ : ∃ v, exec (.init .rx) u = .next v := ⟨_, exec_init (mayIssue_coop (params ▸ coop) .u)⟩
  have t_tx : t.tx = initRing s.params.syncMode s.tx := exec_init_ring (r := .tx) (.inr rfl) both
  have t_rx : t.rx = initRing s.params.syncMode s.rx := exec_init_ring (r := .rx) (.inr rfl) both
  have u_tx : u.tx = initRing s.params.syncMode s.tx := exec_init_ring (r := .tx) (.inl rfl) first
  have u_rx : u.rx = s.rx := exec_keeps_other_ring (r := .tx) rfl first
  have v_tx : v.tx = u.tx := exec_keeps_other_ring (r := .rx) rfl second
  have v_rx : v.rx = initRing u.params.syncMode u.rx := exec_init_ring (r := .rx) (.inl rfl) second
  refine ⟨t, both, answered_exec_initall both, exec_frame both, t_tx.trans (initRing_coop coop),
    t_rx.trans (initRing_coop coop), u, v, first, second, ?_, ?_⟩
  · rw [v_tx, u_tx, t_tx]
  · rw [v_rx, params, u_rx, t_rx]

/-- Settles O20: UNINIT is tested before FULL, and a refusal only answers. -/
theorem enqRefusals : Obligations.EnqRefusals := by
  intro s r b coop
  rw [exec_enq (mayIssue_coop coop _)]
  exact ⟨fun uninit => changes_nothing_of_answerDraw (enqueue_uninit uninit), fun inited full =>
    changes_nothing_of_answerDraw
      (enqueue_full inited ((seesFull_eq_isFull coop).trans (isFull_eq_true_iff.mpr full)))⟩

/-- Settles O22: UNINIT is tested before EMPTY, and a refusal only answers. -/
theorem deqRefusals : Obligations.DeqRefusals := by
  intro s r coop
  rw [exec_deq (mayIssue_coop coop _)]
  exact ⟨fun uninit => changes_nothing_of_answerDraw (dequeue_uninit uninit), fun inited empty =>
    changes_nothing_of_answerDraw
      (dequeue_empty inited ((seesEmpty_eq_isEmpty coop).trans (isEmpty_eq_true_iff.mpr empty)))⟩

/-- Settles O24: the answer is the test DEQ itself makes, and an uninitialised ring has equal pointers. -/
theorem isemptyAnswersPredicate : Obligations.IsemptyAnswersPredicate := by
  intro s r coop
  have only_answered := answeredFrom_answer s (predicateStatus (s.ring r).inited) (predicateByte (s.ring r).isEmpty)
  refine ⟨_, exec_isempty coop, only_answered.rings, only_answered.around, answered_predicate_decide _ _,
    fun hq uninit => ?_, fun hq u deq => ?_, fun head_lt ok_zero => ?_⟩
  · rw [uninit, hq.isEmpty_of_uninit uninit]
    exact answer_rsp_self s _ _
  · rw [answered_predicate_one_iff, deq_refused_iff_isEmpty coop hq deq]
  · obtain ⟨inited, not_empty⟩ := answered_predicate_ok_zero_iff.mp ok_zero
    have ring := only_answered.ring r
    have cap := only_answered.around.cap r
    obtain ⟨u, deq, ok, -⟩ := exec_deq_ok (only_answered.around.1 ▸ coop) (ring ▸ inited)
      (by rw [ring]; exact not_empty) (by rw [ring, cap]; exact head_lt)
    exact ⟨u, deq, _, ok⟩

/-- Settles O25: the answer is the test ENQ itself makes; equal pointers, as on an uninitialised ring, are not full. -/
theorem isfullAnswersPredicate : Obligations.IsfullAnswersPredicate := by
  intro s r legal coop
  have hl : legalCap (s.cap r) = true := cap_legal legal r
  have only_answered := answeredFrom_answer s (predicateStatus (s.ring r).inited)
    (predicateByte ((s.ring r).isFull (s.cap r)))
  refine ⟨_, exec_isfull coop, only_answered.rings, only_answered.around, answered_predicate_decide _ _,
    fun hq uninit => ?_, fun hq => ?_, fun u st st' isempty full empty => ?_, fun tail_lt ok_zero b => ?_⟩
  · rw [uninit, isFull_eq_false_of_isEmpty hl (hq.isEmpty_of_uninit uninit)]
    exact answer_rsp_self s _ _
  · rw [answered_predicate_one_iff]
    exact isFull_iff_occ hl hq.head_lt hq.tail_lt
  · rw [exec_isempty coop] at isempty
    cases isempty
    exact not_viewEmpty_and_viewFull hl _
      ⟨answered_predicate_one_iff.mp ⟨st', empty⟩, answered_predicate_one_iff.mp ⟨st, full⟩⟩
  · obtain ⟨inited, not_full⟩ := answered_predicate_ok_zero_iff.mp ok_zero
    have ring := only_answered.ring r
    have cap := only_answered.around.cap r
    obtain ⟨u, enq, ok, -⟩ := exec_enq_ok (only_answered.around.1 ▸ coop) (ring ▸ inited)
      (by rw [ring, cap]; exact not_full) (by rw [ring, cap]; exact tail_lt) b
    exact ⟨u, enq, ok⟩

end Sys2Proof.Machine
end

section
/-! PROOFS. The dispatcher's requests that run no callback (`41_client_sequences.md` R101 to R103, R108, R109), and the
order of a tick (R112, `20_memory.md` R40, R41). -/

namespace Sys2Proof.Machine

variable {s t : State} {q : UsbReq} {rest : List UsbReq}

/-! A request that begins no sequence is served once it is taken. -/

theorem serveRequest_of_idle (begun : beginRequest q s = .next t) (idle : t.uTask = .idle) :
    serveRequest q s = .next t := by
  rw [serveRequest, begun, andThen_next, runUTask, idle]

theorem step_of_beginRequest (legal : s.params.legal = true) (coop : s.params.syncMode = .cooperative)
    (lineU : s.lineU = none) (lineS : s.lineS = none) (request : s.usb = q :: rest)
    (begun : beginRequest q { s with usb := rest } = .next t) (idle : t.uTask = .idle) : step s = .next t :=
  (step_request legal coop lineU lineS request).trans (serveRequest_of_idle begun idle)

/-! What the dispatcher does with a request of each kind. -/

theorem beginRequest_unknown (s : State) : beginRequest .unknown s = .next s := rfl

/-- The rows of R100 that R108 speaks of. -/
theorem beginRequest_mismatched (mismatched : MismatchedRequest s.mode q = true) :
    beginRequest q s = .next (violation s) := by
  cases mode : s.mode <;> rw [mode] at mismatched
  case idle => cases mismatched
  case readSerial => cases q <;> simp [MismatchedRequest, beginRequest, mode] at mismatched ⊢
  case writeSerial => cases q <;> simp [MismatchedRequest, beginRequest, mode] at mismatched ⊢

theorem beginRequest_read (idle : s.mode = .idle) (count : Nat) : beginRequest (.read count) s =
    .next (({ s with remaining := count, mode := .readSerial }).emit .readPath) := by simp only [beginRequest, idle]

theorem beginRequest_write (idle : s.mode = .idle) (count : Nat) : beginRequest (.write count) s =
    .next { s with remaining := count, mode := .writeSerial } := by simp only [beginRequest, idle]

/-- In Idle a configure-line request is one INITALL, whatever it selects. -/
theorem beginRequest_configure (coop : s.params.syncMode = .cooperative) (idle : s.mode = .idle) (a b c : Byte) :
    ∃ t, issue .u .initall s = .next t ∧ beginRequest (.configure a b c) s = .next { t with mode := .idle } := by
  obtain ⟨t, issued⟩ : ∃ t, issue .u .initall s = .next t :=
    ⟨_, exec_initall (mayIssue_coop (s := { s with port := .u }) coop .u)⟩
  exact ⟨t, issued, by simp only [beginRequest, idle, configure, issued, andThen_next]⟩

/-! The obligations. -/

/-- Settles O47: the step is the first request's sequence, else the first pump step's, else the input's effect; no
sequence touches what is still queued. -/
theorem tickServesRequestsThenPumps : Obligations.TickServesRequestsThenPumps := by
  intro s t legal coop lineU lineS stepped
  refine ⟨fun q rest request => ?_, fun hw rest none_left pump => ?_, fun qs hw rest none_left no_pump next => ?_⟩
  · rw [step_request legal coop lineU lineS request] at stepped
    obtain ⟨-, -, -, usb, pumps, -, inputs⟩ := serveRequest_frame stepped
    exact ⟨stepped, usb, pumps, inputs⟩
  · rw [step_pump legal coop lineU lineS none_left pump] at stepped
    obtain ⟨-, -, -, usb, pumps, -, -, inputs⟩ := runPump_frame stepped
    exact ⟨stepped, usb.trans none_left, pumps, inputs⟩
  · rw [step_input legal ⟨lineU, lineS, fun _ => ⟨none_left, no_pump⟩⟩ next, applyInput, none_left, no_pump] at stepped
    cases stepped
    rfl

/-- Settles O50: a mismatched request is answered by the violation and begins no sequence; an unknown one is dropped. -/
theorem unfitRequestTouchesNoRing : Obligations.UnfitRequestTouchesNoRing := by
  intro s q rest legal coop lineU lineS idle request
  refine ⟨fun mismatched => ?_, ?_⟩
  · have begun := beginRequest_mismatched (s := { s with usb := rest }) mismatched
    exact ⟨_, step_of_beginRequest legal coop lineU lineS request begun idle, ⟨rfl, rfl⟩, rfl, rfl⟩
  · rintro rfl
    exact step_of_beginRequest legal coop lineU lineS request (beginRequest_unknown _) idle

/-- Settles O48: the request is one INITALL and the mode; an initialised ring is empty. -/
theorem configureReinitialisesRings : Obligations.ConfigureReinitialisesRings := by
  intro s a b c rest legal coop lineU lineS mode idle request
  obtain ⟨t, issued, begun⟩ := beginRequest_configure (s := { s with usb := rest }) coop mode a b c
  obtain ⟨params, -, -, -, remaining, usb, -, uTask, -, -, out⟩ := issue_frame issued
  have initialised (r : RingSel) : t.ring r = initRing s.params.syncMode (s.ring r) := by
    rw [exec_init_ring (.inr rfl) issued]
    cases r <;> rfl
  refine ⟨_, step_of_beginRequest legal coop lineU lineS request begun (uTask.trans idle), rfl, usb, out, remaining,
    (initialised .tx).trans (initRing_coop coop), (initialised .rx).trans (initRing_coop coop), fun r => ?_⟩
  have emptied : (t.ring r).contents (t.cap r) = [] := by
    rw [initialised, State.cap, params]
    exact contents_initRing (cap_legal legal r) _ _
  cases r <;> exact emptied

/-- Settles O49: in Idle the request sets the counter and the mode, and a read signals its path. -/
theorem serialRequestStartsTransfer : Obligations.SerialRequestStartsTransfer := by
  intro s count rest legal coop lineU lineS mode idle
  refine ⟨fun request => ?_, fun request => ?_⟩
  · have begun := beginRequest_read (s := { s with usb := rest }) mode count
    exact ⟨_, step_of_beginRequest legal coop lineU lineS request begun idle, ⟨rfl, rfl⟩, rfl, rfl, rfl⟩
  · have begun := beginRequest_write (s := { s with usb := rest }) mode count
    exact ⟨_, step_of_beginRequest legal coop lineU lineS request begun idle, ⟨rfl, rfl⟩, rfl, rfl, rfl⟩

end Sys2Proof.Machine
end

section
/-! PROOFS. The pump step in `COOPERATIVE` (`41_client_sequences.md` R110). -/

namespace Sys2Proof.Machine

variable {s t : State} {r : RingSel} {p : Port}

/-! One operation of a client: refused, or its effect on the contents of its ring. -/

theorem issue_enq_coop (hs : RingsInv s) (coop : s.params.syncMode = .cooperative) {b : Byte}
    (issued : issue p (.enq r b) s = .next t) :
    (¬ ((s.ring r).inited = true ∧ (s.ring r).isFull (s.cap r) = false) ∧ SameRings s t) ∨
    ((s.ring r).inited = true ∧ (s.ring r).isFull (s.cap r) = false ∧
      (t.ring r).contents (t.cap r) = (s.ring r).contents (s.cap r) ++ [some b] ∧
      t.ring (otherRing r) = s.ring (otherRing r)) := by
  have hq := hs.ring r
  have hl : legalCap (s.cap r) = true := cap_legal hs.1 r
  have cap : t.cap r = s.cap r := congrArg (capOf · r) (issue_frame issued).1
  obtain ⟨tx, rx, -, why⟩ | ⟨inited, room, -, ring, other⟩ := issue_enq issued
  · rw [seesFull_coop coop] at why
    exact .inl ⟨by simpa [imp_iff_not_or] using why, tx, rx⟩
  · rw [seesFull_coop coop] at room
    rw [cap, ring]
    exact .inr ⟨inited, room, contents_pushed hl hq.head_lt hq.tail_lt room, other⟩

theorem issue_deq_coop (hs : RingsInv s) (coop : s.params.syncMode = .cooperative)
    (issued : issue p (.deq r) s = .next t) :
    (¬ ((s.ring r).inited = true ∧ (s.ring r).isEmpty = false) ∧ t.answeredOk p = false ∧ SameRings s t) ∨
    ((s.ring r).inited = true ∧ (s.ring r).isEmpty = false ∧ t.answeredOk p = true ∧
      (s.ring r).contents (s.cap r) = some (t.answeredData p) :: (t.ring r).contents (t.cap r) ∧
      t.ring (otherRing r) = s.ring (otherRing r)) := by
  have hq := hs.ring r
  have hl : legalCap (s.cap r) = true := cap_legal hs.1 r
  have cap : t.cap r = s.cap r := congrArg (capOf · r) (issue_frame issued).1
  obtain ⟨tx, rx, refused, why⟩ | ⟨inited, byte, ok, data, ring, other⟩ := issue_deq issued
  · rw [seesEmpty_coop coop] at why
    exact .inl ⟨by simpa [imp_iff_not_or] using why, refused, tx, rx⟩
  · rw [seesEmpty_coop coop] at byte
    obtain ⟨v, read⟩ := hq.head_resident hs.1 byte
    refine .inr ⟨inited, byte, ok, ?_, other⟩
    rw [cap, ring, data, contents_popped hl hq.head_lt hq.tail_lt byte, read]
    rfl

/-! The pump's two halves. -/

/-- The transmit half hands over the oldest byte of TxRing, or leaves rings and outputs as they are. -/
theorem pumpTx_coop (hs : RingsInv s) (coop : s.params.syncMode = .cooperative) (hw : PumpIn) :
    ∃ t sent, pumpTx hw s = .next t ∧ t.rx = s.rx ∧ t.out = sent ++ s.out ∧
      (hw.txReady = true ∧ s.tx.inited = true ∧ s.tx.isEmpty = false →
        ∃ v, sent = [.hwTx v] ∧ s.tx.contents (s.cap .tx) = some v :: t.tx.contents (t.cap .tx)) ∧
      (¬ (hw.txReady = true ∧ s.tx.inited = true ∧ s.tx.isEmpty = false) → sent = [] ∧ t.tx = s.tx) := by
  cases ready : hw.txReady with
  | false => exact ⟨s, [], by simp [pumpTx, ready], rfl, rfl, by simp, fun _ => ⟨rfl, rfl⟩⟩
  | true =>
    obtain ⟨t, issued⟩ := issue_of_rings hs coop .s (.deq .tx)
    obtain ⟨-, -, -, -, -, -, -, -, -, -, out⟩ := issue_frame issued
    obtain ⟨why, refused, tx, rx⟩ | ⟨inited, byte, ok, contents, rx⟩ := issue_deq_coop hs coop issued
    · exact ⟨t, [], by simp [pumpTx, ready, issued, refused], rx, out, fun ⟨_, sends⟩ => absurd sends why,
        fun _ => ⟨rfl, tx⟩⟩
    · exact ⟨t.emit (.hwTx (t.answeredData .s)), [.hwTx (t.answeredData .s)], by simp [pumpTx, ready, issued, ok], rx,
        congrArg (_ :: ·) out, fun _ => ⟨_, rfl, contents⟩, fun idle => absurd ⟨rfl, inited, byte⟩ idle⟩

/-- The receive half reads the register when it is ready, and appends its byte where RxRing takes it. -/
theorem pumpRx_coop (hs : RingsInv s) (coop : s.params.syncMode = .cooperative) (hw : PumpIn) :
    ∃ t, pumpRx hw s = .next t ∧ t.tx = s.tx ∧
      t.out = (if hw.rxReady then [.hwRxRead hw.rxData] else []) ++ s.out ∧
      (hw.rxReady = true ∧ s.rx.inited = true ∧ s.rx.isFull (s.cap .rx) = false →
        t.rx.contents (t.cap .rx) = s.rx.contents (s.cap .rx) ++ [some hw.rxData]) ∧
      (¬ (hw.rxReady = true ∧ s.rx.inited = true ∧ s.rx.isFull (s.cap .rx) = false) → t.rx = s.rx) := by
  cases ready : hw.rxReady with
  | false => exact ⟨s, by simp [pumpRx, ready], rfl, rfl, by simp, fun _ => rfl⟩
  | true =>
    have read : RingsInv (s.emit (.hwRxRead hw.rxData)) := hs.of_eq rfl rfl rfl
    obtain ⟨t, issued⟩ := issue_of_rings read coop .s (.enq .rx hw.rxData)
    obtain ⟨-, -, -, -, -, -, -, -, -, -, out⟩ := issue_frame issued
    have ran : pumpRx hw s = .next t := by simpa [pumpRx, ready] using issued
    obtain ⟨why, tx, rx⟩ | ⟨inited, room, contents, tx⟩ := issue_enq_coop read coop issued
    · exact ⟨t, ran, tx, out, fun ⟨_, takes⟩ => absurd takes why, fun _ => rx⟩
    · exact ⟨t, ran, tx, out, fun _ => contents, fun lost => absurd ⟨rfl, inited, room⟩ lost⟩

/-! The obligation. -/

/-- Settles O55: the transmit half leaves RxRing and the receive half TxRing, so the two effects stand side by side. -/
theorem pumpMovesOneByteEachWay : Obligations.PumpMovesOneByteEachWay := by
  intro s hw rest hs coop lineU lineS none_left pump
  have rings : RingsInv { s with pumps := rest } := hs.rings.of_eq rfl rfl rfl
  obtain ⟨u, sent, sending, rx, u_out, sends, keeps_tx⟩ := pumpTx_coop rings coop hw
  have params : u.params = s.params := (pumpTx_frame sending).1
  obtain ⟨t, receiving, tx, t_out, receives, keeps_rx⟩ :=
    pumpRx_coop (pumpTx_keeps_rings rings sending) (params ▸ coop) hw
  have tx_cap : u.cap .tx = t.cap .tx := (congrArg (capOf · .tx) (pumpRx_frame receiving).1).symm
  have rx_cap : u.cap .rx = s.cap .rx := congrArg (capOf · .rx) params
  rw [← tx, tx_cap] at sends
  rw [← tx] at keeps_tx
  rw [rx, rx_cap] at receives keeps_rx
  refine ⟨t, sent, ?_, ?_, sends, keeps_tx, receives, keeps_rx⟩
  · rw [step_pump hs.legal coop lineU lineS none_left pump, runPump, sending, andThen_next, receiving]
  · rw [t_out, u_out, List.append_assoc]

end Sys2Proof.Machine
end

section
/-! PROOFS. The two callbacks in `COOPERATIVE`: what the write-callback counts (`41_client_sequences.md` R105), and what the
read-callback returns and when it ends the transfer (R106, R107). -/

namespace Sys2Proof.Machine

variable {s : State} {len count : Nat} {rest : List UsbReq}

/-! The ends of the callbacks (R105, R107). -/

theorem lower_of_le {remaining : Nat} (covered : count ≤ remaining) : lower remaining count = remaining - count :=
  if_pos covered

theorem finishWrcb_remaining (len : Nat) (s : State) : (finishWrcb len s).remaining = lower s.remaining len := by
  unfold finishWrcb
  split
  case isTrue zero => exact zero.symm
  case isFalse => rfl

theorem finishWrcb_of_zero (zero : (finishWrcb len s).remaining = 0) :
    (finishWrcb len s).mode = .idle ∧ (finishWrcb len s).out = .complete :: s.out := by
  rw [finishWrcb_remaining] at zero
  rw [finishWrcb, if_pos zero]
  exact ⟨rfl, rfl⟩

theorem finishWrcb_of_ne_zero (left : (finishWrcb len s).remaining ≠ 0) :
    (finishWrcb len s).mode = s.mode ∧ (finishWrcb len s).out = s.out := by
  rw [finishWrcb_remaining] at left
  rw [finishWrcb, if_neg left]
  exact ⟨rfl, rfl⟩

theorem finishRdcb_mode (pktSize len count : Nat) (got : List Byte) (s : State) :
    (finishRdcb pktSize len count got s).mode =
      if len < pktSize ∨ (finishRdcb pktSize len count got s).remaining = 0 then .idle else s.mode := rfl

/-! The read-callback, a whole request in one step. -/

theorem serveRequest_readCallback (reading : s.mode = .readSerial) (one_le : 1 ≤ len) (len_le : len ≤ s.params.pkt) :
    serveRequest (.readCallback len) s = runRdcb len (len - 1) [] none { s with uTask := .rdcb len (len - 1) [] } := by
  simp [serveRequest, beginRequest, reading, beginRdcb, readLengthOk, one_le, len_le, runUTask]

/-- The packet's count is the number of bytes the loop took from RxRing, also when it took them all. -/
theorem step_readCallback (hs : Inv s) (coop : s.params.syncMode = .cooperative) (lineU : s.lineU = none)
    (lineS : s.lineS = none) (reading : s.mode = .readSerial) (request : s.usb = .readCallback len :: rest)
    (one_le : 1 ≤ len) (len_le : len ≤ s.params.pkt) :
    ∃ u count bytes, step s = .next (finishRdcb s.params.pkt len count bytes u) ∧ u.mode = .readSerial ∧
      u.out = s.out ∧ u.params = s.params ∧ u.tx = s.tx ∧ u.usb = rest ∧ bytes.length = len - 1 ∧
      count = (if s.rx.inited then min (len - 1) (s.rx.occ (s.cap .rx)) else 0) ∧
      (bytes.take count).map some = (s.rx.contents (s.cap .rx)).take count ∧
      u.rx.contents (s.cap .rx) = (s.rx.contents (s.cap .rx)).drop count ∧
      (s.rx.inited = false → u.rx = s.rx) := by
  have begun : RingsInv { s with usb := rest, uTask := .rdcb len (len - 1) [] } := hs.rings.of_eq rfl rfl rfl
  obtain ⟨u, bytes, _, run, length, mode, -, out, params, ⟨count, held, rfl, good, kept⟩, uninit⟩ :=
    runRdcb_coop len (len - 1) [] none begun coop (by simp)
  obtain ⟨-, tx, -, -, usb, -⟩ := runRdcb_frame run
  have counted : (if count = len - 1 then len - 1 else 0 + count) = count := by split <;> omega
  refine ⟨u, count, bytes, ?_, mode.trans reading, out, params, tx, usb, length, held, good, kept, uninit⟩
  rw [step_request hs.legal coop lineU lineS request,
    serveRequest_readCallback (s := { s with usb := rest }) reading one_le len_le, run, List.nil_append]
  exact congrArg (fun k => Host.Outcome.next (finishRdcb s.params.pkt len k bytes u)) counted

/-! The obligations. -/

/-- Settles O52: the loop of R104 leaves the counter, and its end lowers it by the packet's raw length. -/
theorem writeCallbackCountsRawBytes : Obligations.WriteCallbackCountsRawBytes := by
  intro s n bytes rest hs coop lineU lineS writing request count_fits packet_fits covered
  have begun : RingsInv { s with usb := rest, uTask := .wrcb (bytes.take n.toNat) (bytes.length + 1) } :=
    hs.rings.of_eq rfl rfl rfl
  obtain ⟨u, run, mode, remaining, out, -⟩ := runWrcb_coop (bytes.length + 1) (bytes.take n.toNat) begun coop
  have stepped : step s = .next (finishWrcb (bytes.length + 1) u) := by
    rw [step_request hs.legal coop lineU lineS request, ← run]
    exact serveRequest_writeCallback (s := { s with usb := rest }) writing
      (packetOk_cons_iff.mpr ⟨packet_fits, count_fits⟩)
  refine ⟨_, stepped, ?_, fun zero => ?_, fun left => ?_⟩
  · rw [finishWrcb_remaining, remaining]
    exact lower_of_le covered
  · rw [← out]
    exact finishWrcb_of_zero zero
  · rw [← out, ← writing, ← mode]
    exact finishWrcb_of_ne_zero left

/-- Settles O53: the loop of R106 takes what the ring holds or the packet takes, and its end sends the packet. -/
theorem readCallbackReturnsWhatIsHeld : Obligations.ReadCallbackReturnsWhatIsHeld := by
  intro s len rest hs coop lineU lineS reading request one_le len_le
  obtain ⟨u, count, bytes, stepped, -, out, params, tx, usb, length, held, good, kept, uninit⟩ :=
    step_readCallback hs coop lineU lineS reading request one_le len_le
  refine ⟨_, count, bytes, stepped, tx, usb, ?_, length, held, good, ?_, uninit⟩
  · rw [finishRdcb, emit_out, out]
  · rw [show (finishRdcb s.params.pkt len count bytes u).cap .rx = s.cap .rx from congrArg (capOf · .rx) params]
    exact kept

/-- Settles O54: only the end of the callback changes the mode. -/
theorem shortPacketEndsReadTransfer : Obligations.ShortPacketEndsReadTransfer := by
  intro s len rest hs coop lineU lineS reading request one_le len_le
  obtain ⟨u, count, bytes, stepped, mode, -⟩ := step_readCallback hs coop lineU lineS reading request one_le len_le
  refine ⟨_, stepped, ?_⟩
  rw [finishRdcb_mode, mode]
  split
  case isTrue ends => exact ⟨iff_of_true rfl ends, .inl rfl⟩
  case isFalse goes_on => exact ⟨iff_of_false (by decide) goes_on, .inr rfl⟩

end Sys2Proof.Machine
end

section
/-! PROOFS. A payload framed and unframed (`41_client_sequences.md` R116), in `COOPERATIVE`. -/

namespace Sys2Proof.Machine

variable {r : RingSel}

/-! The bytes the ring's consumer takes out (R116). -/

/-- A ring that refuses a DEQ holds nothing. -/
theorem RingInv.contents_eq_nil {params : Params} {q : Ring} (hq : RingInv params r q) (legal : params.legal = true)
    (refuses : ¬ (q.inited = true ∧ q.isEmpty = false)) : q.contents (capOf params r) = [] := by
  have empty : q.isEmpty = true := by
    cases inited : q.inited with
    | false => exact hq.isEmpty_of_uninit inited
    | true => simpa [inited] using refuses
  exact contents_of_empty empty (cap_legal legal r) hq.head_lt hq.tail_lt

theorem extend_deq_coop {h : History} {v : Byte} {bytes : List Byte} (inv : Inv h.state)
    (coop : h.state.params.syncMode = .cooperative)
    (holds : (h.state.ring r).contents (h.state.cap r) = some v :: bytes.map some) :
    Inv (h.extend r .deq).state ∧ (h.extend r .deq).state.params = h.state.params ∧
      (h.extend r .deq).delivered = h.delivered ++ [v] ∧
      ((h.extend r .deq).state.ring r).contents ((h.extend r .deq).state.cap r) = bytes.map some := by
  obtain ⟨t, issued⟩ := issue_of_inv (p := consumer r) (i := .deq r) inv (decide_eq_true rfl)
  rw [History.extend, issued]
  obtain ⟨why, -⟩ | ⟨-, -, ok, contents, -⟩ := issue_deq_coop inv.rings coop issued
  · have none_held : (h.state.ring r).contents (h.state.cap r) = [] := (inv.ring r).contents_eq_nil inv.legal why
    cases none_held.symm.trans holds
  · rw [note_ok ok]
    obtain ⟨rfl, remaining⟩ : v = t.answeredData (consumer r) ∧ bytes.map some = _ := by
      simpa using holds.symm.trans contents
    exact ⟨issue_keeps_inv inv issued, (issue_frame issued).1, rfl, remaining.symm⟩

/-- As many DEQ as the ring holds bytes deliver them in order. -/
theorem foldl_deq_coop (bytes : List Byte) {h : History} (inv : Inv h.state)
    (coop : h.state.params.syncMode = .cooperative)
    (holds : (h.state.ring r).contents (h.state.cap r) = bytes.map some) :
    ((List.replicate bytes.length .deq).foldl (History.extend r) h).delivered = h.delivered ++ bytes := by
  induction bytes generalizing h with
  | nil => simp
  | cons v bytes ih =>
    obtain ⟨inv', params, delivered, holds'⟩ := extend_deq_coop inv coop holds
    rw [List.length_cons, List.replicate_succ, List.foldl_cons, ih inv' (params ▸ coop) holds', delivered,
      List.append_assoc, List.singleton_append]

/-! The obligation. -/

/-- Settles O56: the write-callback leaves TxRing holding the payload, which the pump's port takes out in order; the
read-callback takes all that RxRing holds. -/
theorem framingRoundTrip : Obligations.FramingRoundTrip := by
  refine ⟨fun s n payload padding rest hs coop lineU lineS writing request count packet_fits inited empty room => ?_,
    fun s len payload rest hs coop lineU lineS reading request one_le len_le inited holds fits => ?_⟩
  · have count_fits : n.toNat ≤ (payload ++ padding).length := by simp [count]
    obtain ⟨t, stepped, -, -, -, stored⟩ :=
      (writeCallbackStoresWhatFits s n (payload ++ padding) rest hs coop lineU lineS writing request).1
        count_fits packet_fits
    have hl : legalCap (s.cap .tx) = true := cap_legal hs.legal .tx
    have holds : t.tx.contents (t.cap .tx) = payload.map some := by
      rw [stored inited, contents_of_empty empty hl hs.tx.head_lt hs.tx.tail_lt,
        (isEmpty_iff_occ hl hs.tx.head_lt hs.tx.tail_lt).mp empty, count, List.take_left, List.nil_append,
        Nat.sub_zero, List.take_of_length_le room]
    exact ⟨t, stepped, foldl_deq_coop (r := .tx) payload (h := ⟨t, [], []⟩) (step_keeps_inv hs stepped)
      (step_params stepped ▸ coop) holds⟩
  · obtain ⟨t, count, bytes, stepped, -, -, out, -, held, good, -⟩ :=
      readCallbackReturnsWhatIsHeld s len rest hs coop lineU lineS reading request one_le len_le
    have all : count = payload.length := by
      rw [held, if_pos inited, ← contents_length, holds, List.length_map, min_eq_right fits]
    subst all
    rw [holds, ← List.map_take, List.take_length] at good
    have payload_eq : bytes.take payload.length = payload := List.map_injective_iff.mpr (Option.some_injective _) good
    refine ⟨t, bytes.drop payload.length, stepped, ?_⟩
    nth_rw 2 [← payload_eq]
    rw [List.take_append_drop]
    exact out

end Sys2Proof.Machine
end

section
/-! PROOFS. The gray code (`42_gray_cdc_option.md` R132 to R134), bit by bit: its inverse, and that one increment of a
pointer changes one bit of its code. -/

namespace Sys2Proof.Machine

variable {w i : Nat}

/-! The bits of a code and of its inverse. -/

@[simp] theorem getLsbD_gray (x : BitVec w) (i : Nat) : (gray x).getLsbD i = (x.getLsbD i ^^ x.getLsbD (i + 1)) := by
  simp [gray, Nat.add_comm]

theorem getLsbD_ungray (g : BitVec w) (hi : i < w) : (ungray g).getLsbD i = ungrayBit g (w - 1 - i) := by
  rw [ungray, BitVec.getLsbD_ofFnLE, dif_pos hi]

/-- From the top bit down, each bit above cancels the one the code has mixed in. -/
theorem ungrayBit_gray (x : BitVec w) {n : Nat} (hn : n ≤ w - 1) : ungrayBit (gray x) n = x.getLsbD (w - 1 - n) := by
  induction n with
  | zero =>
    have above_top : x.getLsbD (w - 1 + 1) = false := BitVec.getLsbD_of_ge x _ (by omega)
    rw [ungrayBit, getLsbD_gray, above_top, Bool.xor_false, Nat.sub_zero]
  | succ n ih =>
    have next_up : w - 1 - (n + 1) + 1 = w - 1 - n := by omega
    rw [ungrayBit, ih (by omega), getLsbD_gray, next_up, Bool.xor_comm, Bool.xor_assoc, Bool.xor_self, Bool.xor_false]

theorem ungray_gray (x : BitVec w) : ungray (gray x) = x := by
  refine BitVec.eq_of_getLsbD_eq fun i hi => ?_
  rw [getLsbD_ungray _ hi, ungrayBit_gray x (Nat.sub_le _ _)]
  congr 1
  omega

/-! One increment. -/

/-- Adding one flips the lowest bits up to the first 0, and no other. -/
theorem exists_testBit_flips_iff_le (x : Nat) :
    ∃ k, ∀ j, (x.testBit j ^^ (x + 1).testBit j) = decide (j ≤ k) := by
  induction x using Nat.strongRecOn with
  | ind x ih =>
    obtain even | odd := Nat.mod_two_eq_zero_or_one x
    · refine ⟨0, fun j => ?_⟩
      cases j with
      | zero => simp [Nat.testBit_zero, even, Nat.add_mod]
      | succ j => simp [Nat.testBit_add_one, show (x + 1) / 2 = x / 2 by omega]
    · obtain ⟨k, flips⟩ := ih (x / 2) (by omega)
      refine ⟨k + 1, fun j => ?_⟩
      cases j with
      | zero => simp [Nat.testBit_zero, odd, Nat.add_mod]
      | succ j => simp [Nat.testBit_add_one, show (x + 1) / 2 = x / 2 + 1 by omega, flips]

/-- Of the flipped bits `0` to `k` the code keeps one: each but the highest within the width is mixed with a flipped one. -/
theorem gray_xor_gray_succ (hw : 0 < w) (x : Nat) :
    ∃ i < w, gray (BitVec.ofNat w x) ^^^ gray (BitVec.ofNat w (x + 1)) = BitVec.twoPow w i := by
  obtain ⟨k, flips⟩ := exists_testBit_flips_iff_le x
  refine ⟨min k (w - 1), by omega, BitVec.eq_of_getLsbD_eq fun j hj => ?_⟩
  have flipped (j : Nat) : ((BitVec.ofNat w x).getLsbD j ^^ (BitVec.ofNat w (x + 1)).getLsbD j) =
      decide (j ≤ min k (w - 1)) := by
    rw [BitVec.getLsbD_ofNat, BitVec.getLsbD_ofNat, ← Bool.and_xor_distrib_left, flips, ← Bool.decide_and,
      decide_eq_decide]
    omega
  calc (gray (BitVec.ofNat w x) ^^^ gray (BitVec.ofNat w (x + 1))).getLsbD j
    _ = (decide (j ≤ min k (w - 1)) ^^ decide (j + 1 ≤ min k (w - 1))) := by
      rw [BitVec.getLsbD_xor, getLsbD_gray, getLsbD_gray, ← flipped, ← flipped, Bool.xor_assoc, Bool.xor_assoc,
        Bool.xor_left_comm (BitVec.getLsbD _ (j + 1))]
    _ = (BitVec.twoPow w (min k (w - 1))).getLsbD j := by
      rw [BitVec.getLsbD_twoPow]
      grind

theorem ofNat_and_mask {cap : Nat} (hl : legalCap cap = true) (x : Nat) :
    BitVec.ofNat cap.log2 (x &&& (cap - 1)) = BitVec.ofNat cap.log2 x := by
  obtain ⟨-, pow⟩ := legalCap_iff.mp hl
  refine BitVec.eq_of_toNat_eq ?_
  rw [BitVec.toNat_ofNat, BitVec.toNat_ofNat, pow, and_mask hl, Nat.mod_mod]

/-! The obligations. -/

/-- Settles O41: the bits of the inverse, from the top one down. -/
theorem grayCodeHasInverse : Obligations.GrayCodeHasInverse := by
  refine fun w x g => ⟨ungray_gray x, fun positive => ?_, fun i below => ?_⟩
  · rw [getLsbD_ungray g (by omega), Nat.sub_self, ungrayBit]
  · have one_up : w - 1 - i = w - 1 - (i + 1) + 1 := by omega
    have back : w - 1 - (w - 1 - (i + 1) + 1) = i := by omega
    rw [getLsbD_ungray g (by omega), getLsbD_ungray g below, one_up, ungrayBit, back]

/-- Settles O42: the masked increment is the increment at the pointer's width, wrap included. -/
theorem grayStepChangesOneBit : Obligations.GrayStepChangesOneBit := by
  intro s r x legal _
  have hl : legalCap (s.cap r) = true := cap_legal legal r
  have two_le := two_le_cap hl
  have width_pos : 0 < (s.cap r).log2 := (Nat.le_log2 (by omega)).mpr two_le
  have masked := ofNat_and_mask hl (x + 1)
  exact masked ▸ gray_xor_gray_succ width_pos x

end Sys2Proof.Machine
end

section
/-! PROOFS. The operations in `GRAY_CDC` (`42_gray_cdc_option.md` R135 to R139, R144), and that a view errs toward refusal
only (R146). -/

namespace Sys2Proof.Machine

variable {s t : State} {r : RingSel} {b : Byte} {p : Port}

/-! What a port may issue, and what it sees. -/

theorem mayIssue_gray (gray : s.params.syncMode = .grayCdc) (p : Port) : s.mayIssue p = decide (s.port = p) := by
  simp [State.mayIssue, gray]

theorem consumer_ne_producer (r : RingSel) : consumer r ≠ producer r := by cases r <;> decide

theorem view_producer (gray : s.params.syncMode = .grayCdc) (port : s.port = producer r) :
    s.view r = ((s.ring r).headSeen, (s.ring r).tail) := by
  simp [State.view, gray, port]

theorem view_consumer (gray : s.params.syncMode = .grayCdc) (port : s.port = consumer r) :
    s.view r = ((s.ring r).head, (s.ring r).tailSeen) := by
  simp [State.view, gray, port, consumer_ne_producer]

theorem seesFull_producer (gray : s.params.syncMode = .grayCdc) (port : s.port = producer r) :
    s.seesFull r = decide (((s.ring r).tail + 1) &&& (s.cap r - 1) = (s.ring r).headSeen) := by
  rw [State.seesFull, view_producer gray port]
  rfl

theorem seesEmpty_consumer (gray : s.params.syncMode = .grayCdc) (port : s.port = consumer r) :
    s.seesEmpty r = decide ((s.ring r).head = (s.ring r).tailSeen) := by
  rw [State.seesEmpty, view_consumer gray port]
  rfl

/-- A producer that sees room has its next tail short of `head_seen` (R137). -/
theorem ptrNext_tail_ne_headSeen (gray : s.params.syncMode = .grayCdc) (may : s.mayIssue (producer r) = true)
    (room : s.seesFull r = false) : ptrNext (s.cap r) (s.ring r).tail ≠ (s.ring r).headSeen := by
  rw [mayIssue_gray gray, decide_eq_true_iff] at may
  rw [seesFull_producer gray may, decide_eq_false_iff_not] at room
  exact room

/-- A consumer that sees a byte has its head short of `tail_seen` (R138). -/
theorem head_ne_tailSeen (gray : s.params.syncMode = .grayCdc) (may : s.mayIssue (consumer r) = true)
    (byte : s.seesEmpty r = false) : (s.ring r).head ≠ (s.ring r).tailSeen := by
  rw [mayIssue_gray gray, decide_eq_true_iff] at may
  rw [seesEmpty_consumer gray may, decide_eq_false_iff_not] at byte
  exact byte

/-! Refusals. -/

theorem boundTo_refused_iff {k : State → Host.Outcome State Fault Refusal} (answers : k s ≠ .refused .wrongPort) :
    boundTo p k s = .refused .wrongPort ↔ s.mayIssue p = false := by
  cases may : s.mayIssue p <;> simp [boundTo, may, answers]

theorem enqueue_ne_refused (why : Refusal) : enqueue r b s ≠ .refused why := by
  cases inited : (s.ring r).inited with
  | false => simp [enqueue_uninit inited]
  | true =>
    cases full : s.seesFull r with
    | true => simp [enqueue_full inited full]
    | false =>
      by_cases tail_lt : (s.ring r).tail < s.cap r
      · simp [enqueue_ok inited full tail_lt]
      · simp [enqueue, inited, full, memWrite, State.storeSlot, tail_lt, andThen]

theorem dequeue_ne_refused (why : Refusal) : dequeue r s ≠ .refused why := by
  cases inited : (s.ring r).inited with
  | false => simp [dequeue_uninit inited]
  | true =>
    cases empty : s.seesEmpty r with
    | true => simp [dequeue_empty inited empty]
    | false =>
      by_cases head_lt : (s.ring r).head < s.cap r
      · simp [dequeue_ok inited empty head_lt]
      · simp [dequeue, inited, empty, memRead, State.loadSlot, head_lt]

/-! ENQ and DEQ that answer OK, in either profile. -/

theorem exec_enq_of_room (may : s.mayIssue (producer r) = true) (inited : (s.ring r).inited = true)
    (room : s.seesFull r = false) (tail_lt : (s.ring r).tail < s.cap r) (b : Byte) :
    exec (.enq r b) s = .next ((s.setRing r ((s.ring r).pushed (s.cap r) b)).answerDraw .ok) :=
  (exec_enq may).trans (enqueue_ok inited room tail_lt)

theorem exec_deq_of_byte (may : s.mayIssue (consumer r) = true) (inited : (s.ring r).inited = true)
    (byte : s.seesEmpty r = false) (head_lt : (s.ring r).head < s.cap r) :
    exec (.deq r) s = .next ((s.setRing r ((s.ring r).popped (s.cap r))).answeredSlot
      (Memory.read (s.ring r).data (s.ring r).head)) :=
  (exec_deq may).trans (dequeue_ok inited byte head_lt)

theorem exec_enq_answered_ok (h : exec (.enq r b) s = .next t) (ok : Answered s t .ok) :
    s.mayIssue (producer r) = true ∧ (s.ring r).inited = true ∧ s.seesFull r = false ∧
      t = (s.setRing r ((s.ring r).pushed (s.cap r) b)).answerDraw .ok := by
  obtain ⟨may, h⟩ := boundTo_eq_next h
  obtain ⟨-, rfl⟩ | ⟨-, -, rfl⟩ | ⟨inited, room, -, pushed⟩ := enqueue_cases h
  · exact absurd ok ((answered_draw s .uninit).not_of_ne (by decide))
  · exact absurd ok ((answered_draw s .full).not_of_ne (by decide))
  · exact ⟨may, inited, room, pushed⟩

theorem exec_deq_answered_ok (h : exec (.deq r) s = .next t) (ok : Answered s t .ok) :
    s.mayIssue (consumer r) = true ∧ (s.ring r).inited = true ∧ s.seesEmpty r = false ∧
      t = (s.setRing r ((s.ring r).popped (s.cap r))).answeredSlot (Memory.read (s.ring r).data (s.ring r).head) := by
  obtain ⟨may, h⟩ := boundTo_eq_next h
  obtain ⟨-, rfl⟩ | ⟨-, -, rfl⟩ | ⟨inited, byte, -, popped⟩ := dequeue_cases h
  · exact absurd ok ((answered_draw s .uninit).not_of_ne (by decide))
  · exact absurd ok ((answered_draw s .empty).not_of_ne (by decide))
  · exact ⟨may, inited, byte, popped⟩

/-! The same operation in `COOPERATIVE`. -/

/-- The machine in `COOPERATIVE`, where every port sees the pointers themselves. -/
def State.inCoop (s : State) : State := { s with params := { s.params with syncMode := .cooperative } }

theorem inCoop_coop (s : State) : s.inCoop.params.syncMode = .cooperative := rfl

@[simp] theorem inCoop_ring (s : State) (r : RingSel) : s.inCoop.ring r = s.ring r := by cases r <;> rfl

@[simp] theorem inCoop_cap (s : State) (r : RingSel) : s.inCoop.cap r = s.cap r := by cases r <;> rfl

@[simp] theorem inCoop_rsp (s : State) (p : Port) : s.inCoop.rsp p = s.rsp p := by cases p <;> rfl

@[simp] theorem setRing_inCoop (s : State) (r : RingSel) (q : Ring) :
    s.inCoop.setRing r q = (s.setRing r q).inCoop := by cases r <;> rfl

@[simp] theorem answer_inCoop (s : State) (st : Status) (d : Byte) :
    s.inCoop.answer st d = (s.answer st d).inCoop := by
  cases port : s.port <;> simp [State.inCoop, State.answer, State.setRsp, port]

@[simp] theorem answerDraw_inCoop (s : State) (st : Status) : s.inCoop.answerDraw st = (s.answerDraw st).inCoop :=
  congrArg (fun t : State => { t with draws := s.draws + 1 }) (answer_inCoop s st (Config.freeByte s.draws))

@[simp] theorem answeredSlot_inCoop (s : State) (v : Option Byte) :
    s.inCoop.answeredSlot v = (s.answeredSlot v).inCoop := by
  cases v with
  | none => exact answerDraw_inCoop s .ok
  | some v => exact answer_inCoop s .ok v

theorem sameRings_inCoop (s : State) : SameRings s s.inCoop := ⟨rfl, rfl⟩

/-- The pointers show the room the port has seen (R146). -/
theorem exec_enq_inCoop (hs : Inv s) (h : exec (.enq r b) s = .next t) (ok : Answered s t .ok) :
    exec (.enq r b) s.inCoop = .next t.inCoop := by
  obtain ⟨may, inited, room, rfl⟩ := exec_enq_answered_ok h ok
  have not_full : (s.ring r).isFull (s.cap r) = false := (hs.ring r).isFull_false hs.legal (room_of_seesFull room may)
  have tail_lt : (s.ring r).tail < s.cap r := (hs.ring r).tail_lt
  have sees_room : s.inCoop.seesFull r = false := by simpa [seesFull_eq_isFull (inCoop_coop s)] using not_full
  rw [exec_enq_of_room (mayIssue_coop (inCoop_coop s) _) (by simpa using inited) sees_room (by simpa using tail_lt)]
  simp

/-- The pointers show the byte the port has seen (R146). -/
theorem exec_deq_inCoop (hs : Inv s) (h : exec (.deq r) s = .next t) (ok : Answered s t .ok) :
    exec (.deq r) s.inCoop = .next t.inCoop := by
  obtain ⟨may, inited, byte, rfl⟩ := exec_deq_answered_ok h ok
  have not_empty : (s.ring r).isEmpty = false := (hs.ring r).isEmpty_false hs.legal (byte_of_seesEmpty byte may)
  have head_lt : (s.ring r).head < s.cap r := (hs.ring r).head_lt
  have sees_byte : s.inCoop.seesEmpty r = false := by simpa [seesEmpty_eq_isEmpty (inCoop_coop s)] using not_empty
  rw [exec_deq_of_byte (mayIssue_coop (inCoop_coop s) _) (by simpa using inited) sees_byte (by simpa using head_lt)]
  simp

/-! The obligations. -/

/-- Settles O19: the port is the one INIT is bound to, and each initialised ring has all its pointers 0. -/
theorem initInGrayClearsSeenPointers : Obligations.InitInGrayClearsSeenPointers := by
  intro s gray port
  have may : s.mayIssue .u = true := mayIssue_port .u port
  have cleared (q : Ring) : initRing s.params.syncMode q =
      { inited := true, head := 0, tail := 0, headSeen := 0, tailSeen := 0, data := q.data } := by rw [gray]; rfl
  refine ⟨fun r => ?_, ?_⟩
  · have issued := exec_init (r := r) may
    exact ⟨_, issued, answered_exec_init issued, exec_frame issued, (exec_init_ring (.inl rfl) issued).trans (cleared _),
      exec_keeps_other_ring rfl issued⟩
  · have issued := exec_initall may
    exact ⟨_, issued, answered_exec_initall issued, exec_frame issued,
      fun r => (exec_init_ring (.inr rfl) issued).trans (cleared _)⟩

/-- Settles O26: ENQ tests `inited`, then Full as its port sees it, and only the third arm pushes. -/
theorem enqInGrayTestsHeadSeen : Obligations.EnqInGrayTestsHeadSeen := by
  intro s r b gray port
  have may : s.mayIssue (producer r) = true := mayIssue_port _ port
  refine ⟨fun uninit => changes_nothing_of_answerDraw ((exec_enq may).trans (enqueue_uninit uninit)),
    fun inited full => changes_nothing_of_answerDraw ((exec_enq may).trans (enqueue_full inited ?_)),
    fun inited room tail_lt => ?_⟩
  · simpa [seesFull_producer gray port] using full
  · have issued := exec_enq_of_room may inited (by simpa [seesFull_producer gray port] using room) tail_lt b
    exact ⟨_, _, issued, answered_draw_setRing s _ .ok, exec_frame issued, exec_keeps_other_ring rfl issued,
      by rw [answerDraw_ring, setRing_ring_self]; rfl, fun j => read_write _ _ j b⟩

/-- Settles O27: DEQ tests `inited`, then Empty as its port sees it, and only the third arm pops. -/
theorem deqInGrayTestsTailSeen : Obligations.DeqInGrayTestsTailSeen := by
  intro s r gray port
  have may : s.mayIssue (consumer r) = true := mayIssue_port _ port
  refine ⟨fun uninit => changes_nothing_of_answerDraw ((exec_deq may).trans (dequeue_uninit uninit)),
    fun inited empty => changes_nothing_of_answerDraw ((exec_deq may).trans (dequeue_empty inited ?_)),
    fun inited byte head_lt => ?_⟩
  · simpa [seesEmpty_consumer gray port] using empty
  · have issued := exec_deq_of_byte may inited (by simpa [seesEmpty_consumer gray port] using byte) head_lt
    have ok := answeredWith_slot_setRing (r := r) s ((s.ring r).popped (s.cap r))
      (Memory.read (s.ring r).data (s.ring r).head)
    exact ⟨_, issued, ⟨_, ok⟩, fun v read => by simpa [State.slotByte, read] using ok, exec_frame issued,
      exec_keeps_other_ring rfl issued, by rw [(answeredFrom_slot _ _).ring, setRing_ring_self]; rfl⟩

/-- Settles O28: both predicates only answer, by the pair of pointers in the port's view. -/
theorem predicatesInGrayAnswerByView : Obligations.PredicatesInGrayAnswerByView := by
  intro s r gray
  have empty_only := answeredFrom_answer s (predicateStatus (s.ring r).inited) (predicateByte (s.seesEmpty r))
  have full_only := answeredFrom_answer s (predicateStatus (s.ring r).inited) (predicateByte (s.seesFull r))
  refine ⟨_, _, rfl, rfl, empty_only.rings, empty_only.around, full_only.rings, full_only.around,
    fun port => ?_, fun port => ?_⟩
  · rw [State.seesEmpty, State.seesFull, view_producer gray port]
    exact ⟨answered_predicate_decide _ _, answered_predicate_decide _ _⟩
  · rw [State.seesEmpty, State.seesFull, view_consumer gray port]
    exact ⟨answered_predicate_decide _ _, answered_predicate_decide _ _⟩

/-- Settles O29: of the eight operations four are bound to a port, and nothing but that refuses one of them. -/
theorem wrongPortRefusedInGray : Obligations.WrongPortRefusedInGray := by
  intro s i gray
  have bound {p : Port} {k : State → Host.Outcome State Fault Refusal} (answers : k s ≠ .refused .wrongPort) :
      boundTo p k s = .refused .wrongPort ↔ decide (s.port = p) = false := by
    rw [boundTo_refused_iff answers, mayIssue_gray gray]
  cases i with
  | nop => exact iff_of_false nofun nofun
  | rsvd7 => exact iff_of_false nofun nofun
  | isempty r => exact iff_of_false nofun nofun
  | isfull r => exact iff_of_false nofun nofun
  | init r => exact bound (k := fun t => respondDraw .ok (t.initAt r)) nofun
  | initall => exact bound (k := fun t => respondDraw .ok ((t.initAt .tx).initAt .rx)) nofun
  | enq r b => exact bound (enqueue_ne_refused _)
  | deq r => exact bound (dequeue_ne_refused _)

/-- Settles O46: what a view shows the pointers show too, so both profiles take the OK arm, with one effect. -/
theorem grayErrsTowardRefusal : Obligations.GrayErrsTowardRefusal := by
  intro s r hs gray
  have hq := hs.ring r
  refine ⟨fun port room => hq.isFull_false hs.legal (room_of_seesFull room (mayIssue_port _ port)),
    fun port byte => hq.isEmpty_false hs.legal (byte_of_seesEmpty byte (mayIssue_port _ port)), ?_⟩
  rintro i t (rfl | ⟨b, rfl⟩) issued ok
  · exact ⟨t.inCoop, exec_deq_inCoop hs issued ok, sameRings_inCoop t, inCoop_rsp t _⟩
  · exact ⟨t.inCoop, exec_enq_inCoop hs issued ok, sameRings_inCoop t, inCoop_rsp t _⟩

end Sys2Proof.Machine
end

section
/-! PROOFS. The pointers of `GRAY_CDC` as distances: the counts of R145 and how operations move them, and the synchroniser
steps (`42_gray_cdc_option.md` R140, R142). -/

namespace Sys2Proof.Machine

variable {s t : State} {r : RingSel} {q : Ring} {p : Params} {b : Byte} {cap lo mid hi : Nat}

/-! Distances. -/

theorem ptrDist_eq_zero_iff (hl : legalCap cap = true) (lo_lt : lo < cap) (hi_lt : hi < cap) :
    ptrDist cap lo hi = 0 ↔ lo = hi := by
  rw [ptrDist_eq hl lo_lt hi_lt]
  split <;> omega

/-- Distances add up while they stay below the capacity. -/
theorem ptrDist_add (hl : legalCap cap = true) (lo_lt : lo < cap) (mid_lt : mid < cap) (hi_lt : hi < cap)
    (fits : ptrDist cap lo mid + ptrDist cap mid hi < cap) :
    ptrDist cap lo hi = ptrDist cap lo mid + ptrDist cap mid hi := by
  rw [ptrDist_eq hl lo_lt mid_lt, ptrDist_eq hl mid_lt hi_lt] at fits ⊢
  rw [ptrDist_eq hl lo_lt hi_lt]
  split at fits <;> split at fits <;> split <;> omega

theorem ptrDist_ptrNext (hl : legalCap cap = true) (lo_lt : lo < cap) : ptrDist cap lo (ptrNext cap lo) = 1 := by
  have two_le := two_le_cap hl
  rw [ptrDist_eq hl lo_lt (ptrNext_lt hl _), ptrNext_eq hl lo_lt]
  split <;> split <;> omega

theorem ptrDist_ptrNext_right (hl : legalCap cap = true) (lo_lt : lo < cap) (hi_lt : hi < cap)
    (fits : ptrDist cap lo hi + 1 < cap) : ptrDist cap lo (ptrNext cap hi) = ptrDist cap lo hi + 1 := by
  have one := ptrDist_ptrNext hl hi_lt
  rw [ptrDist_add hl lo_lt hi_lt (ptrNext_lt hl _) (by omega), one]

/-! The counts `a`, `b`, `c` (R145). -/

theorem RingInv.producer_occ (hq : RingInv p r q) (legal : p.legal = true) (gray : p.syncMode = .grayCdc) :
    ptrDist (capOf p r) q.headSeen q.tail =
      q.headLag (capOf p r) + q.seenOcc (capOf p r) + q.tailLag (capOf p r) := by
  have hl := cap_legal legal r
  have counts := hq.counts gray
  have true_occ := hq.occ_split legal gray
  have two_le := two_le_cap hl
  have through_head := ptrDist_add hl hq.headSeen_lt hq.head_lt hq.tail_lt
    (by change q.headLag (capOf p r) + q.occ (capOf p r) < _; omega)
  change _ = q.headLag (capOf p r) + q.occ (capOf p r) at through_head
  omega

theorem RingInv.tailLag_pushed (hq : RingInv p r q) (legal : p.legal = true)
    (room : q.headLag (capOf p r) + q.seenOcc (capOf p r) + q.tailLag (capOf p r) ≤ capOf p r - 2) :
    (q.pushed (capOf p r) b).tailLag (capOf p r) = q.tailLag (capOf p r) + 1 := by
  have hl := cap_legal legal r
  have two_le := two_le_cap hl
  exact ptrDist_ptrNext_right hl hq.tailSeen_lt hq.tail_lt (by change q.tailLag (capOf p r) + 1 < _; omega)

/-- The consumer's view is a ring with `tail_seen` for its tail, and loses its oldest byte. -/
theorem RingInv.seenOcc_popped (hq : RingInv p r q) (legal : p.legal = true) (byte : q.head ≠ q.tailSeen) :
    q.seenOcc (capOf p r) = (q.popped (capOf p r)).seenOcc (capOf p r) + 1 :=
  occ_popped (q := { q with tail := q.tailSeen }) (cap_legal legal r) hq.head_lt hq.tailSeen_lt
    (isEmpty_eq_false_iff.mpr byte)

theorem RingInv.headLag_popped (hq : RingInv p r q) (legal : p.legal = true) (gray : p.syncMode = .grayCdc)
    (byte : q.head ≠ q.tailSeen) : (q.popped (capOf p r)).headLag (capOf p r) = q.headLag (capOf p r) + 1 := by
  have hl := cap_legal legal r
  have counts := hq.counts gray
  have seen := hq.seenOcc_popped legal byte
  have two_le := two_le_cap hl
  exact ptrDist_ptrNext_right hl hq.headSeen_lt hq.head_lt (by change q.headLag (capOf p r) + 1 < _; omega)

theorem initRing_counts (hl : legalCap cap = true) (q : Ring) : (initRing .grayCdc q).headLag cap = 0 ∧
    (initRing .grayCdc q).seenOcc cap = 0 ∧ (initRing .grayCdc q).tailLag cap = 0 :=
  ⟨ptrDist_self hl 0, ptrDist_self hl 0, ptrDist_self hl 0⟩

theorem RingInv.headLag_eq_zero_iff (hq : RingInv p r q) (legal : p.legal = true) :
    q.headLag (capOf p r) = 0 ↔ q.headSeen = q.head :=
  ptrDist_eq_zero_iff (cap_legal legal r) hq.headSeen_lt hq.head_lt

theorem RingInv.tailLag_eq_zero_iff (hq : RingInv p r q) (legal : p.legal = true) :
    q.tailLag (capOf p r) = 0 ↔ q.tailSeen = q.tail :=
  ptrDist_eq_zero_iff (cap_legal legal r) hq.tailSeen_lt hq.tail_lt

/-! The synchroniser steps. -/

/-- The ring after SYNC_H with the choice `k` (R140). -/
def Ring.headSynced (cap k : Nat) (q : Ring) : Ring :=
  { q with headSeen := ptrAdvance cap q.headSeen (min k (q.headLag cap)) }

/-- The ring after SYNC_T with the choice `k` (R142). -/
def Ring.tailSynced (cap k : Nat) (q : Ring) : Ring :=
  { q with tailSeen := ptrAdvance cap q.tailSeen (min k (q.tailLag cap)) }

theorem headSynced_of_le {k : Nat} (within : k ≤ q.headLag cap) :
    q.headSynced cap k = { q with headSeen := (q.headSeen + k) &&& (cap - 1) } := by
  rw [Ring.headSynced, min_eq_left within, ptrAdvance]

theorem tailSynced_of_le {k : Nat} (within : k ≤ q.tailLag cap) :
    q.tailSynced cap k = { q with tailSeen := (q.tailSeen + k) &&& (cap - 1) } := by
  rw [Ring.tailSynced, min_eq_left within, ptrAdvance]

section RingSynced

variable (hq : RingInv p r q) (legal : p.legal = true) (gray : p.syncMode = .grayCdc) (k : Nat)
include hq legal gray

theorem RingInv.headSynced : RingInv p r (q.headSynced (capOf p r) k) :=
  (hq.syncHead legal gray (Nat.min_le_right _ _)).1

theorem RingInv.tailSynced : RingInv p r (q.tailSynced (capOf p r) k) :=
  (hq.syncTail legal gray (Nat.min_le_right _ _)).1

theorem RingInv.headLag_headSynced :
    (q.headSynced (capOf p r) k).headLag (capOf p r) = q.headLag (capOf p r) - k := by
  rw [Ring.headSynced, (hq.syncHead legal gray (Nat.min_le_right _ _)).2]
  omega

theorem RingInv.tailLag_tailSynced :
    (q.tailSynced (capOf p r) k).tailLag (capOf p r) = q.tailLag (capOf p r) - k := by
  rw [Ring.tailSynced, (hq.syncTail legal gray (Nat.min_le_right _ _)).2.1]
  omega

/-- A choice of the whole lag catches up. -/
theorem RingInv.headSeen_headSynced (whole : k = q.headLag (capOf p r)) :
    (q.headSynced (capOf p r) k).headSeen = q.head := by
  have synced := hq.headSynced legal gray k
  exact (synced.headLag_eq_zero_iff legal).mp (by rw [hq.headLag_headSynced legal gray, whole, Nat.sub_self])

theorem RingInv.tailSeen_tailSynced (whole : k = q.tailLag (capOf p r)) :
    (q.tailSynced (capOf p r) k).tailSeen = q.tail := by
  have synced := hq.tailSynced legal gray k
  exact (synced.tailLag_eq_zero_iff legal).mp (by rw [hq.tailLag_tailSynced legal gray, whole, Nat.sub_self])

end RingSynced

section Synchroniser

variable {k : Nat} {rest : List Input} (legal : s.params.legal = true) (gray : s.params.syncMode = .grayCdc)
  (awaits : AwaitsInput s)
include legal gray awaits

theorem step_syncHead (next : s.inputs = .syncH r k :: rest) : ∃ t, step s = .next t ∧ t.cap r = s.cap r ∧
    t.ring (otherRing r) = s.ring (otherRing r) ∧ t.ring r = (s.ring r).headSynced (s.cap r) k := by
  rw [step_input legal awaits next, applyInput, onlyGray, gray]
  cases r <;> exact ⟨_, rfl, rfl, rfl, rfl⟩

theorem step_syncTail (next : s.inputs = .syncT r k :: rest) : ∃ t, step s = .next t ∧ t.cap r = s.cap r ∧
    t.ring (otherRing r) = s.ring (otherRing r) ∧ t.ring r = (s.ring r).tailSynced (s.cap r) k := by
  rw [step_input legal awaits next, applyInput, onlyGray, gray]
  cases r <;> exact ⟨_, rfl, rfl, rfl, rfl⟩

end Synchroniser

/-! The obligations. -/

/-- Settles O43: a choice up to the lag is taken whole, and a lag of 0 means equal pointers. -/
theorem synchronisersMoveWithinLag : Obligations.SynchronisersMoveWithinLag := by
  refine ⟨fun s r k rest hs gray awaits next within => ?_, fun s r k rest hs gray awaits next within => ?_⟩
  · obtain ⟨t, stepped, cap, other, ring⟩ := step_syncHead hs.legal gray awaits next
    have hq := hs.ring r
    refine ⟨t, stepped, other, ring.trans (headSynced_of_le within), ?_, fun whole => ?_⟩
    · rw [cap, ring]
      exact hq.headLag_headSynced hs.legal gray k
    · rw [ring]
      exact hq.headSeen_headSynced hs.legal gray k whole
  · obtain ⟨t, stepped, cap, other, ring⟩ := step_syncTail hs.legal gray awaits next
    have hq := hs.ring r
    refine ⟨t, stepped, other, ring.trans (tailSynced_of_le within), ?_, fun whole => ?_⟩
    · rw [cap, ring]
      exact hq.tailLag_tailSynced hs.legal gray k
    · rw [ring]
      exact hq.tailSeen_tailSynced hs.legal gray k whole

/-- Settles O45: each count is a distance between two pointers, of which an operation advances one, or clears all. -/
theorem grayCountsMoveAsStated : Obligations.GrayCountsMoveAsStated := by
  intro s r hs gray _
  have hq := hs.ring r
  refine ⟨hq.counts gray, hq.occ_split hs.legal gray, hq.producer_occ hs.legal gray, fun b t issued ok => ?_,
    fun t issued ok => ?_, fun i t named issued => ?_⟩ <;> rw [(exec_frame issued).cap r]
  · obtain ⟨may, -, sees_room, rfl⟩ := exec_enq_answered_ok issued ok
    have room := hq.not_full hs.legal gray (ptrNext_tail_ne_headSeen gray may sees_room)
    rw [answerDraw_ring, setRing_ring_self]
    exact ⟨room, rfl, rfl, hq.tailLag_pushed hs.legal room⟩
  · obtain ⟨may, -, sees_byte, rfl⟩ := exec_deq_answered_ok issued ok
    have byte := head_ne_tailSeen gray may sees_byte
    rw [(answeredFrom_slot _ _).ring, setRing_ring_self]
    exact ⟨hq.headLag_popped hs.legal gray byte, hq.seenOcc_popped hs.legal byte, rfl⟩
  · rw [exec_init_ring named issued, gray]
    exact initRing_counts (cap_legal hs.legal r) _

end Sys2Proof.Machine
end

section
/-! PROOFS. The synchronisers along a run of `GRAY_CDC` (`42_gray_cdc_option.md` R143): a lag that is lowered again and
again reaches 0, and stays there while its pointer rests. -/

namespace Sys2Proof.Machine

variable {s : State} {r : RingSel} {p : Params} {n m v : Nat}

/-! What a synchroniser catches up with, for both registers at once. -/

/-- The register `seen` follows the pointer `ptr` at the distance `lag`: they are equal where the lag is 0, and no step
that leaves the pointer raises the lag. -/
structure Follows (seen ptr : Ring → Nat) (lag : Nat → Ring → Nat) : Prop where
  lag_eq_zero_iff : ∀ {p : Params} {r : RingSel} {q : Ring}, RingInv p r q → p.legal = true →
    (lag (capOf p r) q = 0 ↔ seen q = ptr q)
  lag_step_le : ∀ {s t : State} {r : RingSel}, Inv s → s.params.syncMode = .grayCdc → step s = .next t →
    ptr (t.ring r) = ptr (s.ring r) → lag (s.cap r) (t.ring r) ≤ lag (s.cap r) (s.ring r)

theorem headSeen_follows_head : Follows Ring.headSeen Ring.head Ring.headLag where
  lag_eq_zero_iff := RingInv.headLag_eq_zero_iff
  lag_step_le {s t r} hs gray stepped rests := by
    have hl : legalCap (s.cap r) = true := cap_legal hs.legal r
    have zero_le : Ring.headLag (s.cap r) Ring.reset ≤ Ring.headLag (s.cap r) (s.ring r) :=
      (ptrDist_self hl 0).le.trans (Nat.zero_le _)
    obtain (same | ⟨b, pushed⟩ | popped | init) | reset | ⟨k, -, synced⟩ | ⟨k, -, synced⟩ := step_ring_gray r gray stepped
    · rw [same]
    · exact (congrArg _ pushed).le
    · exact absurd (popped ▸ rests) (ptrNext_ne_self hl _)
    · exact (congrArg _ init).le.trans zero_le
    · exact (congrArg _ reset).le.trans zero_le
    · rw [synced]
      exact ((hs.ring r).headLag_headSynced hs.legal gray k).le.trans (Nat.sub_le _ _)
    · exact (congrArg _ synced).le

theorem tailSeen_follows_tail : Follows Ring.tailSeen Ring.tail Ring.tailLag where
  lag_eq_zero_iff := RingInv.tailLag_eq_zero_iff
  lag_step_le {s t r} hs gray stepped rests := by
    have hl : legalCap (s.cap r) = true := cap_legal hs.legal r
    have zero_le : Ring.tailLag (s.cap r) Ring.reset ≤ Ring.tailLag (s.cap r) (s.ring r) :=
      (ptrDist_self hl 0).le.trans (Nat.zero_le _)
    obtain (same | ⟨b, pushed⟩ | popped | init) | reset | ⟨k, -, synced⟩ | ⟨k, -, synced⟩ := step_ring_gray r gray stepped
    · rw [same]
    · exact absurd (pushed ▸ rests) (ptrNext_ne_self hl _)
    · exact (congrArg _ popped).le
    · exact (congrArg _ init).le.trans zero_le
    · exact (congrArg _ reset).le.trans zero_le
    · exact (congrArg _ synced).le
    · rw [synced]
      exact ((hs.ring r).tailLag_tailSynced hs.legal gray k).le.trans (Nat.sub_le _ _)

/-! A run. -/

@[simp] theorem feed_ring (s : State) (es : List Input) (r : RingSel) : (s.feed es).ring r = s.ring r := by
  cases r <;> rfl

theorem Inv.feed (hs : Inv s) (es : List Input) : Inv (s.feed es) := hs.of_eq rfl rfl rfl rfl rfl

/-- A run of a `GRAY_CDC` machine with the parameters `p` within the invariant. -/
structure GrayRun (p : Params) (env : Nat → List Input) (σ : Nat → State) : Prop where
  steps : IsRun env σ
  inv : ∀ n, Inv (σ n)
  params : ∀ n, (σ n).params = p
  gray : p.syncMode = .grayCdc

variable {env : Nat → List Input} {σ : Nat → State}

theorem IsRun.grayRun (steps : IsRun env σ) (inv : Inv (σ 0)) (gray : (σ 0).params.syncMode = .grayCdc) :
    GrayRun (σ 0).params env σ where
  steps := steps
  gray := gray
  inv n := by
    induction n with
    | zero => exact inv
    | succ n ih => exact step_keeps_inv (ih.feed (env n)) (steps n)
  params n := by
    induction n with
    | zero => rfl
    | succ n ih => exact (step_params (steps n)).trans ih

namespace GrayRun

variable (run : GrayRun p env σ)
include run

theorem legal : p.legal = true := run.params 0 ▸ (run.inv 0).legal

theorem ringInv (n : Nat) (r : RingSel) : RingInv p r ((σ n).ring r) := run.params n ▸ (run.inv n).ring r

theorem cap (n : Nat) (r : RingSel) : (σ n).cap r = capOf p r := congrArg (capOf · r) (run.params n)

theorem gray_at (n : Nat) : (σ n).params.syncMode = .grayCdc := run.params n ▸ run.gray

variable {seen ptr : Ring → Nat} {lag : Nat → Ring → Nat} (follows : Follows seen ptr lag)
include follows

/-- While the pointer rests the lag never rises. -/
theorem lag_antitoneOn (rests : KeepsFrom (fun m => ptr ((σ m).ring r)) n v) :
    AntitoneOn (fun m => lag (capOf p r) ((σ m).ring r)) {m | n ≤ m} := by
  refine antitoneOn_nat_Ici_of_succ_le fun m later => ?_
  have same : ptr ((σ (m + 1)).ring r) = ptr ((σ m).ring r) :=
    (rests (m + 1) (Nat.le_succ_of_le later)).trans (rests m later).symm
  have falls := follows.lag_step_le (r := r) ((run.inv m).feed (env m)) (run.gray_at m) (run.steps m)
    (by rw [feed_ring, same])
  rw [feed_ring, show ((σ m).feed (env m)).cap r = capOf p r from run.cap m r] at falls
  exact falls

/-- A synchroniser that moves again and again catches up with a pointer that rests. -/
theorem catches_up (rests : KeepsFrom (fun m => ptr ((σ m).ring r)) n v)
    (moves : ∀ n, ∃ m, n ≤ m ∧ lag (capOf p r) ((σ (m + 1)).ring r) ≤ lag (capOf p r) ((σ m).ring r) - 1) :
    ∃ m, n ≤ m ∧ seen ((σ m).ring r) = v := by
  induction distance : lag (capOf p r) ((σ n).ring r) using Nat.strongRecOn generalizing n with
  | ind d ih =>
    by_cases zero : d = 0
    · have caught := (follows.lag_eq_zero_iff (run.ringInv n r) run.legal).mp (distance.trans zero)
      exact ⟨n, le_rfl, caught.trans (rests n le_rfl)⟩
    · obtain ⟨m, n_le, lowered⟩ := moves n
      have falls : lag (capOf p r) ((σ m).ring r) ≤ lag (capOf p r) ((σ n).ring r) :=
        run.lag_antitoneOn follows rests (le_refl n) n_le n_le
      have nearer : lag (capOf p r) ((σ (m + 1)).ring r) < d := by omega
      obtain ⟨m', m_lt, caught⟩ := ih _ nearer (n := m + 1) (fun k m_lt => rests k (by omega)) rfl
      exact ⟨m', by omega, caught⟩

/-- Once it has caught up with a pointer that rests, the register stays equal to it. -/
theorem stays_caught_up (rests : KeepsFrom (fun m => ptr ((σ m).ring r)) n v) (n_le : n ≤ m)
    (caught : seen ((σ m).ring r) = v) {m' : Nat} (m_le : m ≤ m') : seen ((σ m').ring r) = v := by
  have zero : lag (capOf p r) ((σ m).ring r) = 0 :=
    (follows.lag_eq_zero_iff (run.ringInv m r) run.legal).mpr (caught.trans (rests m n_le).symm)
  have falls : lag (capOf p r) ((σ m').ring r) ≤ lag (capOf p r) ((σ m).ring r) :=
    run.lag_antitoneOn follows rests n_le (n_le.trans m_le) m_le
  have still := (follows.lag_eq_zero_iff (run.ringInv m' r) run.legal).mp (by omega)
  exact still.trans (rests m' (n_le.trans m_le))

omit follows

/-! A schedule that keeps all synchronisers moving is weakly fair. -/

theorem lowers_headLag {k : Nat} (takes : Takes ((σ m).feed (env m)) (.syncH r (k + 1))) :
    ((σ (m + 1)).ring r).headLag (capOf p r) ≤ ((σ m).ring r).headLag (capOf p r) - 1 := by
  obtain ⟨awaits, rest, next⟩ := takes
  obtain ⟨t, stepped, -, -, ring⟩ := step_syncHead ((run.inv m).feed (env m)).legal (run.gray_at m) awaits next
  cases (run.steps m).symm.trans stepped
  rw [ring, feed_ring, show ((σ m).feed (env m)).cap r = capOf p r from run.cap m r,
    (run.ringInv m r).headLag_headSynced run.legal run.gray]
  omega

theorem lowers_tailLag {k : Nat} (takes : Takes ((σ m).feed (env m)) (.syncT r (k + 1))) :
    ((σ (m + 1)).ring r).tailLag (capOf p r) ≤ ((σ m).ring r).tailLag (capOf p r) - 1 := by
  obtain ⟨awaits, rest, next⟩ := takes
  obtain ⟨t, stepped, -, -, ring⟩ := step_syncTail ((run.inv m).feed (env m)).legal (run.gray_at m) awaits next
  cases (run.steps m).symm.trans stepped
  rw [ring, feed_ring, show ((σ m).feed (env m)).cap r = capOf p r from run.cap m r,
    (run.ringInv m r).tailLag_tailSynced run.legal run.gray]
  omega

theorem weaklyFair (moving : KeepsMoving env σ) : WeaklyFair σ := by
  refine fun r => ⟨fun n v rests => run.catches_up headSeen_follows_head rests fun n => ?_,
    fun n v rests => run.catches_up tailSeen_follows_tail rests fun n => ?_⟩
  · obtain ⟨m, k, n_le, takes⟩ := (moving r n).1
    exact ⟨m, n_le, run.lowers_headLag takes⟩
  · obtain ⟨m, k, n_le, takes⟩ := (moving r n).2
    exact ⟨m, n_le, run.lowers_tailLag takes⟩

end GrayRun

/-! The views once the seen pointers have caught up. -/

theorem seesFull_of_headSeen_eq (gray : s.params.syncMode = .grayCdc) (caught : (s.ring r).headSeen = (s.ring r).head) :
    ({ s with port := producer r } : State).seesFull r = (s.ring r).isFull (s.cap r) := by
  rw [seesFull_producer (s := { s with port := producer r }) gray rfl, ring_onPort, caught]
  rfl

theorem seesEmpty_of_tailSeen_eq (gray : s.params.syncMode = .grayCdc) (caught : (s.ring r).tailSeen = (s.ring r).tail) :
    ({ s with port := consumer r } : State).seesEmpty r = (s.ring r).isEmpty := by
  rw [seesEmpty_consumer (s := { s with port := consumer r }) gray rfl, ring_onPort, caught]
  rfl

/-! The obligation. -/

/-- Settles O44: fairness gives a point where the register has caught up, and from there the view is the true one. -/
theorem fairSynchronisersCatchUp : Obligations.FairSynchronisersCatchUp := by
  intro env σ steps inv gray
  have run := steps.grayRun inv gray
  refine ⟨run.weaklyFair, fun fair r n h rests => ?_, fun fair r n t rests => ?_⟩
  · obtain ⟨m, n_le, caught⟩ := (fair r).1 n h rests
    refine ⟨m, n_le, fun m' m_le => ?_⟩
    have stays := run.stays_caught_up headSeen_follows_head rests n_le caught m_le
    have view := seesFull_of_headSeen_eq (run.gray_at m') (stays.trans (rests m' (n_le.trans m_le)).symm)
    exact ⟨stays, view.trans⟩
  · obtain ⟨m, n_le, caught⟩ := (fair r).2 n t rests
    refine ⟨m, n_le, fun m' m_le => ?_⟩
    have stays := run.stays_caught_up tailSeen_follows_tail rests n_le caught m_le
    have view := seesEmpty_of_tailSeen_eq (run.gray_at m') (stays.trans (rests m' (n_le.trans m_le)).symm)
    exact ⟨stays, view.trans⟩

end Sys2Proof.Machine
end

section
/-! PROOFS. The clients in `GRAY_CDC`, one move at a time (`42_gray_cdc_option.md` R147, R148; `41_client_sequences.md`
R104 to R107, R110). -/

namespace Sys2Proof.Machine

variable {s t : State} {r : RingSel} {p : Port} {rest : List Input}

/-- The invariant of `GRAY_CDC` does not look at the pump's sequence. -/
theorem Inv.of_eq_gray (hs : Inv s) (gray : s.params.syncMode = .grayCdc) (params : t.params = s.params)
    (tx : t.tx = s.tx) (rx : t.rx = s.rx) (uTask : t.uTask = s.uTask) : Inv t := by
  refine (hs.rings.of_eq params tx rx).inv ((taskInv_gray_iff (by rw [params, gray])).mpr ?_)
  rw [uTask]
  exact (taskInv_gray_iff gray).mp hs.tasks

/-! One operation of a ring's client. -/

/-- The producer sees room in the ring, and it is initialised (R137). -/
def Ring.SeenWithRoom (cap : Nat) (q : Ring) : Prop := q.inited = true ∧ (q.tail + 1) &&& (cap - 1) ≠ q.headSeen

/-- The consumer sees a byte in the ring, and it is initialised (R138). -/
def Ring.SeenWithByte (q : Ring) : Prop := q.inited = true ∧ q.head ≠ q.tailSeen

theorem issue_enq_gray (hs : Inv s) (gray : s.params.syncMode = .grayCdc) (client : producer r = p) (b : Byte) :
    ∃ t, issue p (.enq r b) s = .next t ∧ t.ring (otherRing r) = s.ring (otherRing r) ∧
      ((s.ring r).SeenWithRoom (s.cap r) → t.ring r = (s.ring r).pushed (s.cap r) b) ∧
      (¬ (s.ring r).SeenWithRoom (s.cap r) → t.ring r = s.ring r) := by
  subst client
  obtain ⟨t, issued⟩ := issue_of_inv (p := producer r) (i := .enq r b) hs (decide_eq_true rfl)
  have view := seesFull_producer (s := { s with port := producer r }) gray rfl
  rw [ring_onPort, show ({ s with port := producer r } : State).cap r = s.cap r from rfl] at view
  refine ⟨t, issued, ?_⟩
  obtain ⟨tx, rx, -, why⟩ | ⟨inited, room, -, ring, other⟩ := issue_enq issued
  · rw [view, decide_eq_true_iff] at why
    exact ⟨ring_of_eq tx rx, fun ⟨inited, room⟩ => by simp [inited, room] at why, fun _ => ring_of_eq tx rx⟩
  · rw [view, decide_eq_false_iff_not] at room
    exact ⟨other, fun _ => ring, fun refused => absurd ⟨inited, room⟩ refused⟩

theorem issue_deq_gray (hs : Inv s) (gray : s.params.syncMode = .grayCdc) (client : consumer r = p) :
    ∃ t, issue p (.deq r) s = .next t ∧ t.ring (otherRing r) = s.ring (otherRing r) ∧
      ((s.ring r).SeenWithByte → t.answeredOk p = true ∧
        Memory.read (s.ring r).data (s.ring r).head = some (t.answeredData p) ∧
        t.ring r = (s.ring r).popped (s.cap r)) ∧
      (¬ (s.ring r).SeenWithByte → t.answeredOk p = false ∧ t.ring r = s.ring r) := by
  subst client
  obtain ⟨t, issued⟩ := issue_of_inv (p := consumer r) (i := .deq r) hs (decide_eq_true rfl)
  have view := seesEmpty_consumer (s := { s with port := consumer r }) gray rfl
  rw [ring_onPort] at view
  refine ⟨t, issued, ?_⟩
  obtain ⟨tx, rx, refused, why⟩ | ⟨inited, byte, ok, data, ring, other⟩ := issue_deq issued
  · rw [view, decide_eq_true_iff] at why
    exact ⟨ring_of_eq tx rx, fun ⟨inited, byte⟩ => by simp [inited, byte] at why, fun _ => ⟨refused, ring_of_eq tx rx⟩⟩
  · obtain ⟨v, read⟩ := (hs.ring r).head_resident hs.legal (hs.isEmpty_false byte)
    rw [view, decide_eq_false_iff_not] at byte
    exact ⟨other, fun _ => ⟨ok, by simp [data, read, State.slotByte], ring⟩, fun refused => absurd ⟨inited, byte⟩ refused⟩

/-! The dispatcher takes a callback from its queue (R104, R106). -/

theorem beginRequest_readCallback {len : Nat} (reading : s.mode = .readSerial) (one_le : 1 ≤ len)
    (len_le : len ≤ s.params.pkt) :
    beginRequest (.readCallback len) s = .next { s with uTask := .rdcb len (len - 1) [] } := by
  simp [beginRequest, reading, beginRdcb, readLengthOk, one_le, len_le]

theorem beginRequest_writeCallback {n : Byte} {bytes : List Byte} (writing : s.mode = .writeSerial)
    (count_fits : n.toNat ≤ bytes.length) (packet_fits : bytes.length + 1 ≤ s.params.pkt) :
    beginRequest (.writeCallback (n :: bytes)) s =
      .next { s with uTask := .wrcb (bytes.take n.toNat) (bytes.length + 1) } := by
  simp [beginRequest, writing, beginWrcb, packetOk_cons_iff.mpr ⟨packet_fits, count_fits⟩]

/-! A move of a callback under way. -/

section Moves

variable (hs : Inv s) (gray : s.params.syncMode = .grayCdc)
include hs gray

/-- A move of a write-callback with bytes left is one ENQ (R104). -/
theorem stepWrcb_cons (len : Nat) (b : Byte) (todo : List Byte) :
    ∃ t, stepWrcb len (b :: todo) s = .next t ∧ t.uTask = .wrcb todo len ∧ t.rx = s.rx ∧ t.mode = s.mode ∧
      t.remaining = s.remaining ∧ t.out = s.out ∧
      (s.tx.SeenWithRoom (s.cap .tx) → t.tx = s.tx.pushed (s.cap .tx) b) ∧
      (¬ s.tx.SeenWithRoom (s.cap .tx) → t.tx = s.tx) := by
  obtain ⟨t, issued, rx, taken, refused⟩ := issue_enq_gray (r := .tx) (p := .u) hs gray rfl b
  obtain ⟨-, -, -, mode, remaining, -, -, -, -, -, out⟩ := issue_frame issued
  exact ⟨{ t with uTask := .wrcb todo len }, by rw [stepWrcb, issued, andThen_next], rfl, rx, mode, remaining, out, taken,
    refused⟩

/-- A DEQ that succeeds fills a slot of the packet (R148). -/
theorem stepRdcb_of_byte (len left : Nat) (got : List Byte) (byte : s.rx.SeenWithByte) :
    ∃ t v, stepRdcb len (left + 1) got s = .next t ∧ Memory.read s.rx.data s.rx.head = some v ∧
      t.uTask = .rdcb len left (got ++ [v]) ∧ t.out = s.out ∧ t.tx = s.tx ∧ t.rx = s.rx.popped (s.cap .rx) := by
  obtain ⟨t, issued, tx, taken, -⟩ := issue_deq_gray (r := .rx) (p := .u) hs gray rfl
  obtain ⟨-, -, -, -, -, -, -, -, -, -, out⟩ := issue_frame issued
  obtain ⟨ok, read, rx⟩ := taken byte
  exact ⟨{ t with uTask := .rdcb len left (got ++ [t.answeredData .u]) }, t.answeredData .u,
    by rw [stepRdcb, issued, andThen_next, if_pos ok], read, rfl, out, tx, rx⟩

/-- A DEQ that fails ends the callback, the rest of the packet free (R148). -/
theorem stepRdcb_of_no_byte (len left : Nat) (got : List Byte) (no_byte : ¬ s.rx.SeenWithByte) :
    ∃ u bytes, stepRdcb len (left + 1) got s = .next (finishRdcb s.params.pkt len got.length (got ++ bytes) u) ∧
      bytes.length = left + 1 ∧ SameRings s u ∧ u.out = s.out := by
  obtain ⟨u, issued, tx, -, refused⟩ := issue_deq_gray (r := .rx) (p := .u) hs gray rfl
  obtain ⟨params, -, -, -, -, -, -, -, -, -, out⟩ := issue_frame issued
  obtain ⟨not_ok, rx⟩ := refused no_byte
  refine ⟨{ u with draws := u.draws + (left + 1) }, u.drawBytes (left + 1), ?_, by simp [State.drawBytes], ⟨tx, rx⟩, out⟩
  rw [stepRdcb, issued, andThen_next, if_neg (Bool.eq_false_iff.mp not_ok), params]

/-! A half of a pump step (R110). -/

theorem pumpTx_gray (hw : PumpIn) : ∃ t, pumpTx hw s = .next t ∧ t.rx = s.rx ∧
    (hw.txReady = true ∧ s.tx.SeenWithByte → ∃ v, Memory.read s.tx.data s.tx.head = some v ∧
      t.out = .hwTx v :: s.out ∧ t.tx = s.tx.popped (s.cap .tx)) ∧
    (¬ (hw.txReady = true ∧ s.tx.SeenWithByte) → t.tx = s.tx ∧ t.out = s.out) := by
  cases ready : hw.txReady with
  | false => exact ⟨s, by simp [pumpTx, ready], rfl, by simp, fun _ => ⟨rfl, rfl⟩⟩
  | true =>
    obtain ⟨t, issued, rx, taken, refused⟩ := issue_deq_gray (r := .tx) (p := .s) hs gray rfl
    obtain ⟨-, -, -, -, -, -, -, -, -, -, out⟩ := issue_frame issued
    by_cases byte : s.tx.SeenWithByte
    · obtain ⟨ok, read, tx⟩ := taken byte
      exact ⟨t.emit (.hwTx (t.answeredData .s)), by simp [pumpTx, ready, issued, ok], rx,
        fun _ => ⟨_, read, congrArg _ out, tx⟩, fun idle => absurd ⟨rfl, byte⟩ idle⟩
    · obtain ⟨not_ok, tx⟩ := refused byte
      exact ⟨t, by simp [pumpTx, ready, issued, not_ok], rx, fun ⟨_, sends⟩ => absurd sends byte, fun _ => ⟨tx, out⟩⟩

theorem pumpRx_gray (hw : PumpIn) : ∃ t, pumpRx hw s = .next t ∧ t.tx = s.tx ∧
    t.out = (if hw.rxReady then [.hwRxRead hw.rxData] else []) ++ s.out ∧
    (hw.rxReady = true ∧ s.rx.SeenWithRoom (s.cap .rx) → t.rx = s.rx.pushed (s.cap .rx) hw.rxData) ∧
    (¬ (hw.rxReady = true ∧ s.rx.SeenWithRoom (s.cap .rx)) → t.rx = s.rx) := by
  cases ready : hw.rxReady with
  | false => exact ⟨s, by simp [pumpRx, ready], rfl, by simp, by simp, fun _ => rfl⟩
  | true =>
    have read : Inv (s.emit (.hwRxRead hw.rxData)) := hs.of_eq rfl rfl rfl rfl rfl
    obtain ⟨t, issued, tx, taken, refused⟩ := issue_enq_gray (r := .rx) (p := .s) read gray rfl hw.rxData
    obtain ⟨-, -, -, -, -, -, -, -, -, -, out⟩ := issue_frame issued
    exact ⟨t, (if_pos ready).trans issued, tx, out, fun ⟨_, room⟩ => taken room,
      fun lost => refused fun room => lost ⟨rfl, room⟩⟩

end Moves

/-! The move a step makes. -/

theorem step_advanceU (hs : Inv s) (gray : s.params.syncMode = .grayCdc) (awaits : AwaitsInput s)
    (next : s.inputs = .advance .u :: rest) : step s = advanceU { s with inputs := rest } :=
  step_advance hs.legal gray awaits next

theorem step_advanceS (hs : Inv s) (gray : s.params.syncMode = .grayCdc) (awaits : AwaitsInput s)
    (next : s.inputs = .advance .s :: rest) : step s = advanceS { s with inputs := rest } :=
  step_advance hs.legal gray awaits next

theorem advanceS_pump {hw : PumpIn} {ps : List PumpIn} (idle : s.sTask = .idle) (due : s.pumps = hw :: ps) :
    advanceS s = pumpTx hw { s with pumps := ps, sTask := .rxHalf hw } := by
  simp only [advanceS, idle, due]

theorem advanceS_rxHalf {hw : PumpIn} (half : s.sTask = .rxHalf hw) :
    advanceS s = pumpRx hw { s with sTask := .idle } := by
  simp only [advanceS, half]

/-- The mode after a read-callback's end (R107). -/
theorem finishRdcb_idle {pktSize len count : Nat} {got : List Byte}
    (ends : len < pktSize ∨ (finishRdcb pktSize len count got s).remaining = 0) :
    (finishRdcb pktSize len count got s).mode = .idle := by
  rw [finishRdcb_mode, if_pos ends]

/-! The obligations. -/

/-- Settles O57: the move is one DEQ, whose response goes on or ends the callback, or its end with no slot left. -/
theorem readCallbackInGrayStopsAtFailure : Obligations.ReadCallbackInGrayStopsAtFailure := by
  intro s len got rest hs gray awaits next
  have hs' : Inv { s with inputs := rest } := hs.of_eq rfl rfl rfl rfl rfl
  have stepped := step_advanceU hs gray awaits next
  refine ⟨fun left task fails => ?_, fun left task inited byte => ?_, fun task => ?_⟩ <;>
    rw [stepped, advanceU_rdcb (s := { s with inputs := rest }) task]
  · have no_byte : ¬ s.rx.SeenWithByte := fun ⟨inited, byte⟩ => fails.elim (by simp [inited]) byte
    obtain ⟨u, bytes, moved, length, rings, out⟩ := stepRdcb_of_no_byte hs' gray len left got no_byte
    exact ⟨_, bytes, moved, rfl, rings, length, congrArg _ out, finishRdcb_idle⟩
  · exact stepRdcb_of_byte hs' gray len left got ⟨inited, byte⟩
  · have filled := (taskInv_gray_iff gray).mp hs.tasks _ _ _ task
    exact ⟨_, rfl, rfl, ⟨rfl, rfl⟩, by omega, rfl, finishRdcb_idle⟩

/-- Settles O58: each move is the beginning of a callback, one operation, or the end of a callback. -/
theorem writeCallbackAndPumpMoveInGray : Obligations.WriteCallbackAndPumpMoveInGray := by
  intro s rest hs gray awaits
  have hs' : Inv { s with inputs := rest } := hs.of_eq rfl rfl rfl rfl rfl
  refine ⟨fun next idle qs => ⟨fun len request reading one_le len_le => ?_,
    fun n bytes request writing count_fits packet_fits => ?_⟩, fun b todo len next task => ?_,
    fun len next task covered => ?_, fun hw ps next idle due => ?_, fun hw next half => ?_⟩
  · rw [step_advanceU hs gray awaits next, advanceU_request (s := { s with inputs := rest }) idle request]
    exact beginRequest_readCallback (s := { s with inputs := rest, usb := qs }) reading one_le len_le
  · rw [step_advanceU hs gray awaits next, advanceU_request (s := { s with inputs := rest }) idle request]
    exact beginRequest_writeCallback (s := { s with inputs := rest, usb := qs }) writing count_fits packet_fits
  · rw [step_advanceU hs gray awaits next, advanceU_wrcb (s := { s with inputs := rest }) task]
    exact stepWrcb_cons hs' gray len b todo
  · rw [step_advanceU hs gray awaits next, advanceU_wrcb (s := { s with inputs := rest }) task]
    obtain ⟨-, -, -, -, -, ended, -⟩ := finishWrcb_frame len { s with inputs := rest }
    exact ⟨_, rfl, ended, finishWrcb_rings len _, (finishWrcb_remaining len _).trans (lower_of_le covered),
      finishWrcb_of_zero, finishWrcb_of_ne_zero⟩
  · rw [step_advanceS hs gray awaits next, advanceS_pump (s := { s with inputs := rest }) idle due]
    obtain ⟨t, moved, rx, sends, idles⟩ := pumpTx_gray
      (s := { s with inputs := rest, pumps := ps, sTask := .rxHalf hw }) (hs.of_eq_gray gray rfl rfl rfl rfl) gray hw
    obtain ⟨-, -, -, -, -, -, pumps, -, sTask, -⟩ := pumpTx_frame moved
    exact ⟨t, moved, sTask, pumps, rx, sends, idles⟩
  · rw [step_advanceS hs gray awaits next, advanceS_rxHalf (s := { s with inputs := rest }) half]
    obtain ⟨t, moved, tx, out, receives, keeps⟩ := pumpRx_gray
      (s := { s with inputs := rest, sTask := .idle }) (hs.of_eq_gray gray rfl rfl rfl rfl) gray hw
    obtain ⟨-, -, -, -, -, -, -, -, sTask, -⟩ := pumpRx_frame moved
    exact ⟨t, moved, sTask, tx, out, receives, keeps⟩

end Sys2Proof.Machine
end

section
/-! PROOFS. Refusal (`60_exceptions.md`): in `COOPERATIVE` an operation means the same on either port (R172), and a
status other than OK leaves the block as it was (R165). -/

namespace Sys2Proof.Machine

variable {s s' t u u' : State} {r : RingSel} {b : Byte} {i : Instr} {p p' : Port}

/-! One operation on either port, in `COOPERATIVE`. -/

/-- Two states of a `COOPERATIVE` machine that agree in all an operation reads there: not in the port, for one. -/
structure ReadAlike (s s' : State) : Prop where
  coop : s.params.syncMode = .cooperative
  params : s'.params = s.params
  draws : s'.draws = s.draws
  ring : ∀ r, s'.ring r = s.ring r

/-- Two next states of an operation issued on two ports: the same rings, the same response, each on its own port. -/
def AnsweredSame (p p' : Port) (t t' : State) : Prop := SameRings t t' ∧ t'.rsp p' = t.rsp p

theorem readAlike_onPort (coop : s.params.syncMode = .cooperative) (p p' : Port) :
    ReadAlike { s with port := p } { s with port := p' } where
  coop := coop
  params := rfl
  draws := rfl
  ring r := (ring_onPort s p' r).trans (ring_onPort s p r).symm

section Alike

variable (h : ReadAlike s s')
include h

theorem ReadAlike.coop' : s'.params.syncMode = .cooperative := h.params ▸ h.coop

theorem ReadAlike.cap (r : RingSel) : s'.cap r = s.cap r := by rw [State.cap, State.cap, h.params]

theorem ReadAlike.seesFull (r : RingSel) : s'.seesFull r = s.seesFull r := by
  rw [seesFull_eq_isFull h.coop', seesFull_eq_isFull h.coop, h.ring, h.cap]

theorem ReadAlike.seesEmpty (r : RingSel) : s'.seesEmpty r = s.seesEmpty r := by
  rw [seesEmpty_eq_isEmpty h.coop', seesEmpty_eq_isEmpty h.coop, h.ring]

theorem ReadAlike.setRing (r : RingSel) (q : Ring) : ReadAlike (s.setRing r q) (s'.setRing r q) where
  coop := by rw [setRing_params, h.coop]
  params := by rw [setRing_params, setRing_params, h.params]
  draws := by rw [setRing_draws, setRing_draws, h.draws]
  ring r' := by rw [setRing_ring, setRing_ring, h.ring]

theorem ReadAlike.initAt (r : RingSel) : ReadAlike (s.initAt r) (s'.initAt r) := by
  rw [State.initAt, State.initAt, h.params, h.ring]
  exact h.setRing r _

end Alike

/-- Giving one answer in each of two states. -/
theorem ReadAlike.answer (hu : ReadAlike u u') (port : u.port = p) (port' : u'.port = p') (st : Status) (d : Byte) :
    AnsweredSame p p' (u.answer st d) (u'.answer st d) := by
  subst port port'
  exact ⟨⟨by simpa using hu.ring .tx, by simpa using hu.ring .rx⟩,
    (answer_rsp_self u' st d).trans (answer_rsp_self u st d).symm⟩

theorem ReadAlike.answerDraw (hu : ReadAlike u u') (port : u.port = p) (port' : u'.port = p') (st : Status) :
    AnsweredSame p p' (u.answerDraw st) (u'.answerDraw st) := by
  rw [State.answerDraw, State.answerDraw, hu.draws]
  exact hu.answer port port' st (Config.freeByte u.draws)

theorem ReadAlike.answeredSlot (hu : ReadAlike u u') (port : u.port = p) (port' : u'.port = p') (v : Option Byte) :
    AnsweredSame p p' (u.answeredSlot v) (u'.answeredSlot v) := by
  cases v with
  | none => exact hu.answerDraw port port' .ok
  | some v => exact hu.answer port port' .ok v

theorem enqueue_same (h : ReadAlike s s') (answers : enqueue r b s = .next t) :
    ∃ t', enqueue r b s' = .next t' ∧ AnsweredSame s.port s'.port t t' := by
  obtain ⟨uninit, rfl⟩ | ⟨inited, full, rfl⟩ | ⟨inited, room, tail_lt, rfl⟩ := enqueue_cases answers
  · exact ⟨_, enqueue_uninit (by rwa [h.ring]), h.answerDraw rfl rfl .uninit⟩
  · exact ⟨_, enqueue_full (by rwa [h.ring]) (by rwa [h.seesFull]), h.answerDraw rfl rfl .full⟩
  · refine ⟨_, enqueue_ok (by rwa [h.ring]) (by rwa [h.seesFull]) (by rwa [h.ring, h.cap]), ?_⟩
    rw [h.ring, h.cap]
    exact (h.setRing r _).answerDraw (setRing_port ..) (setRing_port ..) .ok

theorem dequeue_same (h : ReadAlike s s') (answers : dequeue r s = .next t) :
    ∃ t', dequeue r s' = .next t' ∧ AnsweredSame s.port s'.port t t' := by
  obtain ⟨uninit, rfl⟩ | ⟨inited, empty, rfl⟩ | ⟨inited, byte, head_lt, rfl⟩ := dequeue_cases answers
  · exact ⟨_, dequeue_uninit (by rwa [h.ring]), h.answerDraw rfl rfl .uninit⟩
  · exact ⟨_, dequeue_empty (by rwa [h.ring]) (by rwa [h.seesEmpty]), h.answerDraw rfl rfl .empty⟩
  · refine ⟨_, dequeue_ok (by rwa [h.ring]) (by rwa [h.seesEmpty]) (by rwa [h.ring, h.cap]), ?_⟩
    rw [h.ring, h.cap]
    exact (h.setRing r _).answeredSlot (setRing_port ..) (setRing_port ..) _

/-- An operation that answers in one of two such states answers the same in the other, whatever the ports (R172). -/
theorem exec_same (h : ReadAlike s s') (answers : exec i s = .next t) :
    ∃ t', exec i s' = .next t' ∧ AnsweredSame s.port s'.port t t' := by
  have may (port : Port) : s.mayIssue port = true := mayIssue_coop h.coop port
  have may' (port : Port) : s'.mayIssue port = true := mayIssue_coop h.coop' port
  cases i with
  | nop => cases answers; exact ⟨_, rfl, h.answerDraw rfl rfl .ok⟩
  | rsvd7 => cases answers; exact ⟨_, rfl, h.answerDraw rfl rfl .ok⟩
  | isempty r =>
    cases answers
    refine ⟨_, rfl, ?_⟩
    rw [h.ring, h.seesEmpty]
    exact h.answer rfl rfl _ _
  | isfull r =>
    cases answers
    refine ⟨_, rfl, ?_⟩
    rw [h.ring, h.seesFull]
    exact h.answer rfl rfl _ _
  | init r =>
    rw [exec_init (may _)] at answers
    cases answers
    exact ⟨_, exec_init (may' _), (h.initAt r).answerDraw (setRing_port ..) (setRing_port ..) .ok⟩
  | initall =>
    rw [exec_initall (may _)] at answers
    cases answers
    exact ⟨_, exec_initall (may' _), ((h.initAt .tx).initAt .rx).answerDraw rfl rfl .ok⟩
  | enq r b =>
    rw [exec_enq (may _)] at answers
    rw [exec_enq (may' _)]
    exact enqueue_same h answers
  | deq r =>
    rw [exec_deq (may _)] at answers
    rw [exec_deq (may' _)]
    exact dequeue_same h answers

/-! An operation that does not answer OK. -/

/-- Whatever changes a ring answers OK (R165). -/
theorem exec_ring_of_not_ok (h : exec i s = .next t) (not_ok : ¬ Answered s t .ok) (r : RingSel) :
    t.ring r = s.ring r := by
  obtain same | ⟨_, -, ok, -⟩ | ⟨-, ok, -⟩ | ⟨rfl | rfl, -⟩ := exec_ring_changes h r
  · exact same
  · exact absurd ok not_ok
  · exact absurd ok not_ok
  · exact absurd (answered_exec_init h) not_ok
  · exact absurd (answered_exec_initall h) not_ok

/-! The obligations. -/

/-- Settles O30: in `COOPERATIVE` no test of an operation depends on the port, and in `GRAY_CDC` the ports are what
`42_gray_cdc_option.md` R135 binds them to. -/
theorem portsPolicedOnlyInGray : Obligations.PortsPolicedOnlyInGray :=
  ⟨fun _ _ _ p p' coop => exec_same (readAlike_onPort coop p p'),
    fun s i gray => (wrongPortRefusedInGray s i gray).mpr⟩

/-- Settles O31: every operation keeps what is around the rings, and one that changes a ring answers OK. -/
theorem refusedOperationChangesNothing : Obligations.RefusedOperationChangesNothing := by
  intro s t i st d h answered refused
  have kept := exec_ring_of_not_ok h (Answered.not_of_ne ⟨d, answered⟩ refused)
  exact ⟨⟨kept .tx, kept .rx⟩, exec_frame h⟩

end Sys2Proof.Machine
end

section
/-! PROOFS. Reset, stops and rest (`70_reset_and_hazards.md`): no operation, no client and no synchroniser clears `inited`
(R191), in `COOPERATIVE` what only `GRAY_CDC` has is refused (R200), and without input the machine rests (R209). -/

namespace Sys2Proof.Machine

variable {s t : State} {r : RingSel} {b : Byte} {i : Instr}

/-! The rings that are initialised and stay so. -/

/-- Every ring initialised in `s` is initialised in `t`. -/
def StaysInited (s t : State) : Prop := ∀ r, (s.ring r).inited = true → (t.ring r).inited = true

theorem StaysInited.of_rings (tx : t.tx = s.tx) (rx : t.rx = s.rx) : StaysInited s t := fun r inited => by
  rw [ring_of_eq tx rx]
  exact inited

@[simp] theorem initRing_inited (m : SyncMode) (q : Ring) : (initRing m q).inited = true := by cases m <;> rfl

theorem exec_staysInited (h : exec i s = .next t) : StaysInited s t := by
  intro r inited
  obtain ring | ⟨b, -, -, ring⟩ | ⟨-, -, ring⟩ | ⟨-, ring⟩ := exec_ring_changes h r <;> rw [ring]
  · exact inited
  · exact inited
  · exact inited
  · exact initRing_inited _ _

theorem RingMoved.inited {cap : Nat} {q q' : Ring} (moved : RingMoved cap q q') (inited : q.inited = true) :
    q'.inited = true := by
  obtain rfl | ⟨b, rfl⟩ | rfl | rfl := moved
  · exact inited
  · exact inited
  · exact inited
  · rfl

/-! Outcomes after which they stay so. -/

/-- The outcome is no next state, or one in which every ring initialised in `s` is initialised. -/
def KeepsInited (s : State) (o : Host.Outcome State Fault Refusal) : Prop := ∀ t, o = .next t → StaysInited s t

@[simp] theorem keepsInited_refused (s : State) (why : Refusal) : KeepsInited s (.refused why) := by rintro _ ⟨⟩

theorem StaysInited.next (stays : StaysInited s t) : KeepsInited s (.next t) := by
  rintro _ ⟨⟩
  exact stays

@[simp] theorem keepsInited_next (tx : t.tx = s.tx) (rx : t.rx = s.rx) : KeepsInited s (.next t) :=
  (StaysInited.of_rings tx rx).next

@[simp] theorem keepsInited_emit (tx : t.tx = s.tx) (rx : t.rx = s.rx) (e : OutEvent) :
    KeepsInited s (.next (t.emit e)) := keepsInited_next tx rx

theorem KeepsInited.andThen {o : Host.Outcome State Fault Refusal} {k : State → Host.Outcome State Fault Refusal}
    (first : KeepsInited s o) (rest : ∀ u, KeepsInited u (k u)) : KeepsInited s (andThen o k) := by
  intro t h
  obtain ⟨u, begun, ended⟩ := andThen_eq_next h
  exact fun r inited => rest u t ended r (first u begun r inited)

theorem issue_keepsInited (p : Port) (i : Instr) (s : State) : KeepsInited s (issue p i s) :=
  fun _ => exec_staysInited

/-! `COOPERATIVE`: a whole sequence a step. -/

theorem runWrcb_keepsInited (len : Nat) (todo : List Byte) (s : State) : KeepsInited s (runWrcb len todo s) := by
  induction todo generalizing s with
  | nil => exact keepsInited_next (finishWrcb_rings len s).1 (finishWrcb_rings len s).2
  | cons b todo ih => exact (issue_keepsInited _ _ s).andThen ih

theorem runRdcb_keepsInited (len left : Nat) (got : List Byte) (good : Option Nat) (s : State) :
    KeepsInited s (runRdcb len left got good s) := by
  induction left generalizing s got good with
  | zero => exact keepsInited_next rfl rfl
  | succ left ih => exact (issue_keepsInited _ _ s).andThen fun u => ih _ _ u

theorem runUTask_keepsInited (s : State) : KeepsInited s (runUTask s) := by
  unfold runUTask
  split
  · exact keepsInited_next rfl rfl
  · exact runWrcb_keepsInited _ _ s
  · exact runRdcb_keepsInited _ _ _ _ s

theorem configure_keepsInited (s : State) : KeepsInited s (configure s) :=
  (issue_keepsInited _ _ s).andThen fun _ => keepsInited_next rfl rfl

theorem beginWrcb_keepsInited (packet : List Byte) (s : State) : KeepsInited s (beginWrcb packet s) := by
  unfold beginWrcb
  split
  · split <;> simp
  · exact keepsInited_refused s _

theorem beginRdcb_keepsInited (len : Nat) (s : State) : KeepsInited s (beginRdcb len s) := by
  unfold beginRdcb
  split <;> simp

@[simp] theorem violation_keepsInited (s : State) : KeepsInited s (.next (violation s)) := keepsInited_next rfl rfl

@[simp] theorem continueTransfer_keepsInited (count : Nat) (s : State) :
    KeepsInited s (.next (continueTransfer count s)) := keepsInited_next rfl rfl

theorem beginRequest_keepsInited (q : UsbReq) (s : State) : KeepsInited s (beginRequest q s) := by
  unfold beginRequest
  split <;> simp [configure_keepsInited, beginWrcb_keepsInited, beginRdcb_keepsInited]

theorem serveRequest_keepsInited (q : UsbReq) (s : State) : KeepsInited s (serveRequest q s) :=
  (beginRequest_keepsInited q s).andThen runUTask_keepsInited

theorem pumpTx_keepsInited (hw : PumpIn) (s : State) : KeepsInited s (pumpTx hw s) := by
  unfold pumpTx
  split
  · refine (issue_keepsInited _ _ s).andThen fun u => ?_
    split <;> exact keepsInited_next rfl rfl
  · exact keepsInited_next rfl rfl

theorem pumpRx_keepsInited (hw : PumpIn) (s : State) : KeepsInited s (pumpRx hw s) := by
  unfold pumpRx
  split
  · exact issue_keepsInited _ _ (s.emit _)
  · exact keepsInited_next rfl rfl

theorem runPump_keepsInited (hw : PumpIn) (s : State) : KeepsInited s (runPump hw s) :=
  (pumpTx_keepsInited hw s).andThen (pumpRx_keepsInited hw)

/-! `GRAY_CDC`: one move of an agent, or of a synchroniser. -/

theorem setRing_staysInited {q : Ring} (same : q.inited = (s.ring r).inited) : StaysInited s (s.setRing r q) := by
  intro r' inited
  rw [setRing_ring]
  split
  · rename_i selected
    rw [same, ← selected]
    exact inited
  · exact inited

theorem syncHead_staysInited (r : RingSel) (k : Nat) (s : State) : StaysInited s (syncHead r k s) :=
  setRing_staysInited rfl

theorem syncTail_staysInited (r : RingSel) (k : Nat) (s : State) : StaysInited s (syncTail r k s) :=
  setRing_staysInited rfl

/-! One step. -/

theorem applyInput_staysInited {e : Input} (no_reset : e ≠ .reset) (h : applyInput e s = .next t) : StaysInited s t := by
  cases e with
  | present v w => cases h; exact .of_rings rfl rfl
  | tick requests hw => cases h; exact .of_rings rfl rfl
  | reset => exact absurd rfl no_reset
  | advance p =>
    obtain ⟨gray, moved⟩ := onlyGray_eq_next h
    cases p with
    | u => exact fun r => (advanceU_ringMoved gray moved).inited
    | s => exact fun r => (advanceS_ringMoved gray moved).inited
  | syncH r k =>
    obtain ⟨-, moved⟩ := onlyGray_eq_next (k := fun u => .next (syncHead r k u)) h
    cases moved
    exact syncHead_staysInited r k s
  | syncT r k =>
    obtain ⟨-, moved⟩ := onlyGray_eq_next (k := fun u => .next (syncTail r k u)) h
    cases moved
    exact syncTail_staysInited r k s

theorem step_staysInited_or_reset (h : step s = .next t) : StaysInited s t ∨ Takes s .reset := by
  obtain ⟨-, ⟨_, -, issued⟩ | ⟨_, -, -, issued⟩ | ⟨_, rest, -, -, -, -, served⟩ | ⟨_, rest, -, -, -, -, -, pumped⟩ |
    ⟨-, -, rfl⟩ | ⟨e, rest, awaits, next, applied⟩⟩ := step_cases h
  · exact .inl (issue_keepsInited _ _ { s with lineU := none } t issued)
  · exact .inl (issue_keepsInited _ _ { s with lineS := none } t issued)
  · exact .inl (serveRequest_keepsInited _ { s with usb := rest } t served)
  · exact .inl (runPump_keepsInited _ { s with pumps := rest } t pumped)
  · exact .inl (.of_rings rfl rfl)
  · by_cases reset : e = .reset
    · exact .inr ⟨awaits, rest, reset ▸ next⟩
    · exact .inl (applyInput_staysInited (s := { s with inputs := rest }) reset applied)

/-! ENQ and DEQ on an initialised ring. -/

theorem exec_enq_not_uninit (inited : (s.ring r).inited = true) (h : exec (.enq r b) s = .next t) :
    ¬ Answered s t .uninit := by
  obtain ⟨uninit, -⟩ | ⟨-, -, full, -⟩ | ⟨-, -, ok, -⟩ := exec_enq_cases h
  · exact absurd (inited.symm.trans uninit) (by decide)
  · exact full.not_of_ne (by decide)
  · exact ok.not_of_ne (by decide)

theorem exec_deq_not_uninit (inited : (s.ring r).inited = true) (h : exec (.deq r) s = .next t) :
    ¬ Answered s t .uninit := by
  obtain ⟨uninit, -⟩ | ⟨-, -, empty, -⟩ | ⟨-, -, ok, -⟩ := exec_deq_cases h
  · exact absurd (inited.symm.trans uninit) (by decide)
  · exact empty.not_of_ne (by decide)
  · exact Answered.not_of_ne ⟨_, ok⟩ (by decide)

/-! What only `GRAY_CDC` has, in `COOPERATIVE`. -/

theorem onlyGray_coop (coop : s.params.syncMode = .cooperative) (why : Refusal)
    (k : State → Host.Outcome State Fault Refusal) : onlyGray why k s = .refused why := by
  rw [onlyGray, coop]

/-! The obligations. -/

/-- Settles O11: an operation leaves `inited` or sets it, clients only issue operations, and a synchroniser moves a seen
pointer; UNINIT is the answer of an uninitialised ring's arm alone. -/
theorem onlyResetUninitialises : Obligations.OnlyResetUninitialises := by
  refine ⟨fun s t r stepped inited => ?_, fun s t r b inited => ⟨exec_enq_not_uninit inited, exec_deq_not_uninit inited⟩⟩
  obtain stays | reset := step_staysInited_or_reset stepped
  · exact .inl (stays r inited)
  · exact .inr reset

/-- Settles O59: the step takes the input, which only `GRAY_CDC` has. -/
theorem cooperativeRefusesOverlap : Obligations.CooperativeRefusesOverlap := by
  intro s rest legal coop awaits
  refine ⟨fun p next => ?_, fun r k next => ?_⟩
  · rw [step_input legal awaits next]
    exact onlyGray_coop (s := { s with inputs := rest }) coop _ _
  · obtain next | next := next <;>
      rw [step_input legal awaits next, applyInput, onlyGray_coop (s := { s with inputs := rest }) coop]

/-- Settles O60: the step looks for an input, and there is none to take. -/
theorem machineRestsWithoutInput : Obligations.MachineRestsWithoutInput := by
  intro s legal awaits none_left
  rw [step_awaits legal awaits, takeInput, none_left]

end Sys2Proof.Machine
end
